-- ==== Sys2Proof/Word.lean ====
section
/-! DEFINITION. The words of the block: bytes, 64-bit addresses and data, 32-bit request words
(spec/00_scope.md R10, spec/30_encoding.md R70). -/

namespace Sys2Proof

/-- One byte of a line or of the backing store. -/
abbrev Byte := BitVec 8

/-- A 64-bit byte address; its arithmetic is modulo 2^64 (R10, R59). -/
abbrev Addr := BitVec 64

/-- A 64-bit data value: WDATA and RDATA (R70). -/
abbrev Dword := BitVec 64

/-- A 32-bit request word (R70, R71). -/
abbrev ReqWord := BitVec 32

/-- A cache id as the request word carries it: the 4-bit field CID (R71, R74). -/
abbrev Cid := BitVec 4

end Sys2Proof
end

