-- ==== Sys2Proof/Config.lean ====
section
/-! DEFINITION. The implementation parameters (spec/00_scope.md R7 to R9, spec/10_state.md R20, R22, R33)
and the one free value of the model (spec/20_memory.md R53). -/

namespace Sys2Proof

/-- TYPE[k] (R20). -/
inductive CacheType where
  | instruction
  | data
  | unified
deriving DecidableEq, Repr

/-- NEXT[k] (R22): the next level of a cache, or the backing store it owns. -/
inductive NextRef where
  | nextLevel (j : Nat)
  | terminal
deriving DecidableEq, Repr

/-- The configuration record of one cache (R20). LEVEL is a number because a configuration may hold an
unsupported one, which construction reports (R101). -/
structure CacheCfg where
  name  : String
  level : Nat
  type  : CacheType
  cap   : Nat
  ways  : Nat
  next  : NextRef
deriving DecidableEq, Repr

/-- One device range `[start, stop)` of DEVICES (R33). -/
structure DeviceRange where
  start           : Addr
  stop            : Addr
  hasWriteHandler : Bool
deriving DecidableEq, Repr

/-- The parameters of the block (R7). N_CACHES is the number of records in `caches`; cache id k is the
position in that list. -/
structure Params where
  lineSize   : Nat
  caches     : List CacheCfg
  storeSize  : Nat
  devices    : List DeviceRange
  allocFails : Bool
deriving DecidableEq, Repr

/-- N_CACHES (R7). -/
def Params.nCaches (p : Params) : Nat := p.caches.length

/-- The default topology (R8) over given capacities and way counts: 0 L1I, 1 L1D, both with next level
2 L2, which is terminal. -/
def Params.defaultTopology (cap1 ways1 cap2 ways2 : Nat) : List CacheCfg :=
  [ { name := "L1I", level := 1, type := .instruction, cap := cap1, ways := ways1, next := .nextLevel 2 },
    { name := "L1D", level := 1, type := .data, cap := cap1, ways := ways1, next := .nextLevel 2 },
    { name := "L2", level := 2, type := .unified, cap := cap2, ways := ways2, next := .terminal } ]

/-- The test configuration TC (R9). The spec leaves every size open (D3); DESIGN CHOICE: State.reset is
built from TC (log entry 2). -/
def Params.tc : Params where
  lineSize   := 64
  caches     := Params.defaultTopology 1024 2 4096 4
  storeSize  := 0x10000
  devices    := [{ start := 0xF000, stop := 0xF010, hasWriteHandler := true }]
  allocFails := false

/-- The value of the n-th byte that a truncated store read did not read: "any value, under no law" (R53,
D7; 93_implementation_defined.md I-TRUNC). A free value: it has no body (log entry 5). -/
opaque Config.unreadByte : Nat → Byte

end Sys2Proof
end

