-- ==== Sys2Proof/Syntax.lean ====
section
/-! DEFINITION. The requests, one constructor per row of spec/opcode_table.json (spec/30_encoding.md R81).
A request word carries one operand, the cache id; ADDR, WDATA and LINE_IN are fields of the request
record (R70) and stand in the state. -/

namespace Sys2Proof

/-- The ten requests (R81), each with its CID field (R74). -/
inductive Instr where
  /-- GET.B: read one byte (R161). -/
  | getB (cid : Cid)
  /-- GET.H: read two bytes (R162). -/
  | getH (cid : Cid)
  /-- GET.W: read four bytes (R163). -/
  | getW (cid : Cid)
  /-- GET.D: read eight bytes (R164). -/
  | getD (cid : Cid)
  /-- PUT.B: write one byte (R165). -/
  | putB (cid : Cid)
  /-- PUT.H: write two bytes (R166). -/
  | putH (cid : Cid)
  /-- PUT.W: write four bytes (R167). -/
  | putW (cid : Cid)
  /-- PUT.D: write eight bytes (R168). -/
  | putD (cid : Cid)
  /-- RDLINE: read one line (R134). -/
  | rdline (cid : Cid)
  /-- WRLINE: write one whole line (R145). -/
  | wrline (cid : Cid)
deriving DecidableEq, Repr

/-- The cache a request names (R74). -/
def Instr.cid : Instr → Cid
  | .getB c => c
  | .getH c => c
  | .getW c => c
  | .getD c => c
  | .putB c => c
  | .putH c => c
  | .putW c => c
  | .putD c => c
  | .rdline c => c
  | .wrline c => c

end Sys2Proof
end

