-- ==== Sys2Proof/WellFormed.lean ====
section
/-! DEFINITION. When a request and a parameter set are well-formed (spec/30_encoding.md R74, R79;
spec/00_scope.md R7). -/

namespace Sys2Proof

/-- A request is well-formed for a block of n caches when its CID names one of them (R74: "A CID ≥
N_CACHES is reserved"). Every other field of a request word is fixed by the constructor. -/
def Instr.wellFormed (n : Nat) (i : Instr) : Bool := decide (i.cid.toNat < n)

/-- The parameter ranges of R7 that construction does not check: 1 ≤ N_CACHES ≤ 16, and capacities below
2^64 (R93). Log entry 14. -/
def Params.inRange (p : Params) : Bool :=
  decide (1 ≤ p.nCaches) && decide (p.nCaches ≤ 16) && p.caches.all (fun c => decide (c.cap < 2 ^ 64))

end Sys2Proof
end

