-- ==== Sys2Proof/Decode.lean ====
section
/-! DEFINITION. Decoding of a request word, total on every 32-bit word (spec/30_encoding.md R71 to R74, R79,
R81), and the encoder written from the same table. -/

namespace Sys2Proof

/-- Why a request word is illegal, in the order R79 checks. Each is a reserved word: the block raises
ILLEGAL_REQUEST for it (R79, R181 code 5), which the step does. -/
inductive DecodeError where
  /-- WORD[31:10] is not 0. -/
  | reservedBits
  /-- OP is above 0x3. -/
  | reservedOp
  /-- RDLINE or WRLINE with SZ not 00. -/
  | sizedLineRequest
  /-- CID ≥ N_CACHES. -/
  | noSuchCache
deriving DecidableEq, Repr

/-- WORD[31:10] (R71). -/
def rsvdField (w : ReqWord) : BitVec 22 := w.extractLsb' 10 22

/-- WORD[9:6] (R71). -/
def cidField (w : ReqWord) : Cid := w.extractLsb' 6 4

/-- WORD[5:4] (R71). -/
def szField (w : ReqWord) : BitVec 2 := w.extractLsb' 4 2

/-- WORD[3:0] (R71). -/
def opField (w : ReqWord) : BitVec 4 := w.extractLsb' 0 4

/-- The request selected by OP and SZ (R72, R73, R81), or the reason there is none. -/
def selectRequest (op : BitVec 4) (sz : BitVec 2) (cid : Cid) : Except DecodeError Instr :=
  match op.toNat, sz.toNat with
  | 0, 0 => .ok (.getB cid)
  | 0, 1 => .ok (.getH cid)
  | 0, 2 => .ok (.getW cid)
  | 0, _ => .ok (.getD cid)
  | 1, 0 => .ok (.putB cid)
  | 1, 1 => .ok (.putH cid)
  | 1, 2 => .ok (.putW cid)
  | 1, _ => .ok (.putD cid)
  | 2, 0 => .ok (.rdline cid)
  | 2, _ => .error .sizedLineRequest
  | 3, 0 => .ok (.wrline cid)
  | 3, _ => .error .sizedLineRequest
  | _, _ => .error .reservedOp

/-- `decode(WORD)` of R79 in a block of n caches: reserved bits, OP, SZ and then CID. -/
def decode (n : Nat) (w : ReqWord) : Except DecodeError Instr :=
  if rsvdField w ≠ 0 then .error .reservedBits
  else
    match selectRequest (opField w) (szField w) (cidField w) with
    | .error e => .error e
    | .ok i => if (cidField w).toNat < n then .ok i else .error .noSuchCache

/-- OP of a request (R72). -/
def Instr.opBits : Instr → BitVec 4
  | .getB _ => 0x0
  | .getH _ => 0x0
  | .getW _ => 0x0
  | .getD _ => 0x0
  | .putB _ => 0x1
  | .putH _ => 0x1
  | .putW _ => 0x1
  | .putD _ => 0x1
  | .rdline _ => 0x2
  | .wrline _ => 0x3

/-- SZ of a request (R73). -/
def Instr.szBits : Instr → BitVec 2
  | .getB _ => 0
  | .getH _ => 1
  | .getW _ => 2
  | .getD _ => 3
  | .putB _ => 0
  | .putH _ => 1
  | .putW _ => 2
  | .putD _ => 3
  | .rdline _ => 0
  | .wrline _ => 0

/-- The request word of a request: RSVD, CID, SZ, OP from the most significant bit down (R71). -/
def encode (i : Instr) : ReqWord := (0 : BitVec 22) ++ i.cid ++ i.szBits ++ i.opBits

/-- The instruction the decoder reads from an opcode-table row's bits. The table leaves CID free and the
spec allows 16 caches (R7, R74), so the word is decoded for a block of 16; a block of fewer caches
applies its own CID check when the word is performed (R81; log entry 11). -/
def decodeTableWord (nbits w : Nat) : Option Instr :=
  match decode 16 (BitVec.ofNat 32 (w % 2 ^ nbits)) with
  | .ok i => if nbits ≤ 32 then some i else none
  | .error _ => none

end Sys2Proof
end

