-- ==== Sys2Proof/Machine/Parts.lean ====
section
/-! DEFINITION. The pieces the state is built of: line states, entries, sets, the fault register, device
events, requests and responses (spec/10_state.md R25 to R35, spec/30_encoding.md R70). -/

namespace Sys2Proof.Machine

/-- The coherency state of a line (R25). The fourth 2-bit pattern, 0b11, is never written by any rule and
has no term (93_implementation_defined.md I-STATE3; log entry 12). -/
inductive Coh where
  | invalid
  | shared
  | modified
deriving DecidableEq, Repr

/-- One entry E[k][s][w] (R25 to R28); the tag is stored zero-extended (R26). -/
structure Entry where
  state : Coh
  tag   : Addr
  data  : List Byte
  prev  : Option Nat
  next  : Option Nat
deriving DecidableEq, Repr

/-- One set of a cache: its HEAD register (R29) and its ways (R23). -/
structure CacheSet where
  head : Option Nat
  ways : List Entry
deriving DecidableEq, Repr

/-- The entry arrays of one cache, set by set (R23). -/
abbrev CacheArray := List CacheSet

/-- FAULT.code (60_exceptions.md R181). Codes 7 to 15 are never written and have no term
(93_implementation_defined.md I-RSVDCODE; log entry 12). -/
inductive FaultCode where
  | none
  | unsupportedLevel
  | writeMiss
  | allocFailure
  | badConfig
  | illegalRequest
  | backingIo
deriving DecidableEq, Repr

/-- The fault status register FAULT (R35). -/
structure FaultReg where
  valid : Bool
  code  : FaultCode
  cache : Option Nat
  level : Option Nat
  addr  : Option Addr
deriving DecidableEq, Repr

/-- FAULT at reset (R35): valid 0, code 0, the rest NONE. -/
def FaultReg.clear : FaultReg :=
  { valid := false, code := .none, cache := none, level := none, addr := none }

/-- What `raise Fault(code, (cache, level, addr))` writes into FAULT (60_exceptions.md R180). -/
def FaultReg.raised (code : FaultCode) (cache level : Option Nat) (addr : Option Addr) : FaultReg :=
  { valid := true, code := code, cache := cache, level := level, addr := addr }

/-- One call of a device's byte write handler, an entry of DEVLOG (R34): the device by its position in
DEVICES, the address as the request gave it, the byte. -/
structure DevEvent where
  device : Nat
  addr   : Addr
  byte   : Byte
deriving DecidableEq, Repr

/-- A request (R70): WORD, ADDR, WDATA, LINE_IN. -/
structure Request where
  word   : ReqWord
  addr   : Addr
  wdata  : Dword
  lineIn : List Byte
deriving DecidableEq, Repr

/-- STATUS of a response (R70). -/
inductive Status where
  | ok
  | fault
deriving DecidableEq, Repr

/-- A response (R70): RDATA and LINE_OUT are absent where the spec gives them no meaning (log entry 16). -/
structure Response where
  status  : Status
  rdata   : Option Dword
  lineOut : Option (List Byte)
deriving DecidableEq, Repr

end Sys2Proof.Machine
end

