-- ==== Sys2Proof/Machine/Flags.lean ====
section
/-! DEFINITION. The block has no status flags and no condition codes (spec/10_state.md R37): no request
computes one. What status it keeps is the state of each line and FAULT; this file gives their
encodings (R25, spec/60_exceptions.md R181) and the test "valid" (spec/00_scope.md R14). -/

namespace Sys2Proof.Machine

/-- The 2-bit encoding of a line's state (R25, D35). -/
def Coh.bits : Coh → BitVec 2
  | .invalid => 0b00
  | .shared => 0b01
  | .modified => 0b10

/-- Valid: "state Shared or Modified" (R14). -/
def Coh.isValid : Coh → Bool
  | .invalid => false
  | .shared => true
  | .modified => true

/-- The 4-bit encoding of FAULT.code (R181). -/
def FaultCode.bits : FaultCode → BitVec 4
  | .none => 0
  | .unsupportedLevel => 1
  | .writeMiss => 2
  | .allocFailure => 3
  | .badConfig => 4
  | .illegalRequest => 5
  | .backingIo => 6

end Sys2Proof.Machine
end

