-- ==== Sys2Proof/Machine/Lru.lean ====
section
/-! DEFINITION. Operations on one set: lookup by tag, the recency list held as links, victim selection, and
the writes a fill, an overwrite and a state change make to one entry (spec/40_geometry.md R107,
spec/41_lru.md R110 to R119). The model holds the links (R28, R29); ORDER is read off them (R30). -/

namespace Sys2Proof.Machine

/-- Does this entry hold the line of tag t (R107)? An Invalid entry never matches. -/
def Entry.holds (t : Addr) (e : Entry) : Bool := e.state.isValid && decide (e.tag = t)

/-- The way of the set that holds tag t: the scan of R107, lowest way first. -/
def CacheSet.find (cs : CacheSet) (t : Addr) : Option Nat := cs.ways.findIdx? (Entry.holds t)

/-- The ways met from way w by following `next` until `stop` recurs; the first argument bounds the walk. -/
def CacheSet.follow (cs : CacheSet) (stop : Nat) : Nat → Nat → List Nat
  | 0, _ => []
  | n + 1, w =>
    w :: match (cs.ways[w]?).bind (fun e => e.next) with
      | none => []
      | some x => if x = stop then [] else cs.follow stop n x

/-- ORDER of the set (R30): read from HEAD following `next` until the head recurs. -/
def CacheSet.order (cs : CacheSet) : List Nat :=
  match cs.head with
  | none => []
  | some h => cs.follow h cs.ways.length h

/-- Change one entry of the set in place (R23: an entry never migrates). -/
def CacheSet.modifyWay (cs : CacheSet) (w : Nat) (f : Entry → Entry) : CacheSet :=
  { cs with ways := cs.ways.modify w f }

/-- `E[w].prev <- p`. -/
def CacheSet.setPrev (cs : CacheSet) (w p : Nat) : CacheSet :=
  cs.modifyWay w (fun e => { e with prev := some p })

/-- `E[w].next <- n`. -/
def CacheSet.setNext (cs : CacheSet) (w n : Nat) : CacheSet :=
  cs.modifyWay w (fun e => { e with next := some n })

/-- The first half of touch (R111): a linked way is unlinked from its neighbours, an unlinked one is left
as it is. `none` where the links are no ring of the set (log entry 9). -/
def CacheSet.unlink (cs : CacheSet) (e : Entry) : Option CacheSet :=
  match e.next with
  | none => some cs
  | some n =>
    match e.prev with
    | none => none
    | some p =>
      if p < cs.ways.length ∧ n < cs.ways.length then some ((cs.setNext p n).setPrev n p) else none

/-- The way before the head: the least recently used (R111, R115). -/
def CacheSet.tail (cs : CacheSet) (h : Nat) : Option Nat :=
  match (cs.ways[h]?).bind (fun e => e.prev) with
  | none => none
  | some t => if t < cs.ways.length then some t else none

/-- The second half of touch (R111): splice w directly before the head h, after the tail t, and make it
the head. -/
def CacheSet.splice (cs : CacheSet) (w t h : Nat) : CacheSet :=
  { ((((cs.setPrev w t).setNext w h).setNext t w).setPrev h w) with head := some w }

/-- `touch` on the links (R111, R112): move way w to the most-recently-used position. `none` where the
links are no ring of the set, a state no run from reset reaches (log entry 9). -/
def CacheSet.touch (cs : CacheSet) (w : Nat) : Option CacheSet :=
  match cs.ways[w]? with
  | none => none
  | some e =>
    match cs.head with
    | none => some { ((cs.setPrev w w).setNext w w) with head := some w }
    | some h =>
      if h = w then some cs
      else
        match cs.unlink e with
        | none => none
        | some cs1 =>
          match cs1.tail h with
          | none => none
          | some t => some (cs1.splice w t h)

/-- The lowest-numbered Invalid way (R114). -/
def CacheSet.firstInvalid (cs : CacheSet) : Option Nat :=
  cs.ways.findIdx? (fun e => decide (e.state = .invalid))

/-- `select_victim` (R114, R115). `none` is the `stuck` of R117 and I-LRU: every way is valid and some
way is not in ORDER. -/
def CacheSet.victim (cs : CacheSet) : Option Nat :=
  match cs.firstInvalid with
  | some w => some w
  | none =>
    if (List.range cs.ways.length).all (fun w => cs.order.contains w) then cs.head.bind cs.tail
    else none

/-- The writes of a fill to its way (R126, R130): data, tag, state S. -/
def CacheSet.fill (cs : CacheSet) (w : Nat) (t : Addr) (d : List Byte) : CacheSet :=
  cs.modifyWay w (fun e => { e with state := .shared, tag := t, data := d })

/-- The writes of write_line to its way (R143): data, state M. -/
def CacheSet.overwrite (cs : CacheSet) (w : Nat) (d : List Byte) : CacheSet :=
  cs.modifyWay w (fun e => { e with state := .modified, data := d })

/-- A change of a way's state alone: the downgrade (R124) and the invalidation (R144). -/
def CacheSet.setCoh (cs : CacheSet) (w : Nat) (c : Coh) : CacheSet :=
  cs.modifyWay w (fun e => { e with state := c })

end Sys2Proof.Machine
end

