-- ==== Sys2Proof/Machine/Operands.lean ====
section
/-! DEFINITION. The operand forms of a request and the responses it gives (spec/30_encoding.md R70, R75 to R78,
spec/20_memory.md R55, R59). ADDR is used as given (R75). -/

namespace Sys2Proof.Machine

/-- Byte j of WDATA, `WDATA[8j+7:8j]` (R76). A PUT of width n uses bytes 0 to n-1 and no other. -/
def Request.putByte (r : Request) (j : Nat) : Byte := r.wdata.extractLsb' (8 * j) 8

/-- The address of byte j of an access, modulo 2^64 (R59). -/
def byteAddr (a : Addr) (j : Nat) : Addr := a + BitVec.ofNat 64 j

/-- The little-endian composition of bytes, low byte first, zero-extended to 64 bits (R55, R77, R156). -/
def littleEndian : List Byte → Dword
  | [] => 0
  | b :: bs => b.setWidth 64 ||| (littleEndian bs <<< 8)

/-- The response of a GET (R70, R77). -/
def Response.read (v : Dword) : Response := { status := .ok, rdata := some v, lineOut := none }

/-- The response of an RDLINE (R70, R78). -/
def Response.line (d : List Byte) : Response := { status := .ok, rdata := none, lineOut := some d }

/-- The response of a PUT and of a WRLINE (R70). -/
def Response.done : Response := { status := .ok, rdata := none, lineOut := none }

/-- The response of a request that raised a fault: "no other response data" (R180). -/
def Response.faulted : Response := { status := .fault, rdata := none, lineOut := none }

end Sys2Proof.Machine
end

