-- ==== Sys2Proof/Machine/Geometry.lean ====
section
/-! DEFINITION. Geometry and address decomposition (spec/40_geometry.md R90 to R98). Each function takes the
common line size L and, where it depends on it, the cache's record. -/

namespace Sys2Proof

/-- OFF_BITS (R90). -/
def offBits (lineSize : Nat) : Nat := Nat.log2 lineSize

/-- SETS[k] (R91). -/
def CacheCfg.setCount (lineSize : Nat) (c : CacheCfg) : Nat := c.cap / lineSize / c.ways

/-- IDX_BITS[k] (R92). -/
def CacheCfg.idxBits (lineSize : Nat) (c : CacheCfg) : Nat := Nat.log2 (c.setCount lineSize)

/-- TAG_BITS[k] (R93). -/
def CacheCfg.tagBits (lineSize : Nat) (c : CacheCfg) : Nat :=
  64 - offBits lineSize - c.idxBits lineSize

/-- `tag(k, a)` (R94). -/
def CacheCfg.tag (lineSize : Nat) (c : CacheCfg) (a : Addr) : Addr :=
  a >>> (offBits lineSize + c.idxBits lineSize)

/-- `index(k, a)` (R95). -/
def CacheCfg.index (lineSize : Nat) (c : CacheCfg) (a : Addr) : Nat :=
  (a >>> offBits lineSize).toNat % c.setCount lineSize

/-- `offset(a)` (R96). -/
def offset (lineSize : Nat) (a : Addr) : Nat := a.toNat % lineSize

/-- `line_base(a)` (R97). -/
def lineBase (lineSize : Nat) (a : Addr) : Addr := a - BitVec.ofNat 64 (offset lineSize a)

/-- `address_of(k, t, s)`, modulo 2^64 (R98). -/
def CacheCfg.addressOf (lineSize : Nat) (c : CacheCfg) (t : Addr) (i : Nat) : Addr :=
  (t <<< (offBits lineSize + c.idxBits lineSize)) ||| (BitVec.ofNat 64 i <<< offBits lineSize)

end Sys2Proof
end

