-- ==== Sys2Proof/Machine/Construct.lean ====
section
/-! DEFINITION. Construction: the checks in their order and the arrays they allocate
(spec/40_geometry.md R100 to R106, spec/60_exceptions.md R183, R185). -/

namespace Sys2Proof.Machine

/-- Is n a power of two (R90, R102)? -/
def isPowerOfTwo (n : Nat) : Bool := decide (n ≠ 0) && decide (2 ^ Nat.log2 n = n)

/-- R102: L and SETS[k] powers of two, WAYS[k] ≥ 1, CAP[k] a positive multiple of L × WAYS[k]. -/
def geometryLegal (p : Params) (c : CacheCfg) : Bool :=
  isPowerOfTwo p.lineSize && decide (1 ≤ c.ways) && decide (c.cap % (p.lineSize * c.ways) = 0) &&
    decide (p.lineSize * c.ways ≤ c.cap) && isPowerOfTwo (c.setCount p.lineSize)

/-- R101: a level-1 cache has a level-2 cache as its next level, a level-2 cache is terminal. -/
def topologyLegal (p : Params) (c : CacheCfg) : Bool :=
  match c.next with
  | .terminal => decide (c.level = 2)
  | .nextLevel j =>
    decide (c.level = 1) &&
      match p.caches[j]? with
      | none => false
      | some d => decide (d.level = 2)

/-- The checks of one cache in the order of R100: level, geometry, topology, allocation. -/
def cacheFault (p : Params) (k : Nat) (c : CacheCfg) : Option FaultReg :=
  if c.level ≠ 1 ∧ c.level ≠ 2 then some (.raised .unsupportedLevel (some k) (some c.level) none)
  else if geometryLegal p c = false then some (.raised .badConfig (some k) (some c.level) none)
  else if topologyLegal p c = false then some (.raised .badConfig (some k) (some c.level) none)
  else if p.allocFails then some (.raised .allocFailure (some k) (some c.level) none)
  else none

/-- R103: S is a multiple of L and at least L. -/
def storeLegal (p : Params) : Bool :=
  decide (p.lineSize ≤ p.storeSize) && decide (p.storeSize % p.lineSize = 0)

/-- Do two device ranges share an address (R104)? -/
def rangesOverlap (d e : DeviceRange) : Bool :=
  decide (d.start < e.stop) && decide (e.start < d.stop)

/-- R104, in registration order: the first range that is empty or overlaps an earlier one; the fault
records its start (log entry 13). -/
def deviceFault (earlier : List DeviceRange) : List DeviceRange → Option FaultReg
  | [] => none
  | d :: rest =>
    if ¬ d.start < d.stop then some (.raised .badConfig none none (some d.start))
    else if earlier.any (fun e => rangesOverlap e d) then
      some (.raised .badConfig none none (some d.start))
    else deviceFault (earlier ++ [d]) rest

/-- The checks that follow the caches (R100): the store size, then the device ranges. -/
def tailFault (p : Params) : Option FaultReg :=
  if storeLegal p = false then some (.raised .badConfig none none none)
  else deviceFault [] p.devices

/-- An entry at reset (R25 to R28, R106). -/
def resetEntry (lineSize : Nat) : Entry :=
  { state := .invalid, tag := 0, data := List.replicate lineSize 0, prev := none, next := none }

/-- A set at reset (R29, R106). -/
def resetSet (lineSize : Nat) (c : CacheCfg) : CacheSet :=
  { head := none, ways := List.replicate c.ways (resetEntry lineSize) }

/-- The arrays of a cache at reset (R23, R106). -/
def resetArray (lineSize : Nat) (c : CacheCfg) : CacheArray :=
  List.replicate (c.setCount lineSize) (resetSet lineSize c)

/-- What construction leaves: the arrays allocated, REG, and FAULT. -/
structure Built where
  arrays : List CacheArray
  reg    : List Nat
  fault  : FaultReg
deriving DecidableEq, Repr

/-- The loop of R100 from cache id k on: it stops at the first check that fails; the caches before it stay
allocated and registered (log entry 23). -/
def buildFrom (p : Params) (k : Nat) : List CacheCfg → Built
  | [] => { arrays := [], reg := [], fault := (tailFault p).getD .clear }
  | c :: cs =>
    match cacheFault p k c with
    | some f => { arrays := [], reg := [], fault := f }
    | none =>
      { arrays := resetArray p.lineSize c :: (buildFrom p (k + 1) cs).arrays
        reg := k :: (buildFrom p (k + 1) cs).reg
        fault := (buildFrom p (k + 1) cs).fault }

/-- `construct(params)` (R100). -/
def build (p : Params) : Built := buildFrom p 0 p.caches

end Sys2Proof.Machine
end

