-- ==== Sys2Proof/Machine/Memory.lean ====
section
/-! DEFINITION. The contents of the backing store MEM (spec/10_state.md R32) as a list of (index, byte) pairs
in one canonical form: indices strictly rising, no byte 0. An unlisted index holds 0 (log entry 6);
every MEM0 has exactly one such list. -/

namespace Sys2Proof.Machine

/-- What an index that is not listed holds (log entry 6). -/
def Memory.unlisted : Byte := 0

/-- The byte at an index of MEM. -/
def Memory.read : List Host.Cell → Nat → Byte
  | [], _ => Memory.unlisted
  | (y, c) :: m, x => if y = x then c else Memory.read m x

/-- Put one byte, keeping the canonical form: writing the unlisted byte removes the entry. -/
def Memory.write : List Host.Cell → Nat → Byte → List Host.Cell
  | [], x, b => if b = Memory.unlisted then [] else [(x, b)]
  | (y, c) :: m, x, b =>
    if x < y then (if b = Memory.unlisted then (y, c) :: m else (x, b) :: (y, c) :: m)
    else if x = y then (if b = Memory.unlisted then m else (x, b) :: m)
    else (y, c) :: Memory.write m x b

/-- Put bytes at consecutive indices from x up. -/
def Memory.writeBytes (m : List Host.Cell) (x : Nat) : List Byte → List Host.Cell
  | [] => m
  | b :: bs => Memory.writeBytes (Memory.write m x b) (x + 1) bs

/-- The bytes at n consecutive indices from x up. -/
def Memory.readBytes (m : List Host.Cell) (x : Nat) : Nat → List Byte
  | 0 => []
  | n + 1 => Memory.read m x :: Memory.readBytes m (x + 1) n

/-- MEM filled from a launch input MEM0 (R202): the bytes at indices below S, in list order. -/
def Memory.load (storeSize : Nat) : List Host.Cell → List Host.Cell
  | [] => []
  | (x, b) :: rest =>
    if x < storeSize then Memory.write (Memory.load storeSize rest) x b
    else Memory.load storeSize rest

/-- The canonical form of a store of S bytes. -/
def Memory.wf (storeSize : Nat) (m : List Host.Cell) : Bool :=
  decide (m.Pairwise (fun x y => x.1 < y.1)) &&
    m.all (fun c => decide (c.1 < storeSize) && decide (c.2 ≠ Memory.unlisted))

end Sys2Proof.Machine
end

