-- ==== Sys2Proof/Machine/State.lean ====
section
/-! DEFINITION. The state of the block, the reasons a step can stop, and the state after construction
(spec/10_state.md, spec/70_reset_and_hazards.md R200, R201). -/

namespace Sys2Proof.Machine

/-- Everything the spec gives the block, with the issuer's two ends of the request interface. -/
structure State where
  /-- The configuration: R20 to R22, R33, R7. No request writes it (R21). -/
  params    : Params
  /-- The entry arrays and head registers of every cache, by cache id (R23 to R29). -/
  arrays    : List CacheArray
  /-- The Cache Registry REG (R31). -/
  reg       : List Nat
  /-- The backing store MEM (R32), in canonical form (log entry 6). -/
  mem       : List Host.Cell
  /-- The device event log DEVLOG (R34). -/
  devlog    : List DevEvent
  /-- The fault status register FAULT (R35). -/
  fault     : FaultReg
  /-- The requests the issuer has sent and the block has not yet taken, in issue order (R39, R70; log entry 1). -/
  queue     : List Request
  /-- The request in progress, or the last one taken (R13, R70; log entry 7). -/
  req       : Request
  /-- The responses given, in order (R70, R46; log entry 1). -/
  responses : List Response
  /-- The model's own: how many free draws of R53 have been made (log entry 5). -/
  draws     : Nat
deriving DecidableEq, Repr

/-- Why the model stops with no successor state (`stuck` of 93_implementation_defined.md). No state that a run
from reset reaches raises any of these. Each is safe: the model stops where the spec gives no behaviour. -/
inductive Fault where
  /-- Raised by select_victim in a full set with a way outside ORDER (R117, I-LRU). Safe. -/
  | noVictim
  /-- Raised by touch when the links of the set are no ring (R111 gives no meaning; log entry 9). Safe. -/
  | brokenRing
  /-- Raised by read_line and the walk of R151 when next-level references do not end at a terminal cache within
  two levels, which R101 excludes (log entry 17). Safe. -/
  | nextLevelLoop
  /-- Raised by any operation that names a cache, set, way or byte which construction would have allocated and
  the state does not hold (log entry 17). Safe. -/
  | badShape
deriving DecidableEq, Repr

/-- Why the block does not take a request. -/
inductive Refusal where
  /-- An instruction without a meaning yet: raised by no arm of this model. Safe. -/
  | notModelled (mnemonic : String)
  /-- Raised by step: a request sent to a block in the fault state gets no response and changes no state
  (R180, R183, I-FAULTED). Safe. -/
  | blockFaulted
  /-- Raised by WRLINE when LINE_IN is not L bytes: no such request exists (R70; log entry 8). Safe. -/
  | malformedLineIn
deriving DecidableEq, Repr

/-- The request register before any request was taken (DESIGN CHOICE, log entry 7). -/
def Request.zero : Request := { word := 0, addr := 0, wdata := 0, lineIn := [] }

/-- The block constructed from its parameters with the launch input MEM0 (R100, R200 to R202). -/
def State.construct (p : Params) (mem0 : List Host.Cell) : State where
  params    := p
  arrays    := (build p).arrays
  reg       := (build p).reg
  mem       := Memory.load p.storeSize mem0
  devlog    := []
  fault     := (build p).fault
  queue     := []
  req       := Request.zero
  responses := []
  draws     := 0

/-- The machine after reset: construction (R200) of the test configuration TC (R9) with MEM0 all zero
(DESIGN CHOICE, log entries 2 and 6). -/
def State.reset : State := State.construct Params.tc []

end Sys2Proof.Machine
end

