-- ==== Sys2Proof/Machine/Ops.lean ====
section
/-! DEFINITION. The named operations over the state: the outcome of an operation, taking a request, raising a
fault, the accessors of the entry arrays, lookup, MemRead and MemWrite, write_back, the device dispatcher
(spec/20_memory.md R51, R52; spec/40_geometry.md R107; spec/44_write_back.md; spec/45_accessors.md R160;
spec/60_exceptions.md R180). -/

namespace Sys2Proof.Machine

/-- How an internal operation ends: with a result, with a raised fault that ends the request (R180), or with
no successor (93_implementation_defined.md `stuck`). -/
inductive Res (α : Type) where
  | ok (v : α) (s : State)
  | raised (s : State)
  | stuck (f : Fault)

/-- Run a second operation on the first one's result. -/
def Res.bind {α β : Type} (r : Res α) (f : α → State → Res β) : Res β :=
  match r with
  | .ok v s => f v s
  | .raised s => .raised s
  | .stuck e => .stuck e

/-! ### Faults and responses -/

/-- `raise Fault(code, (cache, level, addr))` (R180): FAULT is written; the caller ends the request. There is no
return from it (R187): no operation clears FAULT, only construction does. -/
def State.raiseFault (s : State) (code : FaultCode) (cache level : Option Nat) (addr : Option Addr) : State :=
  { s with fault := FaultReg.raised code cache level addr }

/-- Give a response (R70). -/
def State.respond (s : State) (r : Response) : State := { s with responses := s.responses ++ [r] }

/-- The end of a request: its response, or STATUS = FAULT with no other response data (R180). -/
def Res.finish (r : Res Response) : Host.Outcome State Fault Refusal :=
  match r with
  | .ok v s => .next (s.respond v)
  | .raised s => .next (s.respond Response.faulted)
  | .stuck e => .fault e

/-- The block takes the oldest request sent (R39, R70). -/
def State.accept (s : State) (r : Request) (rest : List Request) : State :=
  { s with req := r, queue := rest }

/-- LEVEL[k] if k names a configured cache, else NONE (R79, R181). -/
def State.levelOf (s : State) (k : Nat) : Option Nat := (s.params.caches[k]?).map (fun c => c.level)

/-- The request in progress is a reserved word: ILLEGAL_REQUEST before any other change (R79, R184, R186). -/
def State.illegalRequest (s : State) : State :=
  let cid := (cidField s.req.word).toNat
  let named : Option Nat := if cid < s.params.nCaches then some cid else none
  (s.raiseFault .illegalRequest named (named.bind s.levelOf) (some s.req.addr)).respond Response.faulted

/-! ### The entry arrays -/

/-- Set i of cache k. -/
def State.getSet (s : State) (k i : Nat) : Option CacheSet := (s.arrays[k]?).bind (fun x => x[i]?)

/-- Replace set i of cache k. -/
def State.putSet (s : State) (k i : Nat) (cs : CacheSet) : State :=
  { s with arrays := s.arrays.modify k (fun x => x.set i cs) }

/-- Entry E[k][i][w]. -/
def State.entry (s : State) (k i w : Nat) : Option Entry := (s.getSet k i).bind (fun cs => cs.ways[w]?)

/-- The record of cache k and the set that address a indexes in it (R95). -/
def State.locate (s : State) (k : Nat) (a : Addr) : Option (CacheCfg × CacheSet) :=
  match s.params.caches[k]? with
  | none => none
  | some c =>
    match s.getSet k (c.index s.params.lineSize a) with
    | none => none
    | some cs => some (c, cs)

/-- `lookup(k, a)` (R107): the way of cache k that holds the line of a; `none` is MISS. -/
def State.lookup (s : State) (k : Nat) (a : Addr) : Option Nat :=
  match s.locate k a with
  | none => none
  | some (c, cs) => cs.find (c.tag s.params.lineSize a)

/-- The entry of cache k that holds the line of a. -/
def State.lineEntry (s : State) (k : Nat) (a : Addr) : Option Entry :=
  match s.locate k a with
  | none => none
  | some (c, cs) => (cs.find (c.tag s.params.lineSize a)).bind (fun w => cs.ways[w]?)

/-! ### The backing store -/

/-- The n free values drawn from number d on (R53). -/
def freeBytes (d : Nat) : Nat → List Byte
  | 0 => []
  | n + 1 => Config.unreadByte d :: freeBytes (d + 1) n

/-- How many of n bytes from index `base` lie in a store of S bytes (R51, R52). -/
def fitting (storeSize base n : Nat) : Nat := min n (storeSize - base)

/-- `MemRead(addr, n)` (R51, R53): the address wraps modulo S, the request is truncated at the end of the
store, and each byte past it is a free draw. -/
def memRead (addr : Addr) (n : Nat) (s : State) : List Byte × State :=
  let base := addr.toNat % s.params.storeSize
  let k := fitting s.params.storeSize base n
  (Memory.readBytes s.mem base k ++ freeBytes s.draws (n - k), { s with draws := s.draws + (n - k) })

/-- `MemWrite(addr, n, bytes)` (R52), n the number of bytes given. -/
def memWrite (addr : Addr) (bytes : List Byte) (s : State) : State :=
  let base := addr.toNat % s.params.storeSize
  { s with mem := Memory.writeBytes s.mem base (bytes.take (fitting s.params.storeSize base bytes.length)) }

/-- The walk of R151: descend next-level references from cache k to the cache that owns the backing store. -/
def storeOwner (p : Params) : Nat → Nat → Option Nat
  | 0, _ => none
  | n + 1, k =>
    match p.caches[k]? with
    | none => none
    | some c =>
      match c.next with
      | .terminal => some k
      | .nextLevel j => storeOwner p n j

/-- The number of cache levels (R101): the bound of the walk of R151 and of the recursion of R128. -/
def levels : Nat := 2

/-- `write_back(k, i, w)` (R150, R151): entry (i, w) of cache k is copied to the backing store at the address
its tag and set give; the entry itself is not changed (R154). -/
def writeBack (k i w : Nat) (s : State) : Res Unit :=
  match s.params.caches[k]?, s.entry k i w with
  | some c, some e =>
    match storeOwner s.params levels k with
    | none => .stuck .nextLevelLoop
    | some _ => .ok () (memWrite (c.addressOf s.params.lineSize e.tag i) e.data s)
  | _, _ => .stuck .badShape

/-! ### The device dispatcher -/

/-- Does the range hold the address (R160: start ≤ a < end)? -/
def rangeContains (a : Addr) (d : DeviceRange) : Bool := decide (d.start ≤ a) && decide (a < d.stop)

/-- `DevFind(a)` (R160), the device by its position in DEVICES. -/
def devFind (p : Params) (a : Addr) : Option Nat := p.devices.findIdx? (rangeContains a)

/-- The device whose byte write handler takes a byte written to a (R157, R171). -/
def writeHandler (p : Params) (a : Addr) : Option Nat :=
  match devFind p a with
  | none => none
  | some d =>
    match p.devices[d]? with
    | none => none
    | some r => if r.hasWriteHandler then some d else none

/-- `DevWrite(dev, a, b)` (R160): one handler call, recorded in DEVLOG (R34). What the device does with the
byte is outside the block (log entry 19). -/
def devWrite (d : Nat) (a : Addr) (b : Byte) (s : State) : State :=
  { s with devlog := s.devlog ++ [{ device := d, addr := a, byte := b }] }

end Sys2Proof.Machine
end

