-- ==== Sys2Proof/Machine/ReadPath.lean ====
section
/-! DEFINITION. The coherence read path `read_line` (spec/42_read_path.md R120 to R130). -/

namespace Sys2Proof.Machine

/-- Before way v of set i of cache k is reused: a Modified victim is written back (R125, R129, R152). -/
def evict (k i v : Nat) (s : State) : Res Unit :=
  match s.entry k i v with
  | none => .stuck .badShape
  | some e => if e.state = .modified then writeBack k i v s else .ok () s

/-- Place the line of a, with data d, in cache k as Shared: choose a victim (R114), write it back if
Modified, overwrite it and touch it (R125, R126, R129, R130). -/
def place (k : Nat) (a : Addr) (d : List Byte) (s : State) : Res (List Byte) :=
  match s.locate k a with
  | none => .stuck .badShape
  | some (c, cs) =>
    match cs.victim with
    | none => .stuck .noVictim
    | some v =>
      (evict k (c.index s.params.lineSize a) v s).bind fun _ s1 =>
        match (cs.fill v (c.tag s.params.lineSize a) d).touch v with
        | none => .stuck .brokenRing
        | some cs1 => .ok d (s1.putSet k (c.index s.params.lineSize a) cs1)

/-- Step 1 of read_line, the local hit in way w (R121): touch it and return its data. -/
def localHit (k : Nat) (a : Addr) (w : Nat) (s : State) : Res (List Byte) :=
  match s.locate k a with
  | none => .stuck .badShape
  | some (c, cs) =>
    match cs.ways[w]?, cs.touch w with
    | some e, some cs1 => .ok e.data (s.putSet k (c.index s.params.lineSize a) cs1)
    | some _, none => .stuck .brokenRing
    | none, _ => .stuck .badShape

/-- The first cache of REG other than k that holds the line of a (R122, R123). -/
def findSibling (s : State) (k : Nat) (a : Addr) : Option Nat :=
  s.reg.find? (fun j => decide (j ≠ k) && (s.lookup j a).isSome)

/-- The sibling's copy, written back and downgraded first if it is Modified (R124); the sibling is not
touched (R127). -/
def siblingCopy (j : Nat) (a : Addr) (s : State) : Res (List Byte) :=
  match s.locate j a with
  | none => .stuck .badShape
  | some (c, cs) =>
    match cs.find (c.tag s.params.lineSize a) with
    | none => .stuck .badShape
    | some w =>
      match cs.ways[w]? with
      | none => .stuck .badShape
      | some e =>
        if e.state = .modified then
          (writeBack j (c.index s.params.lineSize a) w s).bind fun _ s1 =>
            .ok e.data (s1.putSet j (c.index s.params.lineSize a) (cs.setCoh w .shared))
        else .ok e.data s

/-- `read_line(k, a)` (R120), the first argument bounding the recursion of R128: a local hit, else a sibling
hit, else the line from the next level or from the backing store. -/
def readLineN : Nat → Nat → Addr → State → Res (List Byte)
  | 0, _, _, _ => .stuck .nextLevelLoop
  | n + 1, k, a, s =>
    match s.lookup k a with
    | some w => localHit k a w s
    | none =>
      match findSibling s k a with
      | some j => (siblingCopy j a s).bind fun d s1 => place k a d s1
      | none =>
        match s.params.caches[k]? with
        | none => .stuck .badShape
        | some c =>
          match c.next with
          | .nextLevel m => (readLineN n m a s).bind fun d s1 => place k a d s1
          | .terminal =>
            match memRead (lineBase s.params.lineSize a) s.params.lineSize s with
            | (d, s1) => place k a d s1

/-- `read_line(k, a)` (R120). -/
def readLine (k : Nat) (a : Addr) (s : State) : Res (List Byte) := readLineN levels k a s

end Sys2Proof.Machine
end

