-- ==== Sys2Proof/Machine/WritePath.lean ====
section
/-! DEFINITION. The coherence write path `write_line` (spec/43_write_path.md R140 to R144). -/

namespace Sys2Proof.Machine

/-- Invalidate the copy of the line of a in cache j, if it holds one (R142, R144). -/
def invalidateCopy (j : Nat) (a : Addr) (s : State) : State :=
  match s.locate j a with
  | none => s
  | some (c, cs) =>
    match cs.find (c.tag s.params.lineSize a) with
    | none => s
    | some w => s.putSet j (c.index s.params.lineSize a) (cs.setCoh w .invalid)

/-- Step 1 of write_line (R142): every cache of the list other than k loses its copy, in list order. -/
def invalidateOthers (k : Nat) (a : Addr) : List Nat → State → State
  | [], s => s
  | j :: js, s => invalidateOthers k a js (if j = k then s else invalidateCopy j a s)

/-- `write_line(k, a, data)` (R140): WRITE_MISS before any change if the line is not valid in k (R141), else
invalidate every other copy, overwrite, mark Modified and touch (R142, R143). -/
def writeLine (k : Nat) (a : Addr) (d : List Byte) (s : State) : Res Unit :=
  match s.locate k a with
  | none => .stuck .badShape
  | some (c, cs) =>
    match cs.find (c.tag s.params.lineSize a) with
    | none => .raised (s.raiseFault .writeMiss (some k) (some c.level) (some a))
    | some w =>
      match (cs.overwrite w d).touch w with
      | none => .stuck .brokenRing
      | some cs1 => .ok () ((invalidateOthers k a s.reg s).putSet k (c.index s.params.lineSize a) cs1)

end Sys2Proof.Machine
end

