-- ==== Sys2Proof/Machine/Accessors.lean ====
section
/-! DEFINITION. The byte, halfword, word and doubleword accessors and the memory-mapped I/O write bypass
(spec/45_accessors.md R155 to R160, R170, R171). -/

namespace Sys2Proof.Machine

/-- `get_byte(k, a)` (R155). It never consults the device table (R170). -/
def getByte (k : Nat) (a : Addr) (s : State) : Res Byte :=
  (readLine k (lineBase s.params.lineSize a) s).bind fun buf s1 =>
    match buf[offset s.params.lineSize a]? with
    | none => .stuck .badShape
    | some b => .ok b s1

/-- n `get_byte` calls in increasing address order (R156, R59). -/
def getBytes (k : Nat) (a : Addr) : Nat → State → Res (List Byte)
  | 0, s => .ok [] s
  | n + 1, s =>
    (getByte k a s).bind fun b s1 => (getBytes k (a + 1) n s1).bind fun bs s2 => .ok (b :: bs) s2

/-- `get_n(k, a, n)`, zero-extended, as the response of a GET (R156, R77). -/
def getN (k : Nat) (a : Addr) (n : Nat) (s : State) : Res Response :=
  (getBytes k a n s).bind fun bs s1 => .ok (Response.read (littleEndian bs)) s1

/-- `put_byte_cached(k, a, b)` (R158): the read-before-write sequence. -/
def putByteCached (k : Nat) (a : Addr) (b : Byte) (s : State) : Res Unit :=
  (readLine k (lineBase s.params.lineSize a) s).bind fun buf s1 =>
    writeLine k (lineBase s.params.lineSize a) (buf.set (offset s.params.lineSize a) b) s1

/-- `put_byte(k, a, b)` (R157, R171): to the write handler of the device range that holds a, if there is one,
else through the cache. -/
def putByte (k : Nat) (a : Addr) (b : Byte) (s : State) : Res Unit :=
  match writeHandler s.params a with
  | some d => .ok () (devWrite d a b s)
  | none => putByteCached k a b s

/-- `put_byte` of each byte in turn, in increasing address order (R159, R59). -/
def putBytes (k : Nat) (a : Addr) : List Byte → State → Res Unit
  | [], s => .ok () s
  | b :: bs, s => (putByte k a b s).bind fun _ s1 => putBytes k (a + 1) bs s1

/-- The n bytes a PUT of width n stores: bytes 0 to n-1 of WDATA (R76). -/
def Request.putData (r : Request) (n : Nat) : List Byte := (List.range n).map r.putByte

/-- `put_n(k, a, n, WDATA[8n-1:0])` as the meaning of a PUT (R159, R76). -/
def putN (k : Nat) (a : Addr) (n : Nat) (s : State) : Res Response :=
  (putBytes k a (s.req.putData n) s).bind fun _ s1 => .ok Response.done s1

end Sys2Proof.Machine
end

