-- ==== Sys2Proof/Machine/Get.lean ====
section
/-! DEFINITION. The meanings of GET.B, GET.H, GET.W and GET.D (spec/45_accessors.md R161 to R164): the request's
cache is its CID, its address the ADDR of the request in progress. -/

namespace Sys2Proof.Machine

/-- GET.B (R161). -/
def execGetB (cid : Cid) (s : State) : Host.Outcome State Fault Refusal :=
  (getN cid.toNat s.req.addr 1 s).finish

/-- GET.H (R162). -/
def execGetH (cid : Cid) (s : State) : Host.Outcome State Fault Refusal :=
  (getN cid.toNat s.req.addr 2 s).finish

/-- GET.W (R163). -/
def execGetW (cid : Cid) (s : State) : Host.Outcome State Fault Refusal :=
  (getN cid.toNat s.req.addr 4 s).finish

/-- GET.D (R164). -/
def execGetD (cid : Cid) (s : State) : Host.Outcome State Fault Refusal :=
  (getN cid.toNat s.req.addr 8 s).finish

end Sys2Proof.Machine
end

