-- ==== Sys2Proof/Machine/Line.lean ====
section
/-! DEFINITION. The meanings of the line requests RDLINE (spec/42_read_path.md R134) and WRLINE
(spec/43_write_path.md R145). Neither consults the device table. -/

namespace Sys2Proof.Machine

/-- RDLINE (R134): LINE_OUT is `read_line(k, ADDR)`. -/
def execRdline (cid : Cid) (s : State) : Host.Outcome State Fault Refusal :=
  ((readLine cid.toNat s.req.addr s).bind fun d s1 => .ok (Response.line d) s1).finish

/-- WRLINE (R145): `write_line(k, ADDR, LINE_IN)`. A LINE_IN that is not L bytes is no request (R70; log
entry 8). -/
def execWrline (cid : Cid) (s : State) : Host.Outcome State Fault Refusal :=
  if s.req.lineIn.length = s.params.lineSize then
    ((writeLine cid.toNat s.req.addr s.req.lineIn s).bind fun _ s1 => .ok Response.done s1).finish
  else .refused .malformedLineIn

end Sys2Proof.Machine
end

