-- ==== Sys2Proof/Machine/Put.lean ====
section
/-! DEFINITION. The meanings of PUT.B, PUT.H, PUT.W and PUT.D (spec/45_accessors.md R165 to R168): the value is
the low bytes of WDATA (spec/30_encoding.md R76). -/

namespace Sys2Proof.Machine

/-- PUT.B (R165). -/
def execPutB (cid : Cid) (s : State) : Host.Outcome State Fault Refusal :=
  (putN cid.toNat s.req.addr 1 s).finish

/-- PUT.H (R166). -/
def execPutH (cid : Cid) (s : State) : Host.Outcome State Fault Refusal :=
  (putN cid.toNat s.req.addr 2 s).finish

/-- PUT.W (R167). -/
def execPutW (cid : Cid) (s : State) : Host.Outcome State Fault Refusal :=
  (putN cid.toNat s.req.addr 4 s).finish

/-- PUT.D (R168). -/
def execPutD (cid : Cid) (s : State) : Host.Outcome State Fault Refusal :=
  (putN cid.toNat s.req.addr 8 s).finish

end Sys2Proof.Machine
end

