-- ==== Sys2Proof/Machine/Dispatch.lean ====
section
/-! DEFINITION. One arm per request of spec/opcode_table.json. -/

namespace Sys2Proof.Machine

def exec (i : Instr) (s : State) : Host.Outcome State Fault Refusal :=
  match i with
  | .getB cid => Sys2Proof.Machine.execGetB cid s
  | .getH cid => Sys2Proof.Machine.execGetH cid s
  | .getW cid => Sys2Proof.Machine.execGetW cid s
  | .getD cid => Sys2Proof.Machine.execGetD cid s
  | .putB cid => Sys2Proof.Machine.execPutB cid s
  | .putH cid => Sys2Proof.Machine.execPutH cid s
  | .putW cid => Sys2Proof.Machine.execPutW cid s
  | .putD cid => Sys2Proof.Machine.execPutD cid s
  | .rdline cid => Sys2Proof.Machine.execRdline cid s
  | .wrline cid => Sys2Proof.Machine.execWrline cid s

end Sys2Proof.Machine
end

