-- ==== Sys2Proof/Machine/Fetch.lean ====
section
/-! DEFINITION. Taking the next request (spec/30_encoding.md R70, R79; spec/60_exceptions.md R180, R183): what
stands between a request the issuer sent and the instruction it selects. -/

namespace Sys2Proof.Machine

/-- What the block finds when it looks for its next request. -/
inductive Fetched where
  /-- No request was sent: the block is idle (R195). -/
  | idle
  /-- The block is in the fault state and takes no request (R180, R183). -/
  | refused
  /-- A reserved word was taken (R79); the state is the one with the request in progress. -/
  | illegal (s : State)
  /-- A request was taken and decodes to an instruction. -/
  | request (i : Instr) (s : State)

/-- Take and decode the oldest request. -/
def fetch (s : State) : Fetched :=
  match s.queue with
  | [] => .idle
  | r :: rest =>
    if s.fault.valid then .refused
    else
      match decode s.params.nCaches r.word with
      | .error _ => .illegal (s.accept r rest)
      | .ok i => .request i (s.accept r rest)

/-- The request with bits w of nbits and every other operand 0, LINE_IN being L bytes of 0. -/
def Request.ofBits (lineSize nbits w : Nat) : Request :=
  { word := BitVec.ofNat 32 (w % 2 ^ nbits), addr := 0, wdata := 0, lineIn := List.replicate lineSize 0 }

end Sys2Proof.Machine
end

