-- ==== Sys2Proof/Machine/Step.lean ====
section
/-! DEFINITION. One step: one request, performed to completion (spec/00_scope.md R13). -/

namespace Sys2Proof.Machine

/-- One step of the block. Idle, it holds its state (R195; log entry 3); in the fault state it refuses the
request (R180, R183; log entry 4); a reserved word raises ILLEGAL_REQUEST (R79); every other request is
performed. -/
def step (s : State) : Host.Outcome State Fault Refusal :=
  match fetch s with
  | .idle => .next s
  | .refused => .refused .blockFaulted
  | .illegal s1 => .next s1.illegalRequest
  | .request i s1 => exec i s1

/-- The state with one more request at the front of the queue, the one `step` takes next (log entry 1). -/
def State.withFetchWord (s : State) (nbits w : Nat) : State :=
  { s with queue := Request.ofBits s.params.lineSize nbits w :: s.queue }

end Sys2Proof.Machine
end

