-- ==== Sys2Proof/Machine/Issuer.lean ====
section
/-! DEFINITION. How the issuer uses the requests: the mapping of fetches, loads and stores to caches
(spec/45_accessors.md R169) and the pseudo-requests (spec/30_encoding.md R83). The issuer itself is outside the
block (spec/00_scope.md R4, R6); these are the requests it sends. -/

namespace Sys2Proof.Machine

/-- The request of an instruction with its operands (R70); operands a request does not use are ignored. -/
def Request.make (i : Instr) (addr : Addr) (wdata : Dword) (lineIn : List Byte) : Request :=
  { word := encode i, addr := addr, wdata := wdata, lineIn := lineIn }

/-- Cache id of L1I in the default topology (R8). -/
def l1iCid : Cid := 0

/-- Cache id of L1D in the default topology (R8). -/
def l1dCid : Cid := 1

/-- Cache id of L2 in the default topology (R8). -/
def l2Cid : Cid := 2

/-- `ifetch.h <addr>` (R83). -/
def ifetchH (a : Addr) : Request := Request.make (.getH l1iCid) a 0 []

/-- `ifetch.w <addr>` (R83). -/
def ifetchW (a : Addr) : Request := Request.make (.getW l1iCid) a 0 []

/-- `load.b <addr>` (R83). -/
def loadB (a : Addr) : Request := Request.make (.getB l1dCid) a 0 []

/-- `load.h <addr>` (R83). -/
def loadH (a : Addr) : Request := Request.make (.getH l1dCid) a 0 []

/-- `load.w <addr>` (R83). -/
def loadW (a : Addr) : Request := Request.make (.getW l1dCid) a 0 []

/-- `load.d <addr>` (R83). -/
def loadD (a : Addr) : Request := Request.make (.getD l1dCid) a 0 []

/-- `store.b <addr>, <value>` (R83). -/
def storeB (a : Addr) (v : Dword) : Request := Request.make (.putB l1dCid) a v []

/-- `store.h <addr>, <value>` (R83). -/
def storeH (a : Addr) (v : Dword) : Request := Request.make (.putH l1dCid) a v []

/-- `store.w <addr>, <value>` (R83). -/
def storeW (a : Addr) (v : Dword) : Request := Request.make (.putW l1dCid) a v []

/-- `store.d <addr>, <value>` (R83). -/
def storeD (a : Addr) (v : Dword) : Request := Request.make (.putD l1dCid) a v []

/-- FETCH_WIDTH, the issuer's parameter: 2 or 4 bytes (R169; log entry 20). -/
inductive FetchWidth where
  | two
  | four
deriving DecidableEq, Repr

/-- An instruction fetch at the issuer's width: a GET on L1I (R169). -/
def instructionFetch (w : FetchWidth) (a : Addr) : Request :=
  match w with
  | .two => ifetchH a
  | .four => ifetchW a

end Sys2Proof.Machine
end

