-- ==== Sys2Proof/Machine/Run.lean ====
section
/-! DEFINITION. How a run is judged (spec/60_exceptions.md R180; spec/93_implementation_defined.md, `stuck`): a run
that reaches the fault state has gone wrong and is never counted as ended well. -/

namespace Sys2Proof.Machine

/-- The judgement of a run by the outcome it stands at. -/
inductive Verdict where
  /-- No fault, and every request sent was performed. -/
  | well
  /-- No fault so far, and a request sent was not performed. -/
  | unfinished
  /-- The fault state, a request sent to a faulted block, or `stuck`. -/
  | wrong
deriving DecidableEq, Repr

/-- The judgement of an outcome (R180): the fault state is wrong whatever the queue holds, and so are a request
refused because of it (R183) and `stuck`. A malformed LINE_IN is refused input, not a fault (log entry 8). -/
def verdict (o : Host.Outcome State Fault Refusal) : Verdict :=
  match o with
  | .next s => if s.fault.valid then .wrong else if s.queue = [] then .well else .unfinished
  | .fault _ => .wrong
  | .refused r => if r = .blockFaulted then .wrong else .unfinished

/-- The judgement of the run of n steps from a state. A block whose construction faulted is wrong from the start
(n = 0). -/
def runVerdict (n : Nat) (s : State) : Verdict := verdict (Sys2Proof.core.run n s)

end Sys2Proof.Machine
end

