-- ==== Sys2Proof/Safety.lean ====
section
/-! DEFINITION. What a well-formed block is (spec/10_state.md R41 to R45), the coherent value of a byte (R46), the
lines a read stores, and the flat memory the block stands for (spec/20_memory.md R57, R63;
spec/70_reset_and_hazards.md R206). Claims are stated in these terms. -/

namespace Sys2Proof.Machine

/-! ### What a line is in a cache -/

/-- The state of the line of a in cache k: that of its valid copy, Invalid if there is none (R133). -/
def State.cohAt (s : State) (k : Nat) (a : Addr) : Coh :=
  match s.lineEntry k a with
  | none => .invalid
  | some e => e.state

/-- The data of the valid copy of the line of a in cache k. -/
def State.dataAt (s : State) (k : Nat) (a : Addr) : List Byte :=
  match s.lineEntry k a with
  | none => []
  | some e => e.data

/-- `VIEW(a)`, the coherent value of the byte at a (R46): from the first cache of REG that holds its line, else from
MEM. -/
def State.view (s : State) (a : Addr) : Byte :=
  match s.reg.find? (fun k => (s.lookup k a).isSome) with
  | some k => (s.dataAt k a)[offset s.params.lineSize a]?.getD 0
  | none => Memory.read s.mem (a.toNat % s.params.storeSize)

/-- The L bytes of the line of a as the block holds them: VIEW of each byte. -/
def State.lineView (s : State) (a : Addr) : List Byte :=
  (List.range s.params.lineSize).map fun j => s.view (byteAddr (lineBase s.params.lineSize a) j)

/-! ### Legal parameters -/

/-- A cache record that passes the checks of R101 and R102. -/
def cacheLegal (p : Params) (c : CacheCfg) : Prop :=
  (c.level = 1 ∨ c.level = 2) ∧ geometryLegal p c = true ∧ topologyLegal p c = true

/-- R104: device ranges are non-empty and pairwise disjoint. -/
def devicesLegal (p : Params) : Prop :=
  (∀ d ∈ p.devices, d.start < d.stop) ∧
    p.devices.Pairwise fun d e => d.stop ≤ e.start ∨ e.stop ≤ d.start

/-- Parameters that R101 to R104 allow. -/
def paramsLegal (p : Params) : Prop :=
  (∀ c ∈ p.caches, cacheLegal p c) ∧ storeLegal p = true ∧ devicesLegal p

/-! ### The invariants of a well-formed state -/

/-- The successor of way w in the circular list o. -/
def cyclicNext (o : List Nat) (w : Nat) : Option Nat :=
  if w ∈ o then o[(o.idxOf w + 1) % o.length]? else none

/-- The predecessor of way w in the circular list o. -/
def cyclicPrev (o : List Nat) (w : Nat) : Option Nat :=
  if w ∈ o then o[(o.idxOf w + (o.length - 1)) % o.length]? else none

/-- The links of the set are the circular doubly-linked list of o (R110): HEAD is its first way, no way occurs
twice, each linked way points to its neighbours, and every other way is unlinked (R113). -/
def CacheSet.isRing (cs : CacheSet) (o : List Nat) : Prop :=
  cs.head = o.head? ∧ o.Nodup ∧ (∀ w ∈ o, w < cs.ways.length) ∧
    ∀ w < cs.ways.length, ∀ e ∈ cs.ways[w]?, e.next = cyclicNext o w ∧ e.prev = cyclicPrev o w

/-- The links of the set are a ring, that of its ORDER. -/
def CacheSet.ringOk (cs : CacheSet) : Prop := cs.isRing cs.order

/-- R44: every valid way appears in ORDER. That no way appears twice is in `ringOk`. -/
def CacheSet.recencyOk (cs : CacheSet) : Prop :=
  ∀ w < cs.ways.length, ∀ e ∈ cs.ways[w]?, e.state.isValid = true → w ∈ cs.order

/-- R41: at most one valid entry of the set has a given tag. -/
def CacheSet.tagsUnique (cs : CacheSet) : Prop :=
  ∀ w < cs.ways.length, ∀ v < cs.ways.length, ∀ e ∈ cs.ways[w]?, ∀ f ∈ cs.ways[v]?,
    e.state.isValid = true → f.state.isValid = true → e.tag = f.tag → w = v

/-- The shape of one set: WAYS[k] entries (R23), each of L bytes (R27) with a tag of TAG_BITS[k] bits (R26). -/
def setShape (p : Params) (c : CacheCfg) (cs : CacheSet) : Prop :=
  cs.ways.length = c.ways ∧
    ∀ e ∈ cs.ways, e.data.length = p.lineSize ∧ e.tag.toNat < 2 ^ c.tagBits p.lineSize

/-- Every set of every cache has a property. -/
def State.everySet (s : State) (P : CacheCfg → CacheSet → Prop) : Prop :=
  ∀ k < s.params.nCaches, ∀ c ∈ s.params.caches[k]?, ∀ x ∈ s.arrays[k]?, ∀ cs ∈ x, P c cs

/-- The arrays are the ones construction allocates (R23, R106) and REG lists every cache (R31). -/
def State.shapeOk (s : State) : Prop :=
  s.reg = List.range s.params.nCaches ∧ s.arrays.length = s.params.nCaches ∧
    (∀ k < s.params.nCaches, ∀ c ∈ s.params.caches[k]?, ∀ x ∈ s.arrays[k]?,
      x.length = c.setCount s.params.lineSize) ∧
    s.everySet (setShape s.params)

/-- R42: if one cache of REG holds a line Modified, no other cache holds it at all. -/
def State.singleWriter (s : State) : Prop :=
  ∀ a : Addr, ∀ j ∈ s.reg, ∀ k ∈ s.reg, j ≠ k → s.cohAt j a = .modified → s.cohAt k a = .invalid

/-- R45: all valid copies of one line hold the same data. -/
def State.copiesAgree (s : State) : Prop :=
  ∀ a : Addr, ∀ j ∈ s.reg, ∀ k ∈ s.reg,
    s.cohAt j a ≠ .invalid → s.cohAt k a ≠ .invalid → s.dataAt j a = s.dataAt k a

/-- FAULT is clear or holds a code (R35, R36, R181). -/
def FaultReg.ok (f : FaultReg) : Prop :=
  (f.valid = false → f = FaultReg.clear) ∧ (f.valid = true → f.code ≠ .none)

/-- A well-formed block. -/
structure Inv (s : State) : Prop where
  legal        : paramsLegal s.params
  range        : s.params.inRange = true
  shape        : s.shapeOk
  rings        : s.everySet fun _ cs => cs.ringOk
  recency      : s.everySet fun _ cs => cs.recencyOk
  tags         : s.everySet fun _ cs => cs.tagsUnique
  singleWriter : s.singleWriter
  agree        : s.copiesAgree
  mem          : Memory.wf s.params.storeSize s.mem = true
  fault        : s.fault.ok

/-- The block can perform the request: it is well-formed, not in the fault state (R13), and the request names one
of its caches (R74). -/
structure Ready (s : State) (i : Instr) : Prop where
  inv     : Inv s
  noFault : s.fault.valid = false
  cache   : i.wellFormed s.params.nCaches = true

/-! ### What an access stores to MEM -/

/-- The line address at which entry (i, w) of cache k would be written back: that of R150, if it is Modified. -/
def State.dirtyLine (s : State) (k i w : Nat) : Option Addr :=
  match s.params.caches[k]?, s.entry k i w with
  | some c, some e => if e.state = .modified then some (c.addressOf s.params.lineSize e.tag i) else none
  | _, _ => none

/-- The way of cache k that a fill of the line of a reuses (R114), with its set index. -/
def State.victimSlot (s : State) (k : Nat) (a : Addr) : Option (Nat × Nat) :=
  match s.locate k a with
  | none => none
  | some (c, cs) => cs.victim.map fun v => (c.index s.params.lineSize a, v)

/-- The lines written back when the line of a is placed in cache k (R125, R129): its Modified victim. -/
def State.placeStores (s : State) (k : Nat) (a : Addr) : List Addr :=
  match s.victimSlot k a with
  | none => []
  | some (i, v) => (s.dirtyLine k i v).toList

/-- The lines written back when cache j hands out its copy of the line of a (R124): that copy, if Modified. -/
def State.siblingStores (s : State) (j : Nat) (a : Addr) : List Addr :=
  match s.params.caches[j]?, s.lookup j a with
  | some c, some w => (s.dirtyLine j (c.index s.params.lineSize a) w).toList
  | _, _ => []

/-- The lines `read_line(k, a)` writes back (R152), in order. -/
def readStoresN : Nat → Nat → Addr → State → List Addr
  | 0, _, _, _ => []
  | n + 1, k, a, s =>
    match s.lookup k a with
    | some _ => []
    | none =>
      match findSibling s k a with
      | some j => s.siblingStores j a ++ s.placeStores k a
      | none =>
        match s.params.caches[k]? with
        | none => []
        | some c =>
          match c.next with
          | .nextLevel m => readStoresN n m a s ++ s.placeStores k a
          | .terminal => s.placeStores k a

/-- The lines `read_line(k, a)` writes back. -/
def readStores (k : Nat) (a : Addr) (s : State) : List Addr := readStoresN levels k a s

/-- The lines a GET of n bytes writes back: those of each `get_byte`, in the state it starts from. -/
def getStores (k : Nat) (a : Addr) : Nat → State → List Addr
  | 0, _ => []
  | n + 1, s =>
    readStores k (lineBase s.params.lineSize a) s ++
      match getByte k a s with
      | .ok _ s1 => getStores k (a + 1) n s1
      | _ => []

/-- The lines a PUT of some bytes writes back: those of the read of each `put_byte` that goes through the cache
(R158; write_line stores nothing, R143). -/
def putStores (k : Nat) (a : Addr) : List Byte → State → List Addr
  | [], _ => []
  | b :: bs, s =>
    (match writeHandler s.params a with
      | some _ => []
      | none => readStores k (lineBase s.params.lineSize a) s) ++
      match putByte k a b s with
      | .ok _ s1 => putStores k (a + 1) bs s1
      | _ => []

/-- The width of a GET in bytes (R73). -/
def getWidth : Instr → Option Nat
  | .getB _ => some 1
  | .getH _ => some 2
  | .getW _ => some 4
  | .getD _ => some 8
  | .putB _ => none
  | .putH _ => none
  | .putW _ => none
  | .putD _ => none
  | .rdline _ => none
  | .wrline _ => none

/-- The width of a PUT in bytes (R73). -/
def putWidth : Instr → Option Nat
  | .getB _ => none
  | .getH _ => none
  | .getW _ => none
  | .getD _ => none
  | .putB _ => some 1
  | .putH _ => some 2
  | .putW _ => some 4
  | .putD _ => some 8
  | .rdline _ => none
  | .wrline _ => none

/-- Index x of MEM lies in none of the given lines (R150: a line is stored at its address modulo S). -/
def State.outside (s : State) (lines : List Addr) (x : Nat) : Prop :=
  ∀ b ∈ lines, x < b.toNat % s.params.storeSize ∨ b.toNat % s.params.storeSize + s.params.lineSize ≤ x

/-- MEM is unchanged outside the given lines. -/
def State.sameMemOutside (s t : State) (lines : List Addr) : Prop :=
  ∀ x, s.outside lines x → Memory.read t.mem x = Memory.read s.mem x

/-- Everything but the entry arrays, MEM, DEVLOG and the responses is unchanged. -/
def State.sameControl (s t : State) : Prop :=
  t.params = s.params ∧ t.reg = s.reg ∧ t.fault = s.fault ∧ t.queue = s.queue ∧ t.req = s.req ∧
    t.draws = s.draws

/-- In every cache, every set that none of the given addresses indexes is unchanged. -/
def State.sameOtherSets (s t : State) (accessed : List Addr) : Prop :=
  ∀ j i, (∀ a ∈ accessed, ∀ c ∈ s.params.caches[j]?, c.index s.params.lineSize a ≠ i) →
    t.getSet j i = s.getSet j i

/-- The byte addresses of an access of n bytes (R59). -/
def accessBytes (a : Addr) (n : Nat) : List Addr := (List.range n).map (byteAddr a)

/-! ### What a fill, a hit or a write leaves of a set -/

/-- State, tag and data of an entry: all of it but its links. -/
def Entry.content (e : Entry) : Coh × Addr × List Byte := (e.state, e.tag, e.data)

/-- Every way but w keeps its state, tag and data. -/
def CacheSet.sameBut (cs ds : CacheSet) (w : Nat) : Prop :=
  ds.ways.length = cs.ways.length ∧
    ∀ v, v ≠ w → (ds.ways[v]?).map Entry.content = (cs.ways[v]?).map Entry.content

/-- Way w was moved to the front of ORDER and the rest keep their order (R111). -/
def CacheSet.movedToFront (cs ds : CacheSet) (w : Nat) : Prop :=
  ds.order = w :: cs.order.erase w

/-- The set that address a indexes in cache k. -/
def State.setAt (s : State) (k : Nat) (a : Addr) : Option CacheSet := (s.locate k a).map fun x => x.2

/-- Cache j and set i are the ones that address a selects in cache k. -/
def State.isSlotOf (s : State) (j i k : Nat) (a : Addr) : Prop :=
  j = k ∧ ∀ c ∈ s.params.caches[k]?, c.index s.params.lineSize a = i

/-- What placing the line of a with data d in cache k leaves of its set (R126, R130): the victim way holds the line
Shared and is most recent, and every other way keeps its content. -/
def State.placed (s t : State) (k : Nat) (a : Addr) (d : List Byte) : Prop :=
  ∃ cs ds v e, s.setAt k a = some cs ∧ t.setAt k a = some ds ∧ cs.victim = some v ∧
    cs.sameBut ds v ∧ cs.movedToFront ds v ∧ ds.ways[v]? = some e ∧ e.state = .shared ∧ e.data = d ∧
    t.lookup k a = some v

/-! ### What a byte access leaves, in terms of the line requests -/

/-- t is what an RDLINE of the line of a through cache k leaves of s, the request and the responses aside (R155). -/
def State.afterRdline (s t : State) (k : Cid) (a : Addr) : Prop :=
  ∃ u, exec (.rdline k) { s with req := { s.req with addr := a } } = .next u ∧
    t = { u with req := s.req, responses := s.responses }

/-- t is what an RDLINE of the line of a through cache k and then a WRLINE of that line with data l leave of s, the
requests and the responses aside: the read-before-write sequence (R158). -/
def State.afterReadWrite (s t : State) (k : Cid) (a : Addr) (l : List Byte) : Prop :=
  ∃ u w, exec (.rdline k) { s with req := { s.req with addr := a } } = .next u ∧
    exec (.wrline k) { u with req := { s.req with addr := a, lineIn := l } } = .next w ∧
    t = { w with req := s.req, responses := s.responses }

/-! ### The flat memory the block stands for -/

/-- Address x lies in the window of S bytes that starts at b (R206). -/
def State.inWindow (s : State) (b : Nat) (x : Addr) : Prop :=
  b ≤ x.toNat ∧ x.toNat < b + s.params.storeSize

/-- The block is used free of the aliasing hazard (R57, R206): every valid line lies in one line-aligned window of S
bytes, and the data of a Shared line is what MEM holds. -/
structure AliasFree (s : State) (b : Nat) : Prop where
  aligned : b % s.params.lineSize = 0
  inside  : ∀ k ∈ s.reg, ∀ a, s.cohAt k a ≠ .invalid → s.inWindow b a
  clean   : ∀ k ∈ s.reg, ∀ a, s.cohAt k a = .shared →
    (s.dataAt k a)[offset s.params.lineSize a]? =
      some (Memory.read s.mem (a.toNat % s.params.storeSize))

/-- A GET of n bytes from a flat memory (R63). -/
def flatRead (f : Addr → Byte) (a : Addr) (n : Nat) : Dword :=
  littleEndian ((accessBytes a n).map f)

/-- A PUT of bytes to a flat memory: a byte in a write-handler range goes to its device and leaves the memory as it
was (R157, R207). -/
def flatWrite (p : Params) (f : Addr → Byte) (a : Addr) : List Byte → Addr → Byte
  | [] => f
  | b :: bs =>
    flatWrite p (match writeHandler p a with
      | some _ => f
      | none => fun x => if x = a then b else f x) (a + 1) bs

/-- The handler calls a PUT of bytes makes (R160). -/
def flatEvents (p : Params) (a : Addr) : List Byte → List DevEvent
  | [] => []
  | b :: bs =>
    (match writeHandler p a with
      | some d => [{ device := d, addr := a, byte := b }]
      | none => []) ++ flatEvents p (a + 1) bs

/-- A WRLINE to a flat memory: the L bytes of the line become LINE_IN (R78, R145). -/
def flatLineWrite (p : Params) (f : Addr → Byte) (a : Addr) (l : List Byte) : Addr → Byte := fun x =>
  if lineBase p.lineSize x = lineBase p.lineSize a then l[offset p.lineSize x]?.getD 0 else f x

/-- An RDLINE from a flat memory: the L bytes of the line (R78, R134). -/
def flatLine (p : Params) (f : Addr → Byte) (a : Addr) : List Byte :=
  (List.range p.lineSize).map fun j => f (byteAddr (lineBase p.lineSize a) j)

/-- The flat memory after a request: PUT and WRLINE write, GET and RDLINE read. -/
def flatNext (p : Params) (f : Addr → Byte) (i : Instr) (r : Request) : Addr → Byte :=
  match i with
  | .getB _ => f
  | .getH _ => f
  | .getW _ => f
  | .getD _ => f
  | .putB _ => flatWrite p f r.addr (r.putData 1)
  | .putH _ => flatWrite p f r.addr (r.putData 2)
  | .putW _ => flatWrite p f r.addr (r.putData 4)
  | .putD _ => flatWrite p f r.addr (r.putData 8)
  | .rdline _ => f
  | .wrline _ => flatLineWrite p f r.addr r.lineIn

/-- The response a flat memory gives to a request. -/
def flatResponse (p : Params) (f : Addr → Byte) (i : Instr) (r : Request) : Response :=
  match i with
  | .getB _ => Response.read (flatRead f r.addr 1)
  | .getH _ => Response.read (flatRead f r.addr 2)
  | .getW _ => Response.read (flatRead f r.addr 4)
  | .getD _ => Response.read (flatRead f r.addr 8)
  | .putB _ => Response.done
  | .putH _ => Response.done
  | .putW _ => Response.done
  | .putD _ => Response.done
  | .rdline _ => Response.line (flatLine p f r.addr)
  | .wrline _ => Response.done

/-- The addresses a request accesses: its bytes, or the line's base for a line request. -/
def touchedBytes (i : Instr) (r : Request) : List Addr :=
  match getWidth i, putWidth i with
  | some n, _ => accessBytes r.addr n
  | none, some n => accessBytes r.addr n
  | none, none => [r.addr]

/-- The responses and the final contents of a run of requests on a flat memory. -/
def flatRun (p : Params) : List Request → (Addr → Byte) → List Response × (Addr → Byte)
  | [], f => ([], f)
  | r :: rs, f =>
    match decode p.nCaches r.word with
    | .error _ => ([], f)
    | .ok i =>
      (flatResponse p f i r :: (flatRun p rs (flatNext p f i r)).1,
        (flatRun p rs (flatNext p f i r)).2)

/-- A request that the flat memory answers: legal, its addresses inside the window, a WRLINE with a LINE_IN of L
bytes. -/
def State.flatRequest (s : State) (b : Nat) (r : Request) : Prop :=
  ∃ i, decode s.params.nCaches r.word = .ok i ∧ (∀ x ∈ touchedBytes i r, s.inWindow b x) ∧
    ∀ c, i = .wrline c → r.lineIn.length = s.params.lineSize

/-- A request that the flat memory answers and that cannot raise a fault: a legal GET, PUT or RDLINE inside the
window. -/
def State.plainRequest (s : State) (b : Nat) (r : Request) : Prop :=
  ∃ i, decode s.params.nCaches r.word = .ok i ∧ (∀ c, i ≠ .wrline c) ∧
    ∀ x ∈ touchedBytes i r, s.inWindow b x

/-! ### Outcomes of a step -/

/-- The oldest request is a WRLINE whose LINE_IN is not L bytes (R70; log entry 8). -/
def State.malformedRequest (s : State) : Prop :=
  ∃ (r : Request) (rest : List Request) (c : Cid), s.queue = r :: rest ∧
    decode s.params.nCaches r.word = .ok (.wrline c) ∧ r.lineIn.length ≠ s.params.lineSize

/-- The model does not stop with `stuck`, and it turns away only a request sent to a block in the fault state, or a
WRLINE with a malformed LINE_IN. Whether the step went wrong is `safeOutcome`. -/
def neverStuck (s : State) (o : Host.Outcome State Fault Refusal) : Prop :=
  match o with
  | .next _ => True
  | .fault _ => False
  | .refused r => (r = .blockFaulted ∧ s.fault.valid = true ∧ s.queue ≠ []) ∨
      (r = .malformedLineIn ∧ s.fault.valid = false ∧ s.malformedRequest)

/-- A safe outcome: it has not gone wrong (R180). -/
def safeOutcome (o : Host.Outcome State Fault Refusal) : Prop := verdict o ≠ .wrong

/-- The oldest request raises a fault (R184): a reserved word, or a WRLINE of L bytes whose line is not valid in the
named cache. -/
def State.faultingRequest (s : State) : Prop :=
  ∃ (r : Request) (rest : List Request), s.queue = r :: rest ∧
    ((∃ e, decode s.params.nCaches r.word = .error e) ∨
      ∃ c : Cid, decode s.params.nCaches r.word = .ok (.wrline c) ∧
        r.lineIn.length = s.params.lineSize ∧ s.lookup c.toNat r.addr = none)

end Sys2Proof.Machine
end

