-- ==== Sys2Proof/Certificates/Slice0/Obligations.lean ====
section
/-! DEFINITION. The statements for the provers, in the order of OBLIGATIONS.json. -/

open Sys2Proof Sys2Proof.Machine

/-! ### Encoding -/

/-- Decoding the word of a well-formed request gives the request back (R79, R81). -/
def Obligations.DecodeOfEncodeIsTheRequest : Prop :=
  ∀ (n : Nat) (i : Instr), i.wellFormed n = true → decode n (encode i) = .ok i

/-- Each word has at most one meaning, and the word of that meaning is the word itself. -/
def Obligations.DecodedWordIsItsEncoding : Prop :=
  ∀ (n : Nat) (w : ReqWord) (i : Instr), decode n w = .ok i → i.wellFormed n = true ∧ encode i = w

/-- The opcode table of R81: a word decodes to a row's request exactly when it matches the row under the mask
0xFFFFFC3F and its CID passes the check of R79; the word for cache k is `match | (k << 6)`. -/
def Obligations.OpcodeTableDecides : Prop :=
  let rows : List (ReqWord × (Cid → Instr)) :=
    [(0x00000000, .getB), (0x00000010, .getH), (0x00000020, .getW), (0x00000030, .getD),
      (0x00000001, .putB), (0x00000011, .putH), (0x00000021, .putW), (0x00000031, .putD),
      (0x00000002, .rdline), (0x00000003, .wrline)]
  (∀ (n : Nat) (w : ReqWord) (i : Instr), decode n w = .ok i ↔
      ∃ row ∈ rows, w &&& 0xFFFFFC3F = row.1 ∧ (w.extractLsb' 6 4).toNat < n ∧ i = row.2 (w.extractLsb' 6 4)) ∧
    ∀ row ∈ rows, ∀ k : Cid, encode (row.2 k) = row.1 ||| (k.setWidth 32 <<< 6)

/-- The words R81 writes out decode to the requests it names, in a block of three caches. -/
def Obligations.WrittenOutWordsDecode : Prop :=
  decode 3 0x00000020 = .ok (.getW 0) ∧ decode 3 0x00000040 = .ok (.getB 1) ∧
    decode 3 0x00000071 = .ok (.putD 1) ∧ decode 3 0x00000082 = .ok (.rdline 2) ∧
    decode 3 0x00000043 = .ok (.wrline 1) ∧ decode 3 0x000000C2 = .error .noSuchCache ∧
    decode 3 0x00000012 = .error .sizedLineRequest ∧ decode 3 0x80000000 = .error .reservedBits ∧
    decode 3 0x00000004 = .error .reservedOp

/-! ### The step -/

/-- A step takes the oldest request and runs the instruction it decodes to, in the state where that request is the
one in progress. -/
def Obligations.StepRunsTheDecodedRequest : Prop :=
  ∀ (s : State) (r : Request) (rest : List Request) (i : Instr),
    s.queue = r :: rest → s.fault.valid = false → decode s.params.nCaches r.word = .ok i →
      step s = exec i { s with req := r, queue := rest }

/-- R79: a reserved word raises ILLEGAL_REQUEST, naming the cache and its level when CID names one, and changes nothing
else; every other word selects the request of its OP, SZ and CID. (That a request fault is a next state with FAULT
written and a faulted response is the model's form, log entry 4.) -/
def Obligations.ReservedWordRaisesIllegalRequest : Prop :=
  ∀ (s : State) (r : Request) (rest : List Request),
    s.queue = r :: rest → s.fault.valid = false →
      let cid := (r.word.extractLsb' 6 4).toNat
      let op := (r.word.extractLsb' 0 4).toNat
      let reserved : Prop := r.word.extractLsb' 10 22 ≠ 0 ∨ 3 < op ∨
        ((op = 2 ∨ op = 3) ∧ r.word.extractLsb' 4 2 ≠ 0) ∨ s.params.nCaches ≤ cid
      (reserved → ∀ c ∈ s.params.caches[cid]?,
        step s = .next { s with
          req := r, queue := rest,
          fault := { valid := true, code := .illegalRequest, cache := some cid, level := some c.level,
                     addr := some r.addr },
          responses := s.responses ++ [{ status := .fault, rdata := none, lineOut := none }] }) ∧
      (reserved → s.params.nCaches ≤ cid →
        step s = .next { s with
          req := r, queue := rest,
          fault := { valid := true, code := .illegalRequest, cache := none, level := none, addr := some r.addr },
          responses := s.responses ++ [{ status := .fault, rdata := none, lineOut := none }] }) ∧
      (¬ reserved → ∃ i : Instr, i.cid = r.word.extractLsb' 6 4 ∧ i.opBits = r.word.extractLsb' 0 4 ∧
        i.szBits = r.word.extractLsb' 4 2 ∧ step s = exec i { s with req := r, queue := rest })

/-- R36: FAULT is written only by raise Fault and only when FAULT.valid is 0; while FAULT.valid is 1 the block accepts
no request, and a step that can be taken at all leaves the state as it is. (Refusal as the third outcome of a step is
the model's form, log entry 4.) -/
def Obligations.FaultIsStickyAndRefusesRequests : Prop :=
  ∀ s : State,
    (s.fault.valid = true → s.queue ≠ [] → step s = .refused .blockFaulted) ∧
    (s.fault.valid = true → ∀ t, step s = .next t → t = s) ∧
    (s.fault.valid = false → ∀ t, step s = .next t →
      t.fault = s.fault ∨ ∃ code cache level addr, t.fault = FaultReg.raised code cache level addr)

/-- With no request sent, the block holds all its state (R195; the step of an idle block is the model's form, log
entry 3). -/
def Obligations.IdleBlockHoldsItsState : Prop :=
  ∀ s : State, s.queue = [] → step s = .next s

/-- R21: no request writes a configuration field; REG has no request that changes it either (R31). -/
def Obligations.NoRequestWritesConfiguration : Prop :=
  ∀ s t : State, step s = .next t → t.params = s.params ∧ t.reg = s.reg

/-! ### Construction and reset -/

/-- Construction raises no fault exactly for legal parameters whose storage can be sized (R100 to R105). -/
def Obligations.ConstructionFaultsExactlyWhenIllegal : Prop :=
  ∀ (p : Params) (mem0 : List Host.Cell),
    (State.construct p mem0).fault.valid = false ↔
      paramsLegal p ∧ (p.allocFails = true → p.caches = [])

/-- The first cache that fails a check is the one reported, and of its checks the first of level, geometry, topology,
allocation (R100, R185). -/
def Obligations.FirstFailingCacheIsReported : Prop :=
  ∀ (p : Params) (mem0 : List Host.Cell) (k : Nat) (c : CacheCfg),
    p.caches[k]? = some c →
    (∀ j < k, ∀ d ∈ p.caches[j]?, cacheLegal p d) → (0 < k → p.allocFails = false) →
      (c.level ≠ 1 → c.level ≠ 2 →
        (State.construct p mem0).fault = FaultReg.raised .unsupportedLevel (some k) (some c.level) none) ∧
      ((c.level = 1 ∨ c.level = 2) → (geometryLegal p c = false ∨ topologyLegal p c = false) →
        (State.construct p mem0).fault = FaultReg.raised .badConfig (some k) (some c.level) none) ∧
      (cacheLegal p c → p.allocFails = true →
        (State.construct p mem0).fault = FaultReg.raised .allocFailure (some k) (some c.level) none)

/-- After the caches: an illegal store size, then the first device range that is empty or overlaps an earlier one, with
its start (R100, R103, R104; the walk in registration order is log entry 13). -/
def Obligations.StoreAndDeviceChecksAreReported : Prop :=
  ∀ (p : Params) (mem0 : List Host.Cell),
    (∀ c ∈ p.caches, cacheLegal p c) → p.allocFails = false →
      (storeLegal p = false →
        (State.construct p mem0).fault = FaultReg.raised .badConfig none none none) ∧
      (storeLegal p = true → ∀ (j : Nat) (d : DeviceRange), p.devices[j]? = some d →
        devicesLegal { p with devices := p.devices.take j } →
        (d.stop ≤ d.start ∨ ∃ e ∈ p.devices.take j, e.start < d.stop ∧ d.start < e.stop) →
          (State.construct p mem0).fault = FaultReg.raised .badConfig none none (some d.start))

/-- R100, R106: a cache that passes its checks is allocated with every entry at its reset value and registered. (That
this is so too when a later cache, the store or a device range fails is the model's reading of R100, log entry 23.) -/
def Obligations.PassedCacheIsAllocatedAtReset : Prop :=
  ∀ (p : Params) (mem0 : List Host.Cell) (k : Nat) (c : CacheCfg),
    p.caches[k]? = some c → (∀ j ≤ k, ∀ d ∈ p.caches[j]?, cacheLegal p d) → p.allocFails = false →
      (State.construct p mem0).reg[k]? = some k ∧
      ∃ x : CacheArray, (State.construct p mem0).arrays[k]? = some x ∧ x.length = c.setCount p.lineSize ∧
        ∀ cs ∈ x, cs.head = none ∧ cs.ways.length = c.ways ∧ cs.order = [] ∧
          ∀ e ∈ cs.ways, e.state = .invalid ∧ e.tag = 0 ∧ e.data = List.replicate p.lineSize 0 ∧
            e.prev = none ∧ e.next = none

/-- The rest of the reset state of R201: the parameters as given, REG in id order, MEM the launch input, DEVLOG empty,
FAULT clear. -/
def Obligations.ConstructionLeavesTheResetState : Prop :=
  ∀ (p : Params) (mem0 : List Host.Cell), (State.construct p mem0).fault.valid = false →
    (State.construct p mem0).params = p ∧
    (State.construct p mem0).reg = List.range p.nCaches ∧
    (Memory.wf p.storeSize mem0 = true → (State.construct p mem0).mem = mem0) ∧
    (State.construct p mem0).devlog = [] ∧
    (State.construct p mem0).fault =
      { valid := false, code := .none, cache := none, level := none, addr := none }

/-- A block constructed without a fault from parameters in the ranges of R7 is well-formed. -/
def Obligations.LegalConstructionIsWellFormed : Prop :=
  ∀ (p : Params) (mem0 : List Host.Cell), p.inRange = true →
    (State.construct p mem0).fault.valid = false → Inv (State.construct p mem0)

/-- The reset state is well-formed. (That reset is a construction of TC is the model's choice, log entry 2.) -/
def Obligations.ResetIsWellFormed : Prop := Inv State.reset

/-! ### Invariants of every step -/

/-- Every step keeps the well-formedness of the state: R41, R42, R44, R45, the rings of links, the shape of the arrays,
the canonical form of MEM, the legality of the parameters and of FAULT (R43). -/
def Obligations.StepKeepsWellFormedness : Prop :=
  ∀ s t : State, Inv s → step s = .next t → Inv t

/-- A well-formed block is never stuck, and it turns away a request only in the fault state or if the oldest request is
a WRLINE whose LINE_IN is not L bytes (the latter is the model's form, log entry 8). With no fault recorded its step is safe, that is, it does not
go wrong in the sense of R180, unless the oldest request is a reserved word or a WRLINE that misses (R184). -/
def Obligations.WellFormedStepIsSafe : Prop :=
  ∀ s : State, Inv s → neverStuck s (step s) ∧
    (s.fault.valid = false → (safeOutcome (step s) ↔ ¬ s.faultingRequest))

/-- R184, R186: in a well-formed block a request raises a fault only as a reserved word or as a WRLINE that misses, and
then nothing but FAULT and the interface changes. (The fault as a next state is the model's form, log entry 4.) -/
def Obligations.RequestFaultsArePrecise : Prop :=
  ∀ s t : State, Inv s → step s = .next t → t.fault ≠ s.fault →
    ∃ (r : Request) (rest : List Request), s.queue = r :: rest ∧
      t = { s with queue := rest, req := r, fault := t.fault,
                   responses := s.responses ++ [{ status := .fault, rdata := none, lineOut := none }] } ∧
      ((t.fault.code = .illegalRequest ∧ ∃ e, decode s.params.nCaches r.word = .error e) ∨
        (t.fault.code = .writeMiss ∧
          ∃ c : Cid, decode s.params.nCaches r.word = .ok (.wrline c) ∧ s.lookup c.toNat r.addr = none))

/-! ### Geometry -/

/-- R99: `address_of(tag(a), index(a))` is the line base of a. -/
def Obligations.AddressOfTagAndIndexIsLineBase : Prop :=
  ∀ (p : Params) (c : CacheCfg) (a : Addr), geometryLegal p c = true →
    c.addressOf p.lineSize (c.tag p.lineSize a) (c.index p.lineSize a) = lineBase p.lineSize a

/-- R93: offset, index and tag bits partition the 64 address bits, and there is at least one tag bit. -/
def Obligations.AddressBitsArePartitioned : Prop :=
  ∀ (p : Params) (c : CacheCfg), geometryLegal p c = true → c.cap < 2 ^ 64 →
    offBits p.lineSize + c.idxBits p.lineSize + c.tagBits p.lineSize = 64 ∧ 1 ≤ c.tagBits p.lineSize ∧
    2 ^ offBits p.lineSize = p.lineSize ∧ 2 ^ c.idxBits p.lineSize = c.setCount p.lineSize ∧
    ∀ a : Addr, (c.tag p.lineSize a).toNat < 2 ^ c.tagBits p.lineSize ∧
      c.index p.lineSize a < c.setCount p.lineSize ∧ offset p.lineSize a < p.lineSize

/-! ### The recency list -/

/-- R111: touch moves the way to the front of ORDER, keeps the links a ring, and changes no state, tag or data. -/
def Obligations.TouchMovesToFront : Prop :=
  ∀ (cs : CacheSet) (w : Nat), cs.ringOk → w < cs.ways.length →
    ∃ ds, cs.touch w = some ds ∧ ds.ringOk ∧ ds.order = w :: cs.order.erase w ∧
      ds.ways.map Entry.content = cs.ways.map Entry.content

/-- R112: touching the way that is already the head changes nothing. -/
def Obligations.TouchOfTheHeadChangesNothing : Prop :=
  ∀ (cs : CacheSet) (w : Nat), w < cs.ways.length → cs.head = some w → cs.touch w = some cs

/-- R114: the victim is the lowest-numbered Invalid way, whatever the recency order; R115: with none, it is the last
way of ORDER. -/
def Obligations.VictimIsInvalidElseLeastRecent : Prop :=
  ∀ cs : CacheSet, 0 < cs.ways.length → cs.ringOk → cs.recencyOk →
    (∀ (w : Nat) (e : Entry), cs.ways[w]? = some e → e.state = .invalid →
      (∀ v < w, ∀ f ∈ cs.ways[v]?, f.state ≠ .invalid) → cs.victim = some w) ∧
    ((∀ e ∈ cs.ways, e.state ≠ .invalid) →
      ∃ w, w < cs.ways.length ∧ cs.order.getLast? = some w ∧ cs.victim = some w)

/-- R115, the property of the source's section 8: in a set whose ways are all valid, touching w0, w1, ..., wN, w0 makes
w1 the victim, not w0; the victim is the last way of ORDER. -/
def Obligations.LeastRecentlyTouchedIsEvicted : Prop :=
  ∀ cs : CacheSet, 2 ≤ cs.ways.length → cs.ringOk → cs.recencyOk →
    (∀ e ∈ cs.ways, e.state ≠ .invalid) →
      cs.victim = cs.order.getLast? ∧
      ∃ ds, (List.range cs.ways.length ++ [0]).foldlM CacheSet.touch cs = some ds ∧ ds.victim = some 1

/-- R117 (log entry 10): a full set with a valid way outside ORDER has no victim, and a fill of it is stuck, not picking a
way. -/
def Obligations.VictimOutsideOrderIsStuck : Prop :=
  ∀ (s : State) (k : Nat) (a : Addr) (d : List Byte) (cs : CacheSet) (w : Nat),
    s.setAt k a = some cs → (∀ e ∈ cs.ways, e.state ≠ .invalid) → w < cs.ways.length → w ∉ cs.order →
      cs.victim = none ∧ place k a d s = .stuck .noVictim

/-! ### The backing store -/

/-- R51: a store read wraps modulo S and is truncated at the end of the store; it changes nothing but the count of free
draws, and of the bytes it did not read nothing is said. -/
def Obligations.StoreReadWrapsAndTruncates : Prop :=
  ∀ (s : State) (a : Addr) (n : Nat), 0 < s.params.storeSize →
    let base := a.toNat % s.params.storeSize
    (memRead a n s).1.length = n ∧
    (∀ j < n, base + j < s.params.storeSize → (memRead a n s).1[j]? = some (Memory.read s.mem (base + j))) ∧
    (memRead a n s).2 = { s with draws := (memRead a n s).2.draws }

/-- R52: a store write wraps modulo S, the bytes past the end of the store are written nowhere, and every other byte of
MEM is unchanged. -/
def Obligations.StoreWriteWrapsAndTruncates : Prop :=
  ∀ (s : State) (a : Addr) (bytes : List Byte), 0 < s.params.storeSize →
    Memory.wf s.params.storeSize s.mem = true →
    let base := a.toNat % s.params.storeSize
    (∀ j, ∀ b ∈ bytes[j]?, base + j < s.params.storeSize →
      Memory.read (memWrite a bytes s).mem (base + j) = b) ∧
    (∀ x, x < base ∨ base + bytes.length ≤ x ∨ s.params.storeSize ≤ x →
      Memory.read (memWrite a bytes s).mem x = Memory.read s.mem x) ∧
    memWrite a bytes s = { s with mem := (memWrite a bytes s).mem }

/-- R54: with legal parameters no line access is truncated. -/
def Obligations.LineAccessIsNeverTruncated : Prop :=
  ∀ (p : Params) (a : Addr), paramsLegal p → p.caches ≠ [] →
    fitting p.storeSize ((lineBase p.lineSize a).toNat % p.storeSize) p.lineSize = p.lineSize

/-- R151: the walk along next-level references from any cache ends at a terminal cache. -/
def Obligations.NextLevelWalkEndsAtTheStore : Prop :=
  ∀ (p : Params) (k : Nat), paramsLegal p → k < p.nCaches →
    ∃ o c, storeOwner p levels k = some o ∧ p.caches[o]? = some c ∧ c.next = .terminal

/-- R150, R154: write_back copies the entry's bytes to the address its tag and set give, modulo S, and changes nothing
else, the entry included. -/
def Obligations.WriteBackCopiesTheLine : Prop :=
  ∀ (s : State) (k i w : Nat) (c : CacheCfg) (e : Entry), Inv s →
    s.params.caches[k]? = some c → s.entry k i w = some e →
      ∃ t, writeBack k i w s = .ok () t ∧ t = { s with mem := t.mem } ∧
        (∀ j, ∀ b ∈ e.data[j]?, Memory.read t.mem
          ((c.addressOf s.params.lineSize e.tag i).toNat % s.params.storeSize + j) = b) ∧
        s.sameMemOutside t [c.addressOf s.params.lineSize e.tag i]

/-! ### RDLINE -/

/-- R121: a local hit returns the line, touches its way, and changes no state of any line, no other set and no byte of
MEM. -/
def Obligations.RdlineLocalHit : Prop :=
  ∀ (s : State) (k : Cid) (w : Nat), Ready s (.rdline k) → s.lookup k.toNat s.req.addr = some w →
    ∃ t, exec (.rdline k) s = .next t ∧
      t.responses =
        s.responses ++ [{ status := .ok, rdata := none, lineOut := some (s.dataAt k.toNat s.req.addr) }] ∧
      s.sameControl t ∧ t.mem = s.mem ∧ t.devlog = s.devlog ∧
      (∀ j a, t.cohAt j a = s.cohAt j a ∧ t.dataAt j a = s.dataAt j a) ∧
      (∃ cs ds, s.setAt k.toNat s.req.addr = some cs ∧ t.setAt k.toNat s.req.addr = some ds ∧
        cs.movedToFront ds w ∧ ds.ways.map Entry.content = cs.ways.map Entry.content) ∧
      ∀ j i, ¬ s.isSlotOf j i k.toNat s.req.addr → t.getSet j i = s.getSet j i

/-- R122 to R127: on a local miss the first sibling in REG order that holds the line serves it; a Modified copy is
written back and becomes Shared, keeps its place in ORDER, and the line is placed Shared in the requesting cache. -/
def Obligations.RdlineSiblingHit : Prop :=
  ∀ (s : State) (k : Cid) (j w : Nat), Ready s (.rdline k) → s.lookup k.toNat s.req.addr = none →
    j ∈ s.reg → j ≠ k.toNat → s.lookup j s.req.addr = some w →
    (∀ l < j, l ≠ k.toNat → s.lookup l s.req.addr = none) →
      ∃ t, exec (.rdline k) s = .next t ∧
        t.responses =
          s.responses ++ [{ status := .ok, rdata := none, lineOut := some (s.dataAt j s.req.addr) }] ∧
        s.sameControl t ∧ t.devlog = s.devlog ∧
        s.placed t k.toNat s.req.addr (s.dataAt j s.req.addr) ∧
        (∃ cs, s.setAt j s.req.addr = some cs ∧ t.setAt j s.req.addr = some (cs.setCoh w .shared)) ∧
        (∀ l i, ¬ s.isSlotOf l i k.toNat s.req.addr → ¬ s.isSlotOf l i j s.req.addr →
          t.getSet l i = s.getSet l i) ∧
        s.sameMemOutside t (s.siblingStores j s.req.addr ++ s.placeStores k.toNat s.req.addr) ∧
        (s.cohAt j s.req.addr = .modified →
          ∀ x, ∀ b ∈ (s.dataAt j s.req.addr)[x]?,
            let at_ := (lineBase s.params.lineSize s.req.addr).toNat % s.params.storeSize + x
            s.outside (s.placeStores k.toNat s.req.addr) at_ → Memory.read t.mem at_ = b)

/-- R128 to R131: when no cache holds the line it is read from MEM as it was before any write-back of this request, and
is placed Shared in the requesting cache and in its next level, if it has one. -/
def Obligations.RdlineMissEverywhere : Prop :=
  ∀ (s : State) (k : Cid), Ready s (.rdline k) → (∀ j ∈ s.reg, s.lookup j s.req.addr = none) →
    let base := (lineBase s.params.lineSize s.req.addr).toNat % s.params.storeSize
    let d := (List.range s.params.lineSize).map fun j => Memory.read s.mem (base + j)
    ∃ t, exec (.rdline k) s = .next t ∧
      t.responses = s.responses ++ [{ status := .ok, rdata := none, lineOut := some d }] ∧
      s.sameControl t ∧ t.devlog = s.devlog ∧
      s.placed t k.toNat s.req.addr d ∧
      (∀ c ∈ s.params.caches[k.toNat]?, ∀ m, c.next = .nextLevel m → s.placed t m s.req.addr d) ∧
      (∀ l i, ¬ s.isSlotOf l i k.toNat s.req.addr →
        (∀ c ∈ s.params.caches[k.toNat]?, ∀ m, c.next = .nextLevel m → ¬ s.isSlotOf l i m s.req.addr) →
        t.getSet l i = s.getSet l i) ∧
      s.sameMemOutside t (readStores k.toNat s.req.addr s)

/-- RDLINE completes in every well-formed block and returns VIEW of the L bytes of the line (R120, R46); the line is
valid in the named cache afterwards. Its frame: only the sets the address indexes, and MEM only where a line is written
back. -/
def Obligations.RdlineReturnsTheCoherentLine : Prop :=
  ∀ (s : State) (k : Cid), Ready s (.rdline k) →
    ∃ t, exec (.rdline k) s = .next t ∧
      t.responses =
        s.responses ++ [{ status := .ok, rdata := none, lineOut := some (s.lineView s.req.addr) }] ∧
      t.cohAt k.toNat s.req.addr ≠ .invalid ∧
      s.sameControl t ∧ t.devlog = s.devlog ∧ s.sameOtherSets t [s.req.addr] ∧
      s.sameMemOutside t (readStores k.toNat s.req.addr s)

/-- An RDLINE changes no other line in any cache, except that the line whose slot is reused is gone (R133, last two
rows). -/
def Obligations.RdlineDisplacesOnlyTheVictim : Prop :=
  ∀ (s t : State) (k : Cid), Ready s (.rdline k) → exec (.rdline k) s = .next t →
    ∀ (j : Nat) (b : Addr), lineBase s.params.lineSize b ≠ lineBase s.params.lineSize s.req.addr →
      (t.cohAt j b = s.cohAt j b ∧ t.dataAt j b = s.dataAt j b) ∨
      (t.cohAt j b = .invalid ∧ ∃ c w, s.params.caches[j]? = some c ∧ s.lookup j b = some w ∧
        s.victimSlot j s.req.addr = some (c.index s.params.lineSize b, w))

/-- R154, the property of the source's section 8: evicting a Modified line leaves its data in the backing store at its
address. So for the victim of the named cache; and, on a miss everywhere, for the victim of its next level (R128, R129),
whose write-back comes first: outside the line that the named cache's victim is written to. -/
def Obligations.EvictedModifiedLineReachesTheStore : Prop :=
  ∀ (s t : State) (k : Cid) (c : CacheCfg),
    Ready s (.rdline k) → exec (.rdline k) s = .next t → s.lookup k.toNat s.req.addr = none →
    s.params.caches[k.toNat]? = some c →
      (∀ (i v : Nat) (e : Entry), s.victimSlot k.toNat s.req.addr = some (i, v) →
        s.entry k.toNat i v = some e → e.state = .modified →
          ∀ j, ∀ b ∈ e.data[j]?, Memory.read t.mem
            ((c.addressOf s.params.lineSize e.tag i).toNat % s.params.storeSize + j) = b) ∧
      ((∀ l ∈ s.reg, s.lookup l s.req.addr = none) →
        ∀ (m : Nat) (d : CacheCfg) (i v : Nat) (e : Entry), c.next = .nextLevel m →
          s.params.caches[m]? = some d → s.victimSlot m s.req.addr = some (i, v) →
          s.entry m i v = some e → e.state = .modified →
            ∀ j, ∀ b ∈ e.data[j]?,
              let x := (d.addressOf s.params.lineSize e.tag i).toNat % s.params.storeSize + j
              s.outside (s.placeStores k.toNat s.req.addr) x → Memory.read t.mem x = b)

/-! ### GET -/

/-- GET.B, GET.H, GET.W, GET.D complete in every well-formed block, whatever the address (R56, R184): RDATA is a value
of 8n bits zero-extended (R77), the line of the last byte is valid in the named cache, DEVLOG is unchanged at every
address (R170), only the sets the bytes index change, and MEM changes only where a line is written back. -/
def Obligations.GetCompletes : Prop :=
  ∀ (s : State) (i : Instr) (n : Nat), getWidth i = some n → Ready s i →
    ∃ t v, exec i s = .next t ∧
      t.responses = s.responses ++ [{ status := .ok, rdata := some v, lineOut := none }] ∧
      v.toNat < 2 ^ (8 * n) ∧
      t.cohAt i.cid.toNat (byteAddr s.req.addr (n - 1)) ≠ .invalid ∧
      s.sameControl t ∧ t.devlog = s.devlog ∧
      s.sameOtherSets t (accessBytes s.req.addr n) ∧
      s.sameMemOutside t (getStores i.cid.toNat s.req.addr n s)

/-- R46, R155: a GET of one byte at a returns VIEW(a), and leaves exactly what an RDLINE of the line of a through the
same cache leaves, the response aside: the fill, the downgrade, the write-backs and the touches are those of RDLINE. -/
def Obligations.GetByteReturnsTheView : Prop :=
  ∀ (s : State) (k : Cid), Ready s (.getB k) →
    ∃ t, s.afterRdline t k s.req.addr ∧
      exec (.getB k) s = .next { t with
        responses := s.responses ++
          [{ status := .ok, rdata := some ((s.view s.req.addr).setWidth 64), lineOut := none }] }

/-- R156, R63: free of aliasing, a GET of any width returns the little-endian composition of the coherent bytes, and
changes the coherent value of no address. -/
def Obligations.GetReadsTheFlatMemory : Prop :=
  ∀ (s : State) (i : Instr) (n b : Nat), getWidth i = some n → Ready s i → AliasFree s b →
    (∀ x ∈ accessBytes s.req.addr n, s.inWindow b x) →
      ∃ t, exec i s = .next t ∧
        t.responses =
          s.responses ++ [{ status := .ok, rdata := some (flatRead s.view s.req.addr n), lineOut := none }] ∧
        AliasFree t b ∧ ∀ x, s.inWindow b x → t.view x = s.view x

/-- A GET or PUT of any width changes no line but those it accesses, except that a line in a set it indexes may lose its
slot to a fill and be gone. -/
def Obligations.AccessDisplacesOnlyInItsSets : Prop :=
  ∀ (s t : State) (i : Instr) (n : Nat), (getWidth i = some n ∨ putWidth i = some n) → Ready s i →
    exec i s = .next t →
      ∀ (j : Nat) (b : Addr),
        (∀ x ∈ accessBytes s.req.addr n, lineBase s.params.lineSize b ≠ lineBase s.params.lineSize x) →
          (t.cohAt j b = s.cohAt j b ∧ t.dataAt j b = s.dataAt j b) ∨
          (t.cohAt j b = .invalid ∧ ∃ c ∈ s.params.caches[j]?, ∃ x ∈ accessBytes s.req.addr n,
            c.index s.params.lineSize b = c.index s.params.lineSize x)

/-! ### PUT -/

/-- PUT.B, PUT.H, PUT.W, PUT.D complete in every well-formed block, whatever the address: each byte in a write-handler
range is one handler call, in order (R159, R160), only the sets the bytes index change, and MEM changes only where a
line is written back by the read of a byte's line. -/
def Obligations.PutCompletes : Prop :=
  ∀ (s : State) (i : Instr) (n : Nat), putWidth i = some n → Ready s i →
    ∃ t, exec i s = .next t ∧
      t.responses = s.responses ++ [{ status := .ok, rdata := none, lineOut := none }] ∧
      s.sameControl t ∧
      t.devlog = s.devlog ++ flatEvents s.params s.req.addr (s.req.putData n) ∧
      s.sameOtherSets t (accessBytes s.req.addr n) ∧
      s.sameMemOutside t (putStores i.cid.toNat s.req.addr (s.req.putData n) s)

/-- R158: through the cache, a PUT of one byte leaves exactly what an RDLINE of its line and then a WRLINE of that line
with the one byte set leave, the response aside. So the line is Modified in the named cache with that byte changed and the
others as they were, every other copy Invalid, and the line most recent in its set; the bits of WDATA above the byte
are ignored (R76). -/
def Obligations.PutByteModifiesTheLine : Prop :=
  ∀ (s : State) (k : Cid), Ready s (.putB k) → writeHandler s.params s.req.addr = none →
    ∃ t, s.afterReadWrite t k s.req.addr
        ((s.lineView s.req.addr).set (offset s.params.lineSize s.req.addr) (s.req.wdata.setWidth 8)) ∧
      exec (.putB k) s = .next { t with
        responses := s.responses ++ [{ status := .ok, rdata := none, lineOut := none }] } ∧
      t.cohAt k.toNat s.req.addr = .modified ∧
      t.dataAt k.toNat s.req.addr =
        (s.lineView s.req.addr).set (offset s.params.lineSize s.req.addr) (s.req.wdata.setWidth 8) ∧
      (∀ j ∈ s.reg, j ≠ k.toNat → t.cohAt j s.req.addr = .invalid) ∧
      (∃ ds w, t.setAt k.toNat s.req.addr = some ds ∧ t.lookup k.toNat s.req.addr = some w ∧
        ds.order.head? = some w) ∧
      t.devlog = s.devlog

/-- R160: a byte written inside a registered range with a write handler is one call of that handler, with the address
as given, and changes no cache line and no byte of MEM. -/
def Obligations.PutByteToDeviceCallsItsHandler : Prop :=
  ∀ (s : State) (k : Cid) (d : Nat) (r : DeviceRange),
    devicesLegal s.params → s.params.devices[d]? = some r → r.start ≤ s.req.addr → s.req.addr < r.stop →
    r.hasWriteHandler = true →
      exec (.putB k) s =
        .next { s with
          devlog := s.devlog ++ [{ device := d, addr := s.req.addr, byte := s.req.wdata.setWidth 8 }],
          responses := s.responses ++ [{ status := .ok, rdata := none, lineOut := none }] }

/-- R157, R171: a byte outside every range, or in a range whose device has no write handler, goes through the cache. -/
def Obligations.ByteWithoutHandlerGoesThroughTheCache : Prop :=
  ∀ (s : State) (k : Nat) (a : Addr) (b : Byte),
    (∀ r ∈ s.params.devices, r.start ≤ a → a < r.stop → r.hasWriteHandler = false) →
      putByte k a b s = putByteCached k a b s

/-- R159, R63: free of aliasing, a PUT of any width changes the coherent value of exactly the bytes it writes, to the
bytes of WDATA, but for those a device takes. -/
def Obligations.PutUpdatesTheFlatMemory : Prop :=
  ∀ (s : State) (i : Instr) (n b : Nat), putWidth i = some n → Ready s i → AliasFree s b →
    (∀ x ∈ accessBytes s.req.addr n, s.inWindow b x) →
      ∃ t, exec i s = .next t ∧ AliasFree t b ∧
        ∀ x, s.inWindow b x →
          t.view x = flatWrite s.params s.view s.req.addr (s.req.putData n) x

/-! ### WRLINE -/

/-- R142, R143: a WRLINE of a line valid in the named cache makes it Modified there with LINE_IN as its data, most recent
in its set; every other copy becomes Invalid, none is written back, and no other line, set or byte of MEM changes. In
every other cache the set that ADDR indexes keeps all but the state of that copy, its recency order included (R144), and
is unchanged if the cache does not hold the line. -/
def Obligations.WrlineHitOwnsTheLine : Prop :=
  ∀ (s : State) (k : Cid) (w : Nat), Ready s (.wrline k) → s.req.lineIn.length = s.params.lineSize →
    s.lookup k.toNat s.req.addr = some w →
      ∃ t, exec (.wrline k) s = .next t ∧
        t.responses = s.responses ++ [{ status := .ok, rdata := none, lineOut := none }] ∧
        s.sameControl t ∧ t.mem = s.mem ∧ t.devlog = s.devlog ∧
        t.lookup k.toNat s.req.addr = some w ∧ t.cohAt k.toNat s.req.addr = .modified ∧
        t.dataAt k.toNat s.req.addr = s.req.lineIn ∧
        (∀ j ∈ s.reg, j ≠ k.toNat → t.cohAt j s.req.addr = .invalid) ∧
        (∃ cs ds, s.setAt k.toNat s.req.addr = some cs ∧ t.setAt k.toNat s.req.addr = some ds ∧
          cs.sameBut ds w ∧ cs.movedToFront ds w) ∧
        (∀ j ∈ s.reg, j ≠ k.toNat → ∀ cs, s.setAt j s.req.addr = some cs →
          t.setAt j s.req.addr = some (match s.lookup j s.req.addr with
            | some v => cs.setCoh v .invalid
            | none => cs)) ∧
        (∀ j b, lineBase s.params.lineSize b ≠ lineBase s.params.lineSize s.req.addr →
          t.cohAt j b = s.cohAt j b ∧ t.dataAt j b = s.dataAt j b) ∧
        s.sameOtherSets t [s.req.addr]

/-- R141: a WRLINE of a line not valid in the named cache raises WRITE_MISS with the cache, its level and ADDR as given,
before any state changes; a PUT never raises it. (The fault as a next state is the model's form, log entry 4.) -/
def Obligations.WrlineMissRaisesWriteMiss : Prop :=
  (∀ (s : State) (k : Cid), Ready s (.wrline k) → s.req.lineIn.length = s.params.lineSize →
    s.lookup k.toNat s.req.addr = none → ∀ c ∈ s.params.caches[k.toNat]?,
      exec (.wrline k) s =
        .next { s with
          fault := { valid := true, code := .writeMiss, cache := some k.toNat, level := some c.level,
                     addr := some s.req.addr },
          responses := s.responses ++ [{ status := .fault, rdata := none, lineOut := none }] }) ∧
  ∀ (s t : State) (i : Instr) (n : Nat), putWidth i = some n → Ready s i → exec i s = .next t →
    t.fault = s.fault

/-- A LINE_IN that is not L bytes is no request of R70; the model refuses it (the model's form, log entry 8). -/
def Obligations.MalformedLineInIsRefused : Prop :=
  ∀ (s : State) (k : Cid), s.req.lineIn.length ≠ s.params.lineSize →
    exec (.wrline k) s = .refused .malformedLineIn

/-- R144: an invalidation changes the state of the way and nothing else: tag, data and its place in ORDER stay, and so
do every other entry and everything outside the entry arrays. -/
def Obligations.InvalidationKeepsTheSlot : Prop :=
  ∀ (s : State) (j : Nat) (a : Addr) (cs : CacheSet) (w : Nat),
    s.setAt j a = some cs → s.lookup j a = some w →
      ∃ ds, (invalidateCopy j a s).setAt j a = some ds ∧ ds.head = cs.head ∧ ds.order = cs.order ∧
        (∀ v, ds.ways[v]? =
          (cs.ways[v]?).map fun e => if v = w then { e with state := .invalid } else e) ∧
        (∀ l i, ¬ s.isSlotOf l i j a → (invalidateCopy j a s).getSet l i = s.getSet l i) ∧
        invalidateCopy j a s = { s with arrays := (invalidateCopy j a s).arrays }

/-! ### Ordering -/

/-- R66: a word stored through one cache is what the next fetch of it through another cache returns, with no action in
between. -/
def Obligations.StoreIsSeenByTheNextFetch : Prop :=
  ∀ (s : State) (kd ki : Cid) (a : Addr) (v : Dword) (b : Nat),
    Inv s → s.fault.valid = false → kd.toNat < s.params.nCaches → ki.toNat < s.params.nCaches →
    AliasFree s b → (∀ x ∈ accessBytes a 4, s.inWindow b x ∧ writeHandler s.params x = none) →
    s.queue = [Request.make (.putW kd) a v [], Request.make (.getW ki) a 0 []] →
      ∃ t, Sys2Proof.core.run 2 s = .next t ∧
        t.responses = s.responses ++
          [{ status := .ok, rdata := none, lineOut := none },
           { status := .ok, rdata := some ((v.setWidth 32).setWidth 64), lineOut := none }]

/-- R63: free of aliasing, a run of GET, PUT and RDLINE requests, through any caches in any order, completes, gives the
responses of a flat memory and leaves its contents as the coherent values. (Runs with WRLINE, which can fault, are
RunWithLineWritesIsAFlatMemory.) -/
def Obligations.RunOfRequestsIsAFlatMemory : Prop :=
  ∀ (s : State) (b : Nat), Inv s → s.fault.valid = false → AliasFree s b →
    (∀ r ∈ s.queue, s.plainRequest b r) →
      ∃ t, Sys2Proof.core.run s.queue.length s = .next t ∧ t.queue = [] ∧ Inv t ∧ AliasFree t b ∧
        t.responses = s.responses ++ (flatRun s.params s.queue s.view).1 ∧
        ∀ x, s.inWindow b x → t.view x = (flatRun s.params s.queue s.view).2 x

/-- Each pseudo-request is exactly one request: the word of R83 with the address and, for a store, the value given; an
instruction fetch is the one of its width (R169). (The operands that R83 leaves unused are 0 and empty: the model's form,
log entry 20.) -/
def Obligations.PseudoRequestsAreTheirWords : Prop :=
  ∀ (a : Addr) (v : Dword),
    ifetchH a = { word := 0x10, addr := a, wdata := 0, lineIn := [] } ∧
    ifetchW a = { word := 0x20, addr := a, wdata := 0, lineIn := [] } ∧
    loadB a = { word := 0x40, addr := a, wdata := 0, lineIn := [] } ∧
    loadH a = { word := 0x50, addr := a, wdata := 0, lineIn := [] } ∧
    loadW a = { word := 0x60, addr := a, wdata := 0, lineIn := [] } ∧
    loadD a = { word := 0x70, addr := a, wdata := 0, lineIn := [] } ∧
    storeB a v = { word := 0x41, addr := a, wdata := v, lineIn := [] } ∧
    storeH a v = { word := 0x51, addr := a, wdata := v, lineIn := [] } ∧
    storeW a v = { word := 0x61, addr := a, wdata := v, lineIn := [] } ∧
    storeD a v = { word := 0x71, addr := a, wdata := v, lineIn := [] } ∧
    instructionFetch .two a = { word := 0x10, addr := a, wdata := 0, lineIn := [] } ∧
    instructionFetch .four a = { word := 0x20, addr := a, wdata := 0, lineIn := [] }

/-! ### Runs that go wrong -/

/-- R180: a run that reaches the fault state has gone wrong, and no continuation of it ever ends well; so has a run that
is stuck. For every state, well-formed or not. -/
def Obligations.RunThatReachesTheFaultStateHasGoneWrong : Prop :=
  (∀ (s t : State) (m n : Nat), Sys2Proof.core.run m s = .next t → t.fault.valid = true →
    runVerdict m s = .wrong ∧ runVerdict (m + n) s = .wrong) ∧
  ∀ (s : State) (m n : Nat), runVerdict m s = .wrong → runVerdict (m + n) s = .wrong

/-! ### Multi-byte accesses, byte by byte -/

/-- R156, R59: a GET of n bytes is n get_byte operations at ADDR, ADDR + 1, ... modulo 2^64, each in the state the one
before left and each leaving what an RDLINE of its line leaves; byte j of RDATA is VIEW of its address in that state, and
the bytes above are 0. At every address: aliases and the wrap at 2^64 included. -/
def Obligations.GetReadsByteByByte : Prop :=
  ∀ (s : State) (i : Instr) (n : Nat), getWidth i = some n → Ready s i →
    ∃ (st : Nat → State) (v : Dword), st 0 = s ∧
      (∀ j < n,
        getByte i.cid.toNat (byteAddr s.req.addr j) (st j) = .ok (v.extractLsb' (8 * j) 8) (st (j + 1)) ∧
        (st j).afterRdline (st (j + 1)) i.cid (byteAddr s.req.addr j) ∧
        v.extractLsb' (8 * j) 8 = (st j).view (byteAddr s.req.addr j) ∧ Inv (st (j + 1))) ∧
      v.toNat < 2 ^ (8 * n) ∧
      exec i s = .next { st n with
        responses := s.responses ++ [{ status := .ok, rdata := some v, lineOut := none }] }

/-- R159, R59, R76: a PUT of n bytes is n put_byte operations of byte j of WDATA at ADDR + j modulo 2^64, each in the
state the one before left. A byte a write handler takes is one event and nothing else; every other byte leaves what an
RDLINE of its line and a WRLINE of it with the byte set leave (R158): its line Modified in the named cache with that byte
changed, and no other copy. At every address: aliases and the wrap at 2^64 included. -/
def Obligations.PutWritesByteByByte : Prop :=
  ∀ (s : State) (i : Instr) (n : Nat), putWidth i = some n → Ready s i →
    ∃ st : Nat → State, st 0 = s ∧
      (∀ j < n,
        let a := byteAddr s.req.addr j
        let b := s.req.wdata.extractLsb' (8 * j) 8
        putByte i.cid.toNat a b (st j) = .ok () (st (j + 1)) ∧ Inv (st (j + 1)) ∧
        (∀ d, writeHandler s.params a = some d →
          st (j + 1) = { st j with devlog := (st j).devlog ++ [{ device := d, addr := a, byte := b }] }) ∧
        (writeHandler s.params a = none →
          (st j).afterReadWrite (st (j + 1)) i.cid a
            (((st j).lineView a).set (offset s.params.lineSize a) b) ∧
          (st (j + 1)).cohAt i.cid.toNat a = .modified ∧
          (st (j + 1)).dataAt i.cid.toNat a = ((st j).lineView a).set (offset s.params.lineSize a) b ∧
          (∀ l ∈ s.reg, l ≠ i.cid.toNat → (st (j + 1)).cohAt l a = .invalid) ∧
          (st (j + 1)).view a = b)) ∧
      exec i s = .next { st n with
        responses := s.responses ++ [{ status := .ok, rdata := none, lineOut := none }] }

/-! ### WRLINE in the flat memory -/

/-- R143, R46: a WRLINE of a line valid in the named cache makes VIEW of the line's bytes LINE_IN and changes VIEW of no
other address; it keeps the block free of aliasing. -/
def Obligations.WrlineUpdatesTheFlatMemory : Prop :=
  ∀ (s : State) (k : Cid) (b : Nat), Ready s (.wrline k) → AliasFree s b →
    s.req.lineIn.length = s.params.lineSize → s.lookup k.toNat s.req.addr ≠ none →
      ∃ t, exec (.wrline k) s = .next t ∧ AliasFree t b ∧
        ∀ x, (lineBase s.params.lineSize x = lineBase s.params.lineSize s.req.addr →
            s.req.lineIn[offset s.params.lineSize x]? = some (t.view x)) ∧
          (lineBase s.params.lineSize x ≠ lineBase s.params.lineSize s.req.addr → t.view x = s.view x)

/-- R63: free of aliasing, a run of requests of all four kinds, WRLINE included, through any caches in any order, gives
the responses of a flat memory and leaves its contents as the coherent values, provided the run does not go wrong in the
sense of R180; it can go wrong only by a WRLINE of a line not valid in its cache (R184, R209). -/
def Obligations.RunWithLineWritesIsAFlatMemory : Prop :=
  ∀ (s : State) (b : Nat), Inv s → s.fault.valid = false → AliasFree s b →
    (∀ r ∈ s.queue, s.flatRequest b r) → runVerdict s.queue.length s ≠ .wrong →
      ∃ t, Sys2Proof.core.run s.queue.length s = .next t ∧ verdict (.next t) = .well ∧ Inv t ∧ AliasFree t b ∧
        t.responses = s.responses ++ (flatRun s.params s.queue s.view).1 ∧
        ∀ x, s.inWindow b x → t.view x = (flatRun s.params s.queue s.view).2 x
end

