-- ==== Sys2Proof/Laws/Memory.lean ====
section
/-! SUPPORT. Laws of the backing store's list: reads after writes, and the canonical form kept by every
operation. -/

namespace Sys2Proof.Machine

/-- Strictly rising indices, all at least the bound, and no unlisted byte: the canonical form seen from its head. -/
theorem Memory.wf_iff (S : Nat) (m : List Host.Cell) :
    Memory.wf S m = true ↔
      m.Pairwise (fun x y => x.1 < y.1) ∧ ∀ c ∈ m, c.1 < S ∧ c.2 ≠ Memory.unlisted := by
  simp [Memory.wf, List.all_eq_true]

@[simp] theorem Memory.wf_nil (S : Nat) : Memory.wf S [] = true := by simp [Memory.wf_iff]

theorem Memory.wf_tail {S : Nat} {c : Host.Cell} {m : List Host.Cell} (h : Memory.wf S (c :: m) = true) :
    Memory.wf S m = true := by
  rw [Memory.wf_iff] at *
  exact ⟨h.1.of_cons, fun d hd => h.2 d (List.mem_cons_of_mem _ hd)⟩

/-- The indices that a write leaves listed are old ones and the one written. -/
theorem Memory.mem_write {m : List Host.Cell} {x : Nat} {b : Byte} {c : Host.Cell}
    (h : c ∈ Memory.write m x b) : c = (x, b) ∧ b ≠ Memory.unlisted ∨ c ∈ m := by
  induction m with
  | nil =>
    simp only [Memory.write] at h
    split at h
    · cases h
    · rename_i hb
      simp at h
      exact .inl ⟨h, hb⟩
  | cons d m ih =>
    obtain ⟨y, e⟩ := d
    simp only [Memory.write] at h
    split at h
    · split at h
      · exact .inr h
      · rename_i hb
        rcases List.mem_cons.1 h with h | h
        · exact .inl ⟨h, hb⟩
        · exact .inr h
    · split at h
      · split at h
        · exact .inr (List.mem_cons_of_mem _ h)
        · rename_i hb
          rcases List.mem_cons.1 h with h | h
          · exact .inl ⟨h, hb⟩
          · exact .inr (List.mem_cons_of_mem _ h)
      · rcases List.mem_cons.1 h with h | h
        · exact .inr (h ▸ List.mem_cons_self)
        · rcases ih h with h | h
          · exact .inl h
          · exact .inr (List.mem_cons_of_mem _ h)

/-- A write keeps the canonical form. -/
theorem Memory.write_wf {S : Nat} {m : List Host.Cell} {x : Nat} {b : Byte}
    (hm : Memory.wf S m = true) (hx : x < S) : Memory.wf S (Memory.write m x b) = true := by
  rw [Memory.wf_iff]
  refine ⟨?_, fun c hc => ?_⟩
  · rw [Memory.wf_iff] at hm
    induction m with
    | nil => simp only [Memory.write]; split <;> simp
    | cons d m ih =>
      obtain ⟨y, e⟩ := d
      obtain ⟨hp, ha⟩ := hm
      rw [List.pairwise_cons] at hp
      simp only [Memory.write]
      split
      · rename_i hxy
        split
        · exact List.pairwise_cons.2 hp
        · refine List.pairwise_cons.2 ⟨fun c hc => ?_, List.pairwise_cons.2 hp⟩
          rcases List.mem_cons.1 hc with rfl | hc
          · exact hxy
          · exact lt_trans hxy (hp.1 c hc)
      · split
        · rename_i hxy
          split
          · exact hp.2
          · refine List.pairwise_cons.2 ⟨fun c hc => ?_, hp.2⟩
            subst hxy
            exact hp.1 c hc
        · rename_i h1 h2
          refine List.pairwise_cons.2 ⟨fun c hc => ?_, ?_⟩
          · rcases Memory.mem_write hc with ⟨rfl, -⟩ | hc
            · show y < x
              omega
            · exact hp.1 c hc
          · exact ih ⟨hp.2, fun c hc => ha c (List.mem_cons_of_mem _ hc)⟩
  · rcases Memory.mem_write hc with ⟨rfl, hb⟩ | hc
    · exact ⟨hx, hb⟩
    · exact ((Memory.wf_iff S m).1 hm).2 c hc

/-- Writing consecutive bytes inside the store keeps the canonical form. -/
theorem Memory.writeBytes_wf {S : Nat} {m : List Host.Cell} {x : Nat} {bs : List Byte}
    (hm : Memory.wf S m = true) (hx : x + bs.length ≤ S) : Memory.wf S (Memory.writeBytes m x bs) = true := by
  induction bs generalizing m x with
  | nil => exact hm
  | cons b bs ih =>
    simp only [List.length_cons] at hx
    exact ih (Memory.write_wf hm (x := x) (by omega)) (by omega)

/-- A filled store is in canonical form, whatever the launch input. -/
theorem Memory.load_wf (S : Nat) (m : List Host.Cell) : Memory.wf S (Memory.load S m) = true := by
  induction m with
  | nil => simp [Memory.load]
  | cons c m ih =>
    simp only [Memory.load]
    split
    · exact Memory.write_wf ih ‹_›
    · exact ih

/-- MemWrite keeps the canonical form (R52). -/
theorem memWrite_wf {s : State} {a : Addr} {bs : List Byte} (hS : 0 < s.params.storeSize)
    (hm : Memory.wf s.params.storeSize s.mem = true) :
    Memory.wf s.params.storeSize (memWrite a bs s).mem = true := by
  have := Nat.mod_lt a.toNat hS
  refine Memory.writeBytes_wf hm ?_
  simp only [List.length_take, fitting]
  omega

/-- The reset state's memory is in canonical form. -/
theorem reset_mem_wf : Memory.wf State.reset.params.storeSize State.reset.mem = true := by decide

/-- In a canonical list every index below the first is unlisted. -/
theorem Memory.read_below {S : Nat} {m : List Host.Cell} {y : Nat} {e : Byte} {x : Nat}
    (hm : Memory.wf S ((y, e) :: m) = true) (hx : x < y) :
    Memory.read ((y, e) :: m) x = Memory.unlisted := by
  have key : ∀ l : List Host.Cell, (∀ c ∈ l, x < c.1) → Memory.read l x = Memory.unlisted := by
    intro l hl
    induction l with
    | nil => rfl
    | cons c l ih =>
      have h1 := hl c List.mem_cons_self
      simp only [Memory.read]
      rw [if_neg (by omega)]
      exact ih fun d hd => hl d (List.mem_cons_of_mem _ hd)
  refine key _ fun c hc => ?_
  rcases List.mem_cons.1 hc with rfl | hc
  · exact hx
  · exact lt_trans hx ((List.pairwise_cons.1 ((Memory.wf_iff S _).1 hm).1).1 c hc)

/-- A read at the index written gives the byte written. -/
theorem Memory.read_write_same {S : Nat} {m : List Host.Cell} (hm : Memory.wf S m = true) (x : Nat)
    (b : Byte) : Memory.read (Memory.write m x b) x = b := by
  induction m with
  | nil =>
    simp only [Memory.write]
    split
    · rename_i h; simp [Memory.read, h]
    · simp [Memory.read]
  | cons d m ih =>
    obtain ⟨y, e⟩ := d
    simp only [Memory.write]
    split
    · rename_i hxy
      split
      · rename_i hb
        rw [Memory.read_below hm hxy, hb]
      · simp [Memory.read]
    · split
      · rename_i hxy
        subst hxy
        split
        · rename_i hb
          cases m with
          | nil => simp [Memory.read, hb]
          | cons c m =>
            obtain ⟨z, f⟩ := c
            have hz : x < z :=
              (List.pairwise_cons.1 ((Memory.wf_iff S _).1 hm).1).1 (z, f) List.mem_cons_self
            rw [Memory.read_below (Memory.wf_tail hm) hz, hb]
        · simp [Memory.read]
      · rename_i h1 h2
        simp only [Memory.read]
        rw [if_neg (Ne.symm h2)]
        exact ih (Memory.wf_tail hm)

/-- A write leaves every other index alone. -/
theorem Memory.read_write_other (m : List Host.Cell) {x y : Nat} (b : Byte) (h : y ≠ x) :
    Memory.read (Memory.write m x b) y = Memory.read m y := by
  induction m with
  | nil =>
    simp only [Memory.write]
    split
    · rfl
    · simp [Memory.read, Ne.symm h]
  | cons d m ih =>
    obtain ⟨z, e⟩ := d
    simp only [Memory.write]
    split
    · split
      · rfl
      · simp [Memory.read, Ne.symm h]
    · split
      · rename_i hxz
        subst hxz
        split
        · simp [Memory.read, Ne.symm h]
        · simp [Memory.read, Ne.symm h]
      · simp only [Memory.read]
        split
        · rfl
        · exact ih

/-- Consecutive writes leave every index outside them alone. -/
theorem Memory.read_writeBytes_other (m : List Host.Cell) (bs : List Byte) {x y : Nat}
    (h : y < x ∨ x + bs.length ≤ y) : Memory.read (Memory.writeBytes m x bs) y = Memory.read m y := by
  induction bs generalizing m x with
  | nil => rfl
  | cons b bs ih =>
    simp only [List.length_cons] at h
    simp only [Memory.writeBytes]
    rw [ih _ (by omega), Memory.read_write_other _ _ (by omega)]

/-- Consecutive writes put each byte at its place. -/
theorem Memory.read_writeBytes {S : Nat} {m : List Host.Cell} {bs : List Byte} {x j : Nat} {b : Byte}
    (hm : Memory.wf S m = true) (hx : x + bs.length ≤ S) (hb : bs[j]? = some b) :
    Memory.read (Memory.writeBytes m x bs) (x + j) = b := by
  induction bs generalizing m x j with
  | nil => simp at hb
  | cons c bs ih =>
    simp only [List.length_cons] at hx
    simp only [Memory.writeBytes]
    cases j with
    | zero =>
      simp only [List.getElem?_cons_zero, Option.some.injEq] at hb
      subst hb
      rw [Memory.read_writeBytes_other _ _ (by omega)]
      exact Memory.read_write_same hm x c
    | succ j =>
      simp only [List.getElem?_cons_succ] at hb
      have := ih (Memory.write_wf hm (x := x) (b := c) (by omega)) (x := x + 1) (by omega) hb
      rwa [show x + (j + 1) = x + 1 + j by omega]

@[simp] theorem Memory.readBytes_length (m : List Host.Cell) (x n : Nat) :
    (Memory.readBytes m x n).length = n := by
  induction n generalizing x with
  | zero => rfl
  | succ n ih => simp [Memory.readBytes, ih]

/-- The j-th of consecutive bytes read. -/
theorem Memory.readBytes_getElem? (m : List Host.Cell) (x n j : Nat) (h : j < n) :
    (Memory.readBytes m x n)[j]? = some (Memory.read m (x + j)) := by
  induction n generalizing x j with
  | zero => omega
  | succ n ih =>
    cases j with
    | zero => simp [Memory.readBytes]
    | succ j =>
      simp only [Memory.readBytes, List.getElem?_cons_succ]
      rw [ih (x + 1) j (by omega), show x + 1 + j = x + (j + 1) by omega]

@[simp] theorem freeBytes_length (d n : Nat) : (freeBytes d n).length = n := by
  induction n generalizing d with
  | zero => rfl
  | succ n ih => simp [freeBytes, ih]

end Sys2Proof.Machine
end

