-- ==== Sys2Proof/Laws/Sets.lean ====
section
/-! SUPPORT. Laws of the operations on one set: what a change of one way leaves, and what ORDER depends on. -/

namespace Sys2Proof.Machine

@[simp] theorem modifyWay_head (cs : CacheSet) (w f) : (cs.modifyWay w f).head = cs.head := rfl

@[simp] theorem modifyWay_length (cs : CacheSet) (w f) : (cs.modifyWay w f).ways.length = cs.ways.length := by
  simp [CacheSet.modifyWay]

/-- The ways of a set after a change of one way. -/
theorem modifyWay_getElem? (cs : CacheSet) (w v : Nat) (f : Entry → Entry) :
    (cs.modifyWay w f).ways[v]? = (cs.ways[v]?).map fun e => if w = v then f e else e := by
  simp only [CacheSet.modifyWay, List.getElem?_modify]
  cases cs.ways[v]? <;> simp

@[simp] theorem fill_head (cs : CacheSet) (w t d) : (cs.fill w t d).head = cs.head := rfl
@[simp] theorem overwrite_head (cs : CacheSet) (w d) : (cs.overwrite w d).head = cs.head := rfl
@[simp] theorem setCoh_head (cs : CacheSet) (w c) : (cs.setCoh w c).head = cs.head := rfl

@[simp] theorem fill_length (cs : CacheSet) (w t d) : (cs.fill w t d).ways.length = cs.ways.length :=
  modifyWay_length ..
@[simp] theorem overwrite_length (cs : CacheSet) (w d) : (cs.overwrite w d).ways.length = cs.ways.length :=
  modifyWay_length ..
@[simp] theorem setCoh_length (cs : CacheSet) (w c) : (cs.setCoh w c).ways.length = cs.ways.length :=
  modifyWay_length ..

/-- The ways of a set after a fill (R126, R130). -/
theorem fill_getElem? (cs : CacheSet) (w v : Nat) (t : Addr) (d : List Byte) :
    (cs.fill w t d).ways[v]? =
      (cs.ways[v]?).map fun e => if w = v then { e with state := .shared, tag := t, data := d } else e :=
  modifyWay_getElem? ..

/-- The ways of a set after an overwrite (R143). -/
theorem overwrite_getElem? (cs : CacheSet) (w v : Nat) (d : List Byte) :
    (cs.overwrite w d).ways[v]? =
      (cs.ways[v]?).map fun e => if w = v then { e with state := .modified, data := d } else e :=
  modifyWay_getElem? ..

/-- The ways of a set after a change of state (R124, R144). -/
theorem setCoh_getElem? (cs : CacheSet) (w v : Nat) (c : Coh) :
    (cs.setCoh w c).ways[v]? = (cs.ways[v]?).map fun e => if w = v then { e with state := c } else e :=
  modifyWay_getElem? ..

/-- The walk along `next` depends on the `next` links alone. -/
theorem follow_congr {cs ds : CacheSet}
    (h : ∀ w : Nat, (ds.ways[w]?).bind (fun e : Entry => e.next) = (cs.ways[w]?).bind (fun e : Entry => e.next))
    (stop n w : Nat) : ds.follow stop n w = cs.follow stop n w := by
  induction n generalizing w with
  | zero => rfl
  | succ n ih =>
    simp only [CacheSet.follow, h]
    cases (cs.ways[w]?).bind (fun e : Entry => e.next) with
    | none => rfl
    | some x => simp only [ih]

/-- ORDER depends on HEAD, the number of ways and the `next` links alone. -/
theorem order_congr {cs ds : CacheSet} (hh : ds.head = cs.head) (hl : ds.ways.length = cs.ways.length)
    (h : ∀ w : Nat, (ds.ways[w]?).bind (fun e : Entry => e.next) = (cs.ways[w]?).bind (fun e : Entry => e.next)) :
    ds.order = cs.order := by
  simp only [CacheSet.order, hh, hl]
  cases cs.head with
  | none => rfl
  | some x => exact follow_congr h ..

/-- A change of one way that keeps its `next` link keeps ORDER. -/
theorem modifyWay_order (cs : CacheSet) (w : Nat) (f : Entry → Entry) (hf : ∀ e, (f e).next = e.next) :
    (cs.modifyWay w f).order = cs.order := by
  refine order_congr rfl (modifyWay_length ..) fun v => ?_
  rw [modifyWay_getElem?]
  cases cs.ways[v]? with
  | none => rfl
  | some e =>
    simp only [Option.map_some, Option.bind_some]
    split
    · exact hf e
    · rfl

@[simp] theorem fill_order (cs : CacheSet) (w t d) : (cs.fill w t d).order = cs.order :=
  modifyWay_order cs w _ fun _ => rfl
@[simp] theorem overwrite_order (cs : CacheSet) (w d) : (cs.overwrite w d).order = cs.order :=
  modifyWay_order cs w _ fun _ => rfl
@[simp] theorem setCoh_order (cs : CacheSet) (w c) : (cs.setCoh w c).order = cs.order :=
  modifyWay_order cs w _ fun _ => rfl

/-- What a lookup in a set that hits says (R107): the way is valid with that tag, and it is the lowest such. -/
theorem find_eq_some {cs : CacheSet} {t : Addr} {w : Nat} :
    cs.find t = some w ↔
      ∃ h : w < cs.ways.length, Entry.holds t cs.ways[w] = true ∧
        ∀ v (hv : v < w), Entry.holds t (cs.ways[v]'(lt_trans hv h)) = false := by
  simp only [CacheSet.find, List.findIdx?_eq_some_iff_getElem, Bool.not_eq_true]

/-- What a lookup in a set that misses says (R107). -/
theorem find_eq_none {cs : CacheSet} {t : Addr} :
    cs.find t = none ↔ ∀ e ∈ cs.ways, Entry.holds t e = false := by
  simp [CacheSet.find, List.findIdx?_eq_none_iff]

/-- What an entry that holds a tag is. -/
theorem holds_iff {t : Addr} {e : Entry} :
    Entry.holds t e = true ↔ e.state.isValid = true ∧ e.tag = t := by
  simp [Entry.holds]

/-- The two ways a victim is chosen, and the one way there is none (R114, R115, R117). -/
theorem victim_eq_some {cs : CacheSet} {w : Nat} (h : cs.victim = some w) :
    cs.firstInvalid = some w ∨
      (cs.firstInvalid = none ∧ (∀ v < cs.ways.length, v ∈ cs.order) ∧
        ∃ x, cs.head = some x ∧ cs.tail x = some w) := by
  simp only [CacheSet.victim] at h
  split at h
  · rename_i v hv
    cases h
    exact .inl hv
  · rename_i hn
    split at h
    · rename_i hall
      refine .inr ⟨hn, ?_, ?_⟩
      · simpa [List.all_eq_true] using hall
      · cases hh : cs.head with
        | none => simp [hh] at h
        | some x => exact ⟨x, rfl, by simpa [hh] using h⟩
    · cases h

/-- Everything touch can do (R111): start a list, leave the head, or unlink and splice. -/
theorem touch_cases {cs ds : CacheSet} {w : Nat} (h : cs.touch w = some ds) :
    ∃ e, cs.ways[w]? = some e ∧
      ((cs.head = none ∧ ds = { ((cs.setPrev w w).setNext w w) with head := some w }) ∨
        (cs.head = some w ∧ ds = cs) ∨
        ∃ x cs1 t, cs.head = some x ∧ x ≠ w ∧ cs.unlink e = some cs1 ∧ cs1.tail x = some t ∧
          ds = cs1.splice w t x) := by
  simp only [CacheSet.touch] at h
  cases he : cs.ways[w]? with
  | none => simp [he] at h
  | some e =>
    simp only [he] at h
    refine ⟨e, rfl, ?_⟩
    cases hh : cs.head with
    | none =>
      simp only [hh, Option.some.injEq] at h
      exact .inl ⟨rfl, h.symm⟩
    | some x =>
      simp only [hh] at h
      by_cases hx : x = w
      · simp only [hx, ↓reduceIte, Option.some.injEq] at h
        exact .inr (.inl ⟨by rw [hx], h.symm⟩)
      · simp only [hx, ↓reduceIte] at h
        cases hu : cs.unlink e with
        | none => simp [hu] at h
        | some cs1 =>
          simp only [hu] at h
          cases ht : cs1.tail x with
          | none => simp [ht] at h
          | some t =>
            simp only [ht, Option.some.injEq] at h
            exact .inr (.inr ⟨x, cs1, t, rfl, hx, rfl, ht, h.symm⟩)

/-- Everything unlink can do: nothing for an unlinked way, else join its neighbours. -/
theorem unlink_cases {cs ds : CacheSet} {e : Entry} (h : cs.unlink e = some ds) :
    (e.next = none ∧ ds = cs) ∨
      ∃ p n, e.next = some n ∧ e.prev = some p ∧ p < cs.ways.length ∧ n < cs.ways.length ∧
        ds = (cs.setNext p n).setPrev n p := by
  simp only [CacheSet.unlink] at h
  cases hn : e.next with
  | none =>
    simp only [hn, Option.some.injEq] at h
    exact .inl ⟨rfl, h.symm⟩
  | some n =>
    simp only [hn] at h
    cases hp : e.prev with
    | none => simp [hp] at h
    | some p =>
      simp only [hp] at h
      split at h
      · rename_i hb
        simp only [Option.some.injEq] at h
        exact .inr ⟨p, n, rfl, rfl, hb.1, hb.2, h.symm⟩
      · cases h

/-- Touch changes links and HEAD only: a relation that every link write keeps holds of it. -/
theorem touch_keeps {cs ds : CacheSet} {w : Nat} (h : cs.touch w = some ds) :
    ds.ways.length = cs.ways.length ∧
      ∀ v : Nat, (ds.ways[v]?).map (fun e : Entry => (e.state, e.tag, e.data)) =
        (cs.ways[v]?).map (fun e : Entry => (e.state, e.tag, e.data)) := by
  have hset : ∀ (xs : CacheSet) (u : Nat) (f : Entry → Entry),
      (∀ e, ((f e).state, (f e).tag, (f e).data) = (e.state, e.tag, e.data)) →
      ∀ v : Nat, ((xs.modifyWay u f).ways[v]?).map (fun e : Entry => (e.state, e.tag, e.data)) =
        (xs.ways[v]?).map (fun e : Entry => (e.state, e.tag, e.data)) := by
    intro xs u f hf v
    rw [modifyWay_getElem?, Option.map_map]
    congr 1
    funext e
    simp only [Function.comp]
    split
    · exact hf e
    · rfl
  have hp : ∀ (xs : CacheSet) (u p v : Nat),
      ((xs.setPrev u p).ways[v]?).map (fun e : Entry => (e.state, e.tag, e.data)) =
        (xs.ways[v]?).map (fun e : Entry => (e.state, e.tag, e.data)) :=
    fun xs u p v => hset xs u (fun e => { e with prev := some p }) (fun _ => rfl) v
  have hn : ∀ (xs : CacheSet) (u p v : Nat),
      ((xs.setNext u p).ways[v]?).map (fun e : Entry => (e.state, e.tag, e.data)) =
        (xs.ways[v]?).map (fun e : Entry => (e.state, e.tag, e.data)) :=
    fun xs u p v => hset xs u (fun e => { e with next := some p }) (fun _ => rfl) v
  have hpl : ∀ (xs : CacheSet) (u p : Nat), (xs.setPrev u p).ways.length = xs.ways.length :=
    fun _ _ _ => modifyWay_length ..
  have hnl : ∀ (xs : CacheSet) (u p : Nat), (xs.setNext u p).ways.length = xs.ways.length :=
    fun _ _ _ => modifyWay_length ..
  obtain ⟨e, -, ⟨-, rfl⟩ | ⟨-, rfl⟩ | ⟨x, cs1, t, -, -, hu, -, rfl⟩⟩ := touch_cases h
  · exact ⟨by simp only [hnl, hpl], fun v => by simp only [hn, hp]⟩
  · exact ⟨rfl, fun _ => rfl⟩
  · have h1 : cs1.ways.length = cs.ways.length ∧
        ∀ v : Nat, (cs1.ways[v]?).map (fun e : Entry => (e.state, e.tag, e.data)) =
          (cs.ways[v]?).map (fun e : Entry => (e.state, e.tag, e.data)) := by
      rcases unlink_cases hu with ⟨-, rfl⟩ | ⟨p, n, -, -, -, -, rfl⟩
      · exact ⟨rfl, fun _ => rfl⟩
      · exact ⟨by simp only [hnl, hpl], fun v => by simp only [hn, hp]⟩
    refine ⟨?_, fun v => ?_⟩
    · simp only [CacheSet.splice, hnl, hpl, h1.1]
    · simp only [CacheSet.splice, hn, hp, h1.2]

end Sys2Proof.Machine
end

