-- ==== Sys2Proof/Laws/State.lean ====
section
/-! SUPPORT. One lemma per field per update of the state, and what the accessors read after an update. -/

namespace Sys2Proof.Machine

/-! ### raiseFault -/

@[simp] theorem raiseFault_params (s : State) (c k l a) : (s.raiseFault c k l a).params = s.params := rfl
@[simp] theorem raiseFault_arrays (s : State) (c k l a) : (s.raiseFault c k l a).arrays = s.arrays := rfl
@[simp] theorem raiseFault_reg (s : State) (c k l a) : (s.raiseFault c k l a).reg = s.reg := rfl
@[simp] theorem raiseFault_mem (s : State) (c k l a) : (s.raiseFault c k l a).mem = s.mem := rfl
@[simp] theorem raiseFault_devlog (s : State) (c k l a) : (s.raiseFault c k l a).devlog = s.devlog := rfl
@[simp] theorem raiseFault_fault (s : State) (c k l a) :
    (s.raiseFault c k l a).fault = FaultReg.raised c k l a := rfl
@[simp] theorem raiseFault_queue (s : State) (c k l a) : (s.raiseFault c k l a).queue = s.queue := rfl
@[simp] theorem raiseFault_req (s : State) (c k l a) : (s.raiseFault c k l a).req = s.req := rfl
@[simp] theorem raiseFault_responses (s : State) (c k l a) :
    (s.raiseFault c k l a).responses = s.responses := rfl
@[simp] theorem raiseFault_draws (s : State) (c k l a) : (s.raiseFault c k l a).draws = s.draws := rfl

/-! ### respond -/

@[simp] theorem respond_params (s : State) (r : Response) : (s.respond r).params = s.params := rfl
@[simp] theorem respond_arrays (s : State) (r : Response) : (s.respond r).arrays = s.arrays := rfl
@[simp] theorem respond_reg (s : State) (r : Response) : (s.respond r).reg = s.reg := rfl
@[simp] theorem respond_mem (s : State) (r : Response) : (s.respond r).mem = s.mem := rfl
@[simp] theorem respond_devlog (s : State) (r : Response) : (s.respond r).devlog = s.devlog := rfl
@[simp] theorem respond_fault (s : State) (r : Response) : (s.respond r).fault = s.fault := rfl
@[simp] theorem respond_queue (s : State) (r : Response) : (s.respond r).queue = s.queue := rfl
@[simp] theorem respond_req (s : State) (r : Response) : (s.respond r).req = s.req := rfl
@[simp] theorem respond_responses (s : State) (r : Response) :
    (s.respond r).responses = s.responses ++ [r] := rfl
@[simp] theorem respond_draws (s : State) (r : Response) : (s.respond r).draws = s.draws := rfl

/-! ### accept -/

@[simp] theorem accept_params (s : State) (r rest) : (s.accept r rest).params = s.params := rfl
@[simp] theorem accept_arrays (s : State) (r rest) : (s.accept r rest).arrays = s.arrays := rfl
@[simp] theorem accept_reg (s : State) (r rest) : (s.accept r rest).reg = s.reg := rfl
@[simp] theorem accept_mem (s : State) (r rest) : (s.accept r rest).mem = s.mem := rfl
@[simp] theorem accept_devlog (s : State) (r rest) : (s.accept r rest).devlog = s.devlog := rfl
@[simp] theorem accept_fault (s : State) (r rest) : (s.accept r rest).fault = s.fault := rfl
@[simp] theorem accept_queue (s : State) (r rest) : (s.accept r rest).queue = rest := rfl
@[simp] theorem accept_req (s : State) (r rest) : (s.accept r rest).req = r := rfl
@[simp] theorem accept_responses (s : State) (r rest) : (s.accept r rest).responses = s.responses := rfl
@[simp] theorem accept_draws (s : State) (r rest) : (s.accept r rest).draws = s.draws := rfl

/-! ### putSet -/

@[simp] theorem putSet_params (s : State) (k i cs) : (s.putSet k i cs).params = s.params := rfl
@[simp] theorem putSet_reg (s : State) (k i cs) : (s.putSet k i cs).reg = s.reg := rfl
@[simp] theorem putSet_mem (s : State) (k i cs) : (s.putSet k i cs).mem = s.mem := rfl
@[simp] theorem putSet_devlog (s : State) (k i cs) : (s.putSet k i cs).devlog = s.devlog := rfl
@[simp] theorem putSet_fault (s : State) (k i cs) : (s.putSet k i cs).fault = s.fault := rfl
@[simp] theorem putSet_queue (s : State) (k i cs) : (s.putSet k i cs).queue = s.queue := rfl
@[simp] theorem putSet_req (s : State) (k i cs) : (s.putSet k i cs).req = s.req := rfl
@[simp] theorem putSet_responses (s : State) (k i cs) : (s.putSet k i cs).responses = s.responses := rfl
@[simp] theorem putSet_draws (s : State) (k i cs) : (s.putSet k i cs).draws = s.draws := rfl

/-! ### memWrite -/

@[simp] theorem memWrite_params (s : State) (a bs) : (memWrite a bs s).params = s.params := rfl
@[simp] theorem memWrite_arrays (s : State) (a bs) : (memWrite a bs s).arrays = s.arrays := rfl
@[simp] theorem memWrite_reg (s : State) (a bs) : (memWrite a bs s).reg = s.reg := rfl
@[simp] theorem memWrite_devlog (s : State) (a bs) : (memWrite a bs s).devlog = s.devlog := rfl
@[simp] theorem memWrite_fault (s : State) (a bs) : (memWrite a bs s).fault = s.fault := rfl
@[simp] theorem memWrite_queue (s : State) (a bs) : (memWrite a bs s).queue = s.queue := rfl
@[simp] theorem memWrite_req (s : State) (a bs) : (memWrite a bs s).req = s.req := rfl
@[simp] theorem memWrite_responses (s : State) (a bs) : (memWrite a bs s).responses = s.responses := rfl
@[simp] theorem memWrite_draws (s : State) (a bs) : (memWrite a bs s).draws = s.draws := rfl

/-! ### memRead -/

@[simp] theorem memRead_params (s : State) (a n) : (memRead a n s).2.params = s.params := rfl
@[simp] theorem memRead_arrays (s : State) (a n) : (memRead a n s).2.arrays = s.arrays := rfl
@[simp] theorem memRead_reg (s : State) (a n) : (memRead a n s).2.reg = s.reg := rfl
@[simp] theorem memRead_mem (s : State) (a n) : (memRead a n s).2.mem = s.mem := rfl
@[simp] theorem memRead_devlog (s : State) (a n) : (memRead a n s).2.devlog = s.devlog := rfl
@[simp] theorem memRead_fault (s : State) (a n) : (memRead a n s).2.fault = s.fault := rfl
@[simp] theorem memRead_queue (s : State) (a n) : (memRead a n s).2.queue = s.queue := rfl
@[simp] theorem memRead_req (s : State) (a n) : (memRead a n s).2.req = s.req := rfl
@[simp] theorem memRead_responses (s : State) (a n) : (memRead a n s).2.responses = s.responses := rfl

/-! ### devWrite -/

@[simp] theorem devWrite_params (s : State) (d a b) : (devWrite d a b s).params = s.params := rfl
@[simp] theorem devWrite_arrays (s : State) (d a b) : (devWrite d a b s).arrays = s.arrays := rfl
@[simp] theorem devWrite_reg (s : State) (d a b) : (devWrite d a b s).reg = s.reg := rfl
@[simp] theorem devWrite_mem (s : State) (d a b) : (devWrite d a b s).mem = s.mem := rfl
@[simp] theorem devWrite_devlog (s : State) (d a b) :
    (devWrite d a b s).devlog = s.devlog ++ [{ device := d, addr := a, byte := b }] := rfl
@[simp] theorem devWrite_fault (s : State) (d a b) : (devWrite d a b s).fault = s.fault := rfl
@[simp] theorem devWrite_queue (s : State) (d a b) : (devWrite d a b s).queue = s.queue := rfl
@[simp] theorem devWrite_req (s : State) (d a b) : (devWrite d a b s).req = s.req := rfl
@[simp] theorem devWrite_responses (s : State) (d a b) : (devWrite d a b s).responses = s.responses := rfl
@[simp] theorem devWrite_draws (s : State) (d a b) : (devWrite d a b s).draws = s.draws := rfl

/-! ### Reading the arrays -/

/-- The sets a state holds depend on its arrays alone. -/
theorem getSet_congr {s t : State} (h : t.arrays = s.arrays) (k i : Nat) : t.getSet k i = s.getSet k i := by
  simp [State.getSet, h]

/-- What an address selects depends on the parameters and the arrays alone. -/
theorem locate_congr {s t : State} (hp : t.params = s.params) (ha : t.arrays = s.arrays) (k : Nat) (a : Addr) :
    t.locate k a = s.locate k a := by
  simp [State.locate, State.getSet, hp, ha]

theorem lookup_congr {s t : State} (hp : t.params = s.params) (ha : t.arrays = s.arrays) (k : Nat) (a : Addr) :
    t.lookup k a = s.lookup k a := by
  simp [State.lookup, locate_congr hp ha, hp]

theorem lineEntry_congr {s t : State} (hp : t.params = s.params) (ha : t.arrays = s.arrays) (k : Nat)
    (a : Addr) : t.lineEntry k a = s.lineEntry k a := by
  simp [State.lineEntry, locate_congr hp ha, hp]

/-- Writing a set that exists and reading it back. -/
theorem getSet_putSet_same {s : State} {k i : Nat} {cs cs0 : CacheSet} (h : s.getSet k i = some cs0) :
    (s.putSet k i cs).getSet k i = some cs := by
  simp only [State.getSet, State.putSet] at *
  cases hk : s.arrays[k]? with
  | none => simp [hk] at h
  | some x =>
    simp only [hk, Option.bind_some] at h
    have hi : i < x.length := by
      rw [List.getElem?_eq_some_iff] at h
      exact h.1
    simp [hk, hi]

/-- Writing one set leaves every other set alone. -/
theorem getSet_putSet_other {s : State} {k i j l : Nat} (cs : CacheSet) (h : ¬ (j = k ∧ l = i)) :
    (s.putSet k i cs).getSet j l = s.getSet j l := by
  simp only [State.getSet, State.putSet, List.getElem?_modify]
  cases s.arrays[j]? with
  | none => simp
  | some x =>
    by_cases hj : k = j
    · subst hj
      have hl : i ≠ l := fun e => h ⟨rfl, e.symm⟩
      simp [hl]
    · simp [hj]

@[simp] theorem putSet_arrays_length (s : State) (k i cs) :
    (s.putSet k i cs).arrays.length = s.arrays.length := by
  simp [State.putSet]

/-- What locate answers: a configured cache and the set the address indexes in it. -/
theorem locate_eq_some {s : State} {k : Nat} {a : Addr} {c : CacheCfg} {cs : CacheSet} :
    s.locate k a = some (c, cs) ↔
      s.params.caches[k]? = some c ∧ s.getSet k (c.index s.params.lineSize a) = some cs := by
  simp only [State.locate]
  constructor
  · intro h
    split at h
    · cases h
    · rename_i c' hc
      split at h
      · cases h
      · rename_i cs' hcs
        cases h
        exact ⟨hc, hcs⟩
  · rintro ⟨hc, hcs⟩
    simp [hc, hcs]

/-- What a lookup that hits says. -/
theorem lookup_eq_some {s : State} {k : Nat} {a : Addr} {w : Nat} :
    s.lookup k a = some w ↔
      ∃ c cs, s.locate k a = some (c, cs) ∧ cs.find (c.tag s.params.lineSize a) = some w := by
  simp only [State.lookup]
  constructor
  · intro h
    split at h
    · cases h
    · rename_i c cs hl
      exact ⟨c, cs, hl, h⟩
  · rintro ⟨c, cs, hl, hf⟩
    simp [hl, hf]

end Sys2Proof.Machine
end

