-- ==== Sys2Proof/Laws/Ops.lean ====
section
/-! SUPPORT. One lemma per shared operation: everything it can do when it answers, and that the operations which
raise no fault never end a request. Later proofs cite these instead of unfolding an operation. -/

namespace Sys2Proof.Machine

/-! ### The outcome of an operation -/

@[simp] theorem bind_ok {α β : Type} (v : α) (s : State) (f : α → State → Res β) :
    (Res.ok v s).bind f = f v s := rfl
@[simp] theorem bind_raised {α β : Type} (s : State) (f : α → State → Res β) :
    (Res.raised s : Res α).bind f = .raised s := rfl
@[simp] theorem bind_stuck {α β : Type} (e : Fault) (f : α → State → Res β) :
    (Res.stuck e : Res α).bind f = .stuck e := rfl

theorem bind_eq_ok {α β : Type} {r : Res α} {f : α → State → Res β} {v : β} {t : State} :
    r.bind f = .ok v t ↔ ∃ u s, r = .ok u s ∧ f u s = .ok v t := by
  cases r <;> simp

theorem bind_eq_raised {α β : Type} {r : Res α} {f : α → State → Res β} {t : State} :
    r.bind f = .raised t ↔ r = .raised t ∨ ∃ u s, r = .ok u s ∧ f u s = .raised t := by
  cases r <;> simp

theorem bind_eq_stuck {α β : Type} {r : Res α} {f : α → State → Res β} {e : Fault} :
    r.bind f = .stuck e ↔ r = .stuck e ∨ ∃ u s, r = .ok u s ∧ f u s = .stuck e := by
  cases r <;> simp

/-- A request ends in a next state in two ways: with its response, or with STATUS = FAULT. -/
theorem finish_eq_next {r : Res Response} {t : State} :
    r.finish = .next t ↔
      (∃ v s, r = .ok v s ∧ t = s.respond v) ∨ ∃ s, r = .raised s ∧ t = s.respond Response.faulted := by
  cases r <;> simp [Res.finish, eq_comm]

@[simp] theorem finish_ne_refused (r : Res Response) (e : Refusal) : r.finish ≠ .refused e := by
  cases r <;> simp [Res.finish]

/-! ### Write-back and eviction -/

/-- What a write-back that answers does (R150, R151). -/
theorem writeBack_ok {k i w : Nat} {s t : State} {u : Unit} (h : writeBack k i w s = .ok u t) :
    ∃ c e o, s.params.caches[k]? = some c ∧ s.entry k i w = some e ∧
      storeOwner s.params levels k = some o ∧
      t = memWrite (c.addressOf s.params.lineSize e.tag i) e.data s := by
  simp only [writeBack] at h
  split at h
  · rename_i c e hc he
    split at h
    · cases h
    · rename_i o ho
      cases h
      exact ⟨c, e, o, hc, he, ho, rfl⟩
  · cases h

theorem writeBack_ne_raised (k i w : Nat) (s t : State) : writeBack k i w s ≠ .raised t := by
  intro h
  simp only [writeBack] at h
  split at h
  · split at h <;> cases h
  · cases h

/-- What the eviction of a way does (R125, R129): a write-back if it is Modified, else nothing. -/
theorem evict_ok {k i v : Nat} {s t : State} {u : Unit} (h : evict k i v s = .ok u t) :
    ∃ e, s.entry k i v = some e ∧
      ((e.state = .modified ∧ writeBack k i v s = .ok () t) ∨ (e.state ≠ .modified ∧ t = s)) := by
  simp only [evict] at h
  split at h
  · cases h
  · rename_i e he
    refine ⟨e, he, ?_⟩
    split at h
    · exact .inl ⟨‹_›, h⟩
    · cases h
      exact .inr ⟨‹_›, rfl⟩

theorem evict_ne_raised (k i v : Nat) (s t : State) : evict k i v s ≠ .raised t := by
  intro h
  simp only [evict] at h
  split at h
  · cases h
  · split at h
    · exact writeBack_ne_raised _ _ _ _ _ h
    · cases h

/-! ### The read path -/

/-- What placing a line does (R125, R126, R129, R130). -/
theorem place_ok {k : Nat} {a : Addr} {d d' : List Byte} {s t : State} (h : place k a d s = .ok d' t) :
    ∃ c cs v s1 cs1, s.locate k a = some (c, cs) ∧ cs.victim = some v ∧
      evict k (c.index s.params.lineSize a) v s = .ok () s1 ∧
      (cs.fill v (c.tag s.params.lineSize a) d).touch v = some cs1 ∧ d' = d ∧
      t = s1.putSet k (c.index s.params.lineSize a) cs1 := by
  simp only [place] at h
  split at h
  · cases h
  · rename_i c cs hl
    split at h
    · cases h
    · rename_i v hv
      obtain ⟨u, s1, he, h⟩ := bind_eq_ok.1 h
      split at h
      · cases h
      · rename_i cs1 ht
        cases h
        exact ⟨c, cs, v, s1, cs1, hl, hv, he, ht, rfl, rfl⟩

theorem place_ne_raised (k : Nat) (a : Addr) (d : List Byte) (s t : State) : place k a d s ≠ .raised t := by
  intro h
  simp only [place] at h
  split at h
  · cases h
  · split at h
    · cases h
    · rcases bind_eq_raised.1 h with h | ⟨u, s1, -, h⟩
      · exact evict_ne_raised _ _ _ _ _ h
      · split at h <;> cases h

/-- What a local hit does (R121). -/
theorem localHit_ok {k : Nat} {a : Addr} {w : Nat} {d : List Byte} {s t : State}
    (h : localHit k a w s = .ok d t) :
    ∃ c cs e cs1, s.locate k a = some (c, cs) ∧ cs.ways[w]? = some e ∧ cs.touch w = some cs1 ∧
      d = e.data ∧ t = s.putSet k (c.index s.params.lineSize a) cs1 := by
  simp only [localHit] at h
  split at h
  · cases h
  · rename_i c cs hl
    split at h
    · rename_i e cs1 he ht
      cases h
      exact ⟨c, cs, e, cs1, hl, he, ht, rfl, rfl⟩
    · cases h
    · cases h

theorem localHit_ne_raised (k : Nat) (a : Addr) (w : Nat) (s t : State) : localHit k a w s ≠ .raised t := by
  intro h
  simp only [localHit] at h
  split at h
  · cases h
  · split at h <;> cases h

/-- What handing out a sibling's copy does (R124, R127). -/
theorem siblingCopy_ok {j : Nat} {a : Addr} {d : List Byte} {s t : State} (h : siblingCopy j a s = .ok d t) :
    ∃ c cs w e, s.locate j a = some (c, cs) ∧ cs.find (c.tag s.params.lineSize a) = some w ∧
      cs.ways[w]? = some e ∧ d = e.data ∧
      ((e.state = .modified ∧ ∃ s1, writeBack j (c.index s.params.lineSize a) w s = .ok () s1 ∧
          t = s1.putSet j (c.index s.params.lineSize a) (cs.setCoh w .shared)) ∨
        (e.state ≠ .modified ∧ t = s)) := by
  simp only [siblingCopy] at h
  split at h
  · cases h
  · rename_i c cs hl
    split at h
    · cases h
    · rename_i w hw
      split at h
      · cases h
      · rename_i e he
        refine ⟨c, cs, w, e, hl, hw, he, ?_⟩
        split at h
        · rename_i hm
          obtain ⟨u, s1, hb, h⟩ := bind_eq_ok.1 h
          cases h
          exact ⟨rfl, .inl ⟨hm, s1, hb, rfl⟩⟩
        · rename_i hm
          cases h
          exact ⟨rfl, .inr ⟨hm, rfl⟩⟩

theorem siblingCopy_ne_raised (j : Nat) (a : Addr) (s t : State) : siblingCopy j a s ≠ .raised t := by
  intro h
  simp only [siblingCopy] at h
  split at h
  · cases h
  · split at h
    · cases h
    · split at h
      · cases h
      · split at h
        · rcases bind_eq_raised.1 h with h | ⟨u, s1, -, h⟩
          · exact writeBack_ne_raised _ _ _ _ _ h
          · cases h
        · cases h

/-- What a sibling found by the scan is (R122, R123). -/
theorem findSibling_some {s : State} {k j : Nat} {a : Addr} (h : findSibling s k a = some j) :
    j ∈ s.reg ∧ j ≠ k ∧ ∃ w, s.lookup j a = some w := by
  have h1 := List.find?_some h
  have h2 := List.mem_of_find?_eq_some h
  simp only [Bool.and_eq_true, decide_eq_true_eq] at h1
  exact ⟨h2, h1.1, Option.isSome_iff_exists.1 h1.2⟩

/-- No sibling found: no cache of REG but k holds the line (R122). -/
theorem findSibling_none {s : State} {k : Nat} {a : Addr} :
    findSibling s k a = none ↔ ∀ j ∈ s.reg, j ≠ k → s.lookup j a = none := by
  simp [findSibling, List.find?_eq_none]

/-- The four things read_line can do (R120): a local hit, a sibling fill, a fill from the next level, a fill from
the backing store. -/
theorem readLineN_ok {n k : Nat} {a : Addr} {d : List Byte} {s t : State}
    (h : readLineN (n + 1) k a s = .ok d t) :
    (∃ w, s.lookup k a = some w ∧ localHit k a w s = .ok d t) ∨
    (s.lookup k a = none ∧ ∃ j s1 d1, findSibling s k a = some j ∧ siblingCopy j a s = .ok d1 s1 ∧
      place k a d1 s1 = .ok d t) ∨
    (s.lookup k a = none ∧ findSibling s k a = none ∧ ∃ c, s.params.caches[k]? = some c ∧
      ((∃ m s1 d1, c.next = .nextLevel m ∧ readLineN n m a s = .ok d1 s1 ∧ place k a d1 s1 = .ok d t) ∨
        (c.next = .terminal ∧
          place k a (memRead (lineBase s.params.lineSize a) s.params.lineSize s).1
            (memRead (lineBase s.params.lineSize a) s.params.lineSize s).2 = .ok d t))) := by
  simp only [readLineN] at h
  split at h
  · exact .inl ⟨_, ‹_›, h⟩
  · rename_i hl
    refine .inr ?_
    split at h
    · rename_i j hj
      obtain ⟨d1, s1, h1, h2⟩ := bind_eq_ok.1 h
      exact .inl ⟨hl, j, s1, d1, hj, h1, h2⟩
    · rename_i hn
      refine .inr ⟨hl, hn, ?_⟩
      split at h
      · cases h
      · rename_i c hc
        refine ⟨c, hc, ?_⟩
        split at h
        · rename_i m hm
          obtain ⟨d1, s1, h1, h2⟩ := bind_eq_ok.1 h
          exact .inl ⟨m, s1, d1, hm, h1, h2⟩
        · rename_i ht
          exact .inr ⟨ht, h⟩

theorem readLineN_ne_raised (n k : Nat) (a : Addr) (s t : State) : readLineN n k a s ≠ .raised t := by
  induction n generalizing k s t with
  | zero => simp [readLineN]
  | succ n ih =>
    intro h
    simp only [readLineN] at h
    split at h
    · exact localHit_ne_raised _ _ _ _ _ h
    · split at h
      · rcases bind_eq_raised.1 h with h | ⟨_, _, -, h⟩
        · exact siblingCopy_ne_raised _ _ _ _ h
        · exact place_ne_raised _ _ _ _ _ h
      · split at h
        · cases h
        · split at h
          · rcases bind_eq_raised.1 h with h | ⟨_, _, -, h⟩
            · exact ih _ _ _ h
            · exact place_ne_raised _ _ _ _ _ h
          · exact place_ne_raised _ _ _ _ _ h

/-! ### The write path -/

/-- What an invalidation does (R142, R144): nothing where there is no copy, else the state of one way. -/
theorem invalidateCopy_cases (j : Nat) (a : Addr) (s : State) :
    (s.lookup j a = none ∧ invalidateCopy j a s = s) ∨
      ∃ c cs w, s.locate j a = some (c, cs) ∧ cs.find (c.tag s.params.lineSize a) = some w ∧
        invalidateCopy j a s = s.putSet j (c.index s.params.lineSize a) (cs.setCoh w .invalid) := by
  cases hl : s.locate j a with
  | none => exact .inl ⟨by simp [State.lookup, hl], by simp [invalidateCopy, hl]⟩
  | some x =>
    obtain ⟨c, cs⟩ := x
    cases hf : cs.find (c.tag s.params.lineSize a) with
    | none => exact .inl ⟨by simp [State.lookup, hl, hf], by simp [invalidateCopy, hl, hf]⟩
    | some w => exact .inr ⟨c, cs, w, rfl, hf, by simp [invalidateCopy, hl, hf]⟩

/-- What write_line does when it answers (R142, R143). -/
theorem writeLine_ok {k : Nat} {a : Addr} {d : List Byte} {s t : State} {u : Unit}
    (h : writeLine k a d s = .ok u t) :
    ∃ c cs w cs1, s.locate k a = some (c, cs) ∧ cs.find (c.tag s.params.lineSize a) = some w ∧
      (cs.overwrite w d).touch w = some cs1 ∧
      t = (invalidateOthers k a s.reg s).putSet k (c.index s.params.lineSize a) cs1 := by
  simp only [writeLine] at h
  split at h
  · cases h
  · rename_i c cs hl
    split at h
    · cases h
    · rename_i w hw
      split at h
      · cases h
      · rename_i cs1 ht
        cases h
        exact ⟨c, cs, w, cs1, hl, hw, ht, rfl⟩

/-- When write_line raises WRITE_MISS (R141), and what it leaves. -/
theorem writeLine_raised {k : Nat} {a : Addr} {d : List Byte} {s t : State}
    (h : writeLine k a d s = .raised t) :
    ∃ c cs, s.locate k a = some (c, cs) ∧ cs.find (c.tag s.params.lineSize a) = none ∧
      t = s.raiseFault .writeMiss (some k) (some c.level) (some a) := by
  simp only [writeLine] at h
  split at h
  · cases h
  · rename_i c cs hl
    split at h
    · rename_i hw
      cases h
      exact ⟨c, cs, hl, hw, rfl⟩
    · split at h <;> cases h

/-! ### The accessors -/

/-- What get_byte does when it answers (R155). -/
theorem getByte_ok {k : Nat} {a : Addr} {b : Byte} {s t : State} (h : getByte k a s = .ok b t) :
    ∃ buf, readLine k (lineBase s.params.lineSize a) s = .ok buf t ∧
      buf[offset s.params.lineSize a]? = some b := by
  simp only [getByte] at h
  obtain ⟨d, s1, h1, h2⟩ := bind_eq_ok.1 h
  split at h2
  · cases h2
  · rename_i b' hb
    cases h2
    exact ⟨d, h1, hb⟩

theorem getByte_ne_raised (k : Nat) (a : Addr) (s t : State) : getByte k a s ≠ .raised t := by
  intro h
  simp only [getByte] at h
  rcases bind_eq_raised.1 h with h | ⟨_, _, -, h⟩
  · exact readLineN_ne_raised _ _ _ _ _ h
  · split at h <;> cases h

/-- What get_byte of n + 1 bytes does when it answers: the first byte, then the rest (R156). -/
theorem getBytes_ok {k n : Nat} {a : Addr} {bs : List Byte} {s t : State}
    (h : getBytes k a (n + 1) s = .ok bs t) :
    ∃ b s1 bs1, getByte k a s = .ok b s1 ∧ getBytes k (a + 1) n s1 = .ok bs1 t ∧ bs = b :: bs1 := by
  simp only [getBytes] at h
  obtain ⟨b, s1, h1, h2⟩ := bind_eq_ok.1 h
  obtain ⟨bs1, s2, h3, h4⟩ := bind_eq_ok.1 h2
  cases h4
  exact ⟨b, s1, bs1, h1, h3, rfl⟩

theorem getBytes_ne_raised (k n : Nat) (a : Addr) (s t : State) : getBytes k a n s ≠ .raised t := by
  induction n generalizing a s t with
  | zero => simp [getBytes]
  | succ n ih =>
    intro h
    simp only [getBytes] at h
    rcases bind_eq_raised.1 h with h | ⟨_, _, -, h⟩
    · exact getByte_ne_raised _ _ _ _ h
    · rcases bind_eq_raised.1 h with h | ⟨_, _, -, h⟩
      · exact ih _ _ _ h
      · cases h

theorem getN_ok {k n : Nat} {a : Addr} {r : Response} {s t : State} (h : getN k a n s = .ok r t) :
    ∃ bs, getBytes k a n s = .ok bs t ∧ r = Response.read (littleEndian bs) := by
  simp only [getN] at h
  obtain ⟨bs, s1, h1, h2⟩ := bind_eq_ok.1 h
  cases h2
  exact ⟨bs, h1, rfl⟩

/-- What put_byte through the cache does when it answers (R158). -/
theorem putByteCached_ok {k : Nat} {a : Addr} {b : Byte} {s t : State} {u : Unit}
    (h : putByteCached k a b s = .ok u t) :
    ∃ buf s1, readLine k (lineBase s.params.lineSize a) s = .ok buf s1 ∧
      writeLine k (lineBase s.params.lineSize a) (buf.set (offset s.params.lineSize a) b) s1 = .ok u t := by
  simp only [putByteCached] at h
  exact bind_eq_ok.1 h

/-- The two things put_byte does (R157, R171). -/
theorem putByte_ok {k : Nat} {a : Addr} {b : Byte} {s t : State} {u : Unit} (h : putByte k a b s = .ok u t) :
    (∃ d, writeHandler s.params a = some d ∧ t = devWrite d a b s) ∨
      (writeHandler s.params a = none ∧ putByteCached k a b s = .ok u t) := by
  simp only [putByte] at h
  split at h
  · rename_i d hd
    cases h
    exact .inl ⟨d, hd, rfl⟩
  · exact .inr ⟨‹_›, h⟩

/-- What put_byte of a first byte and the rest does when it answers (R159). -/
theorem putBytes_ok {k : Nat} {a : Addr} {b : Byte} {bs : List Byte} {s t : State} {u : Unit}
    (h : putBytes k a (b :: bs) s = .ok u t) :
    ∃ s1, putByte k a b s = .ok () s1 ∧ putBytes k (a + 1) bs s1 = .ok u t := by
  simp only [putBytes] at h
  obtain ⟨v, s1, h1, h2⟩ := bind_eq_ok.1 h
  exact ⟨s1, h1, h2⟩

theorem putN_ok {k n : Nat} {a : Addr} {r : Response} {s t : State} (h : putN k a n s = .ok r t) :
    putBytes k a (s.req.putData n) s = .ok () t ∧ r = Response.done := by
  simp only [putN] at h
  obtain ⟨u, s1, h1, h2⟩ := bind_eq_ok.1 h
  cases h2
  exact ⟨h1, rfl⟩

@[simp] theorem putData_length (r : Request) (n : Nat) : (r.putData n).length = n := by
  simp [Request.putData]

end Sys2Proof.Machine
end

