-- ==== Sys2Proof/Laws/Frame.lean ====
section
/-! SUPPORT. What no operation changes: the parameters, REG, FAULT and the interface; a read changes no DEVLOG
either. One lemma per operation, by its own law in Laws/Ops.lean. -/

namespace Sys2Proof.Machine

/-- Everything but the arrays, MEM, DEVLOG and the count of free draws is unchanged. -/
structure SameFrame (s t : State) : Prop where
  params    : t.params = s.params
  reg       : t.reg = s.reg
  fault     : t.fault = s.fault
  queue     : t.queue = s.queue
  req       : t.req = s.req
  responses : t.responses = s.responses

theorem SameFrame.refl (s : State) : SameFrame s s := ⟨rfl, rfl, rfl, rfl, rfl, rfl⟩

theorem SameFrame.trans {s t u : State} (h : SameFrame s t) (g : SameFrame t u) : SameFrame s u :=
  ⟨g.params.trans h.params, g.reg.trans h.reg, g.fault.trans h.fault, g.queue.trans h.queue,
    g.req.trans h.req, g.responses.trans h.responses⟩

theorem SameFrame.putSet (s : State) (k i cs) : SameFrame s (s.putSet k i cs) := ⟨rfl, rfl, rfl, rfl, rfl, rfl⟩

theorem SameFrame.memWrite (s : State) (a bs) : SameFrame s (memWrite a bs s) :=
  ⟨rfl, rfl, rfl, rfl, rfl, rfl⟩

theorem SameFrame.memRead (s : State) (a n) : SameFrame s (memRead a n s).2 := ⟨rfl, rfl, rfl, rfl, rfl, rfl⟩

theorem SameFrame.devWrite (s : State) (d a b) : SameFrame s (devWrite d a b s) :=
  ⟨rfl, rfl, rfl, rfl, rfl, rfl⟩

theorem writeBack_frame {k i w : Nat} {s t : State} {u : Unit} (h : writeBack k i w s = .ok u t) :
    SameFrame s t ∧ t.devlog = s.devlog ∧ t.arrays = s.arrays ∧ t.draws = s.draws := by
  obtain ⟨c, e, o, -, -, -, rfl⟩ := writeBack_ok h
  exact ⟨SameFrame.memWrite .., rfl, rfl, rfl⟩

theorem evict_frame {k i v : Nat} {s t : State} {u : Unit} (h : evict k i v s = .ok u t) :
    SameFrame s t ∧ t.devlog = s.devlog ∧ t.arrays = s.arrays ∧ t.draws = s.draws := by
  obtain ⟨e, -, ⟨-, h⟩ | ⟨-, rfl⟩⟩ := evict_ok h
  · exact writeBack_frame h
  · exact ⟨SameFrame.refl _, rfl, rfl, rfl⟩

theorem place_frame {k : Nat} {a : Addr} {d d' : List Byte} {s t : State} (h : place k a d s = .ok d' t) :
    SameFrame s t ∧ t.devlog = s.devlog ∧ t.draws = s.draws := by
  obtain ⟨c, cs, v, s1, cs1, -, -, he, -, -, rfl⟩ := place_ok h
  obtain ⟨hf, hd, -, hw⟩ := evict_frame he
  exact ⟨hf.trans (SameFrame.putSet ..), hd, hw⟩

theorem localHit_frame {k : Nat} {a : Addr} {w : Nat} {d : List Byte} {s t : State}
    (h : localHit k a w s = .ok d t) :
    SameFrame s t ∧ t.devlog = s.devlog ∧ t.mem = s.mem ∧ t.draws = s.draws := by
  obtain ⟨c, cs, e, cs1, -, -, -, -, rfl⟩ := localHit_ok h
  exact ⟨SameFrame.putSet .., rfl, rfl, rfl⟩

theorem siblingCopy_frame {j : Nat} {a : Addr} {d : List Byte} {s t : State} (h : siblingCopy j a s = .ok d t) :
    SameFrame s t ∧ t.devlog = s.devlog ∧ t.draws = s.draws := by
  obtain ⟨c, cs, w, e, -, -, -, -, ⟨-, s1, hb, rfl⟩ | ⟨-, rfl⟩⟩ := siblingCopy_ok h
  · obtain ⟨hf, hd, -, hw⟩ := writeBack_frame hb
    exact ⟨hf.trans (SameFrame.putSet ..), hd, hw⟩
  · exact ⟨SameFrame.refl _, rfl, rfl⟩

theorem readLineN_frame {n k : Nat} {a : Addr} {d : List Byte} {s t : State} (h : readLineN n k a s = .ok d t) :
    SameFrame s t ∧ t.devlog = s.devlog := by
  induction n generalizing k d s t with
  | zero => simp [readLineN] at h
  | succ n ih =>
    rcases readLineN_ok h with ⟨w, -, h⟩ | ⟨-, j, s1, d1, -, h1, h2⟩ | ⟨-, -, c, -, h⟩
    · exact ⟨(localHit_frame h).1, (localHit_frame h).2.1⟩
    · have f1 := siblingCopy_frame h1
      have f2 := place_frame h2
      exact ⟨f1.1.trans f2.1, f2.2.1.trans f1.2.1⟩
    · rcases h with ⟨m, s1, d1, -, h1, h2⟩ | ⟨-, h⟩
      · have f1 := ih h1
        have f2 := place_frame h2
        exact ⟨f1.1.trans f2.1, f2.2.1.trans f1.2⟩
      · have f2 := place_frame h
        exact ⟨(SameFrame.memRead ..).trans f2.1, f2.2.1⟩

theorem invalidateCopy_frame (j : Nat) (a : Addr) (s : State) :
    SameFrame s (invalidateCopy j a s) ∧ (invalidateCopy j a s).devlog = s.devlog ∧
      (invalidateCopy j a s).mem = s.mem ∧ (invalidateCopy j a s).draws = s.draws := by
  rcases invalidateCopy_cases j a s with ⟨-, h⟩ | ⟨c, cs, w, -, -, h⟩ <;> rw [h]
  · exact ⟨SameFrame.refl _, rfl, rfl, rfl⟩
  · exact ⟨SameFrame.putSet .., rfl, rfl, rfl⟩

theorem invalidateOthers_frame (k : Nat) (a : Addr) (js : List Nat) (s : State) :
    SameFrame s (invalidateOthers k a js s) ∧ (invalidateOthers k a js s).devlog = s.devlog ∧
      (invalidateOthers k a js s).mem = s.mem ∧ (invalidateOthers k a js s).draws = s.draws := by
  induction js generalizing s with
  | nil => exact ⟨SameFrame.refl _, rfl, rfl, rfl⟩
  | cons j js ih =>
    simp only [invalidateOthers]
    split
    · exact ih s
    · obtain ⟨f, d, m, w⟩ := invalidateCopy_frame j a s
      obtain ⟨f', d', m', w'⟩ := ih (invalidateCopy j a s)
      exact ⟨f.trans f', d'.trans d, m'.trans m, w'.trans w⟩

theorem writeLine_frame {k : Nat} {a : Addr} {d : List Byte} {s t : State} {u : Unit}
    (h : writeLine k a d s = .ok u t) :
    SameFrame s t ∧ t.devlog = s.devlog ∧ t.mem = s.mem ∧ t.draws = s.draws := by
  obtain ⟨c, cs, w, cs1, -, -, -, rfl⟩ := writeLine_ok h
  obtain ⟨f, dl, m, dr⟩ := invalidateOthers_frame k a s.reg s
  exact ⟨f.trans (SameFrame.putSet ..), dl, m, dr⟩

theorem getByte_frame {k : Nat} {a : Addr} {b : Byte} {s t : State} (h : getByte k a s = .ok b t) :
    SameFrame s t ∧ t.devlog = s.devlog := by
  obtain ⟨buf, h1, -⟩ := getByte_ok h
  exact readLineN_frame h1

theorem getBytes_frame {k n : Nat} {a : Addr} {bs : List Byte} {s t : State} (h : getBytes k a n s = .ok bs t) :
    SameFrame s t ∧ t.devlog = s.devlog := by
  induction n generalizing a bs s with
  | zero =>
    simp only [getBytes] at h
    cases h
    exact ⟨SameFrame.refl _, rfl⟩
  | succ n ih =>
    obtain ⟨b, s1, bs1, h1, h2, -⟩ := getBytes_ok h
    have f1 := getByte_frame h1
    have f2 := ih h2
    exact ⟨f1.1.trans f2.1, f2.2.trans f1.2⟩

theorem putByteCached_frame {k : Nat} {a : Addr} {b : Byte} {s t : State} {u : Unit}
    (h : putByteCached k a b s = .ok u t) : SameFrame s t ∧ t.devlog = s.devlog := by
  obtain ⟨buf, s1, h1, h2⟩ := putByteCached_ok h
  have f1 := readLineN_frame h1
  have f2 := writeLine_frame h2
  exact ⟨f1.1.trans f2.1, f2.2.1.trans f1.2⟩

theorem putByte_frame {k : Nat} {a : Addr} {b : Byte} {s t : State} {u : Unit} (h : putByte k a b s = .ok u t) :
    SameFrame s t := by
  rcases putByte_ok h with ⟨d, -, rfl⟩ | ⟨-, h⟩
  · exact SameFrame.devWrite ..
  · exact (putByteCached_frame h).1

theorem putBytes_frame {k : Nat} {a : Addr} {bs : List Byte} {s t : State} {u : Unit}
    (h : putBytes k a bs s = .ok u t) : SameFrame s t := by
  induction bs generalizing a s with
  | nil =>
    simp only [putBytes] at h
    cases h
    exact SameFrame.refl _
  | cons b bs ih =>
    obtain ⟨s1, h1, h2⟩ := putBytes_ok h
    exact (putByte_frame h1).trans (ih h2)

/-! ### The step -/

/-- What taking a request can find (R70, R79, R180). -/
theorem fetch_cases (s : State) :
    (s.queue = [] ∧ fetch s = .idle) ∨
    ∃ r rest, s.queue = r :: rest ∧
      ((s.fault.valid = true ∧ fetch s = .refused) ∨
        (s.fault.valid = false ∧ ∃ e, decode s.params.nCaches r.word = .error e ∧
          fetch s = .illegal (s.accept r rest)) ∨
        (s.fault.valid = false ∧ ∃ i, decode s.params.nCaches r.word = .ok i ∧
          fetch s = .request i (s.accept r rest))) := by
  cases hq : s.queue with
  | nil => exact .inl ⟨rfl, by simp [fetch, hq]⟩
  | cons r rest =>
    refine .inr ⟨r, rest, rfl, ?_⟩
    cases hf : s.fault.valid with
    | true => exact .inl ⟨rfl, by simp [fetch, hq, hf]⟩
    | false =>
      cases hd : decode s.params.nCaches r.word with
      | error e => exact .inr (.inl ⟨rfl, e, rfl, by simp [fetch, hq, hf, hd]⟩)
      | ok i => exact .inr (.inr ⟨rfl, i, rfl, by simp [fetch, hq, hf, hd]⟩)

end Sys2Proof.Machine
end

