-- ==== Sys2Proof/Laws/PerInstr.lean ====
section
/-! SUPPORT. The per-instruction family EncodedFields: the word of a request has its CID, its SZ, its OP and zero
reserved bits in the fields of R71. -/

namespace Sys2Proof.Laws

/-- The fields of the word a request is encoded as (R71). -/
def EncodedFields.Statement (i : Instr) : Prop :=
  cidField (encode i) = i.cid ∧ szField (encode i) = i.szBits ∧ opField (encode i) = i.opBits ∧
    rsvdField (encode i) = 0

/-- The four fields of a concatenation of the four fields. -/
theorem encodedFields_of_parts (c : Cid) (z : BitVec 2) (o : BitVec 4) :
    cidField ((0 : BitVec 22) ++ c ++ z ++ o) = c ∧ szField ((0 : BitVec 22) ++ c ++ z ++ o) = z ∧
      opField ((0 : BitVec 22) ++ c ++ z ++ o) = o ∧ rsvdField ((0 : BitVec 22) ++ c ++ z ++ o) = 0 := by
  revert c z o
  decide

theorem EncodedFields.getB (c : Cid) : EncodedFields.Statement (.getB c) := encodedFields_of_parts ..
theorem EncodedFields.getH (c : Cid) : EncodedFields.Statement (.getH c) := encodedFields_of_parts ..
theorem EncodedFields.getW (c : Cid) : EncodedFields.Statement (.getW c) := encodedFields_of_parts ..
theorem EncodedFields.getD (c : Cid) : EncodedFields.Statement (.getD c) := encodedFields_of_parts ..
theorem EncodedFields.putB (c : Cid) : EncodedFields.Statement (.putB c) := encodedFields_of_parts ..
theorem EncodedFields.putH (c : Cid) : EncodedFields.Statement (.putH c) := encodedFields_of_parts ..
theorem EncodedFields.putW (c : Cid) : EncodedFields.Statement (.putW c) := encodedFields_of_parts ..
theorem EncodedFields.putD (c : Cid) : EncodedFields.Statement (.putD c) := encodedFields_of_parts ..
theorem EncodedFields.rdline (c : Cid) : EncodedFields.Statement (.rdline c) := encodedFields_of_parts ..
theorem EncodedFields.wrline (c : Cid) : EncodedFields.Statement (.wrline c) := encodedFields_of_parts ..

end Sys2Proof.Laws
end

