-- ==== Sys2Proof/Laws/Run.lean ====
section
/-! SUPPORT. When an outcome is judged wrong, and the run of one more step. -/

namespace Sys2Proof.Machine

/-- The three ways an outcome is wrong (R180, R183; log entry 24). -/
theorem verdict_eq_wrong {o : Host.Outcome State Fault Refusal} :
    verdict o = .wrong ↔
      (∃ t, o = .next t ∧ t.fault.valid = true) ∨ (∃ e, o = .fault e) ∨ o = .refused .blockFaulted := by
  cases o with
  | next t => by_cases h : t.fault.valid = true <;> by_cases hq : t.queue = [] <;> simp [verdict, h, hq]
  | fault e => simp [verdict]
  | refused r => by_cases h : r = .blockFaulted <;> simp [verdict, h]

@[simp] theorem run_zero (s : State) : Sys2Proof.core.run 0 s = .next s := rfl

theorem run_succ_next {n : Nat} {s t : State} (h : step s = .next t) :
    Sys2Proof.core.run (n + 1) s = Sys2Proof.core.run n t := by
  have h' : Sys2Proof.core.step s = .next t := h
  simp only [Host.Core.run, h']

end Sys2Proof.Machine
end

