-- ==== Sys2Proof/Machine/Assembler.lean ====
section
/-! DEFINITION. The textual form of a request (spec/30_encoding.md R82, R83), read from a list of characters: a
lower-case mnemonic, a space, operands separated by commas, a comment after `;`, an expected response after
`=>`. What R82 leaves open of the text is log entry 20. -/

namespace Sys2Proof.Machine

/-- The value of a digit in a base up to 16. -/
def asmDigit (base : Nat) (c : Char) : Option Nat :=
  let n := c.toNat
  let v : Option Nat :=
    if 48 ≤ n ∧ n ≤ 57 then some (n - 48)
    else if 97 ≤ n ∧ n ≤ 102 then some (n - 87)
    else if 65 ≤ n ∧ n ≤ 70 then some (n - 55)
    else none
  match v with
  | none => none
  | some d => if d < base then some d else none

/-- Digits of a base, most significant first, after the value read so far. -/
def asmDigits (base : Nat) : Nat → List Char → Option Nat
  | acc, [] => some acc
  | acc, c :: cs =>
    match asmDigit base c with
    | none => none
    | some d => asmDigits base (acc * base + d) cs

/-- A C-style integer (R82): `0x` or `0X` hexadecimal, a leading 0 octal, else decimal. DESIGN CHOICE (log entry 20):
R82 says no more than "C-style integers", and a sign, a suffix (u, l) or any other character that is no digit of the
base makes the text no integer. -/
def asmInt : List Char → Option Nat
  | [] => none
  | ['0'] => some 0
  | '0' :: 'x' :: c :: cs => asmDigits 16 0 (c :: cs)
  | '0' :: 'X' :: c :: cs => asmDigits 16 0 (c :: cs)
  | '0' :: cs => asmDigits 8 0 cs
  | cs => asmDigits 10 0 cs

/-- A 64-bit operand. DESIGN CHOICE (log entry 20): R82 is silent on a value of 2^64 or more, and the model takes it as
no operand. -/
def asmDword (cs : List Char) : Option Dword :=
  match asmInt cs with
  | none => none
  | some n => if n < 2 ^ 64 then some (BitVec.ofNat 64 n) else none

/-- A cache operand (R82): l1i, l1d, l2 or c<n>. DESIGN CHOICE (log entry 20): n is decimal, and an n of 16 or more,
which CID cannot hold (R71), is no cache operand. -/
def asmCache : List Char → Option Cid
  | ['l', '1', 'i'] => some l1iCid
  | ['l', '1', 'd'] => some l1dCid
  | ['l', '2'] => some l2Cid
  | 'c' :: d :: ds =>
    match asmDigits 10 0 (d :: ds) with
    | none => none
    | some n => if n < 16 then some (BitVec.ofNat 4 n) else none
  | _ => none

/-- The `<bytes>` operand (R82): hexadecimal bytes, offset 0 first. DESIGN CHOICE (log entry 20): two digits a byte, of
either case. -/
def asmBytes : List Char → Option (List Byte)
  | [] => some []
  | [_] => none
  | h :: l :: cs =>
    match asmDigits 16 0 [h, l], asmBytes cs with
    | some n, some bs => some (BitVec.ofNat 8 n :: bs)
    | _, _ => none

/-- Drop leading blanks. -/
def asmTrimLeft : List Char → List Char
  | [] => []
  | c :: cs => if c = ' ' then asmTrimLeft cs else c :: cs

/-- Drop blanks at both ends. -/
def asmTrim (cs : List Char) : List Char := (asmTrimLeft (asmTrimLeft cs).reverse).reverse

/-- The line without its comment and without its expected response. -/
def asmBody : List Char → List Char
  | [] => []
  | c :: cs =>
    if c = ';' then []
    else
      match cs with
      | [] => [c]
      | d :: ds => if c = '=' ∧ d = '>' then [] else c :: asmBody (d :: ds)

/-- Split at commas. -/
def asmSplit : List Char → List (List Char)
  | [] => [[]]
  | c :: cs =>
    match asmSplit cs with
    | [] => [[c]]
    | p :: ps => if c = ',' then [] :: p :: ps else (c :: p) :: ps

/-- The mnemonic, up to the first blank, and what follows it. -/
def asmMnemonic : List Char → List Char × List Char
  | [] => ([], [])
  | c :: cs => if c = ' ' then ([], cs) else (c :: (asmMnemonic cs).1, (asmMnemonic cs).2)

/-- A request with a cache and an address. -/
def asmRead (i : Cid → Instr) (k a : List Char) : Option Request :=
  match asmCache k, asmDword a with
  | some k, some a => some (Request.make (i k) a 0 [])
  | _, _ => none

/-- A request with a cache, an address and a value. -/
def asmWrite (i : Cid → Instr) (k a v : List Char) : Option Request :=
  match asmCache k, asmDword a, asmDword v with
  | some k, some a, some v => some (Request.make (i k) a v [])
  | _, _, _ => none

/-- A request with a cache, an address and a line of bytes. -/
def asmLine (i : Cid → Instr) (k a b : List Char) : Option Request :=
  match asmCache k, asmDword a, asmBytes (b.filter (fun c => decide (c ≠ ' '))) with
  | some k, some a, some b => some (Request.make (i k) a 0 b)
  | _, _, _ => none

/-- The request a mnemonic and its operands stand for (R82, R83). -/
def asmRequest (m : List Char) (ops : List (List Char)) : Option Request :=
  match m, ops with
  | ['g', 'e', 't', '.', 'b'], [k, a] => asmRead .getB k a
  | ['g', 'e', 't', '.', 'h'], [k, a] => asmRead .getH k a
  | ['g', 'e', 't', '.', 'w'], [k, a] => asmRead .getW k a
  | ['g', 'e', 't', '.', 'd'], [k, a] => asmRead .getD k a
  | ['p', 'u', 't', '.', 'b'], [k, a, v] => asmWrite .putB k a v
  | ['p', 'u', 't', '.', 'h'], [k, a, v] => asmWrite .putH k a v
  | ['p', 'u', 't', '.', 'w'], [k, a, v] => asmWrite .putW k a v
  | ['p', 'u', 't', '.', 'd'], [k, a, v] => asmWrite .putD k a v
  | ['r', 'd', 'l', 'i', 'n', 'e'], [k, a] => asmRead .rdline k a
  | ['w', 'r', 'l', 'i', 'n', 'e'], [k, a, b] => asmLine .wrline k a b
  | ['i', 'f', 'e', 't', 'c', 'h', '.', 'h'], [a] => (asmDword a).map ifetchH
  | ['i', 'f', 'e', 't', 'c', 'h', '.', 'w'], [a] => (asmDword a).map ifetchW
  | ['l', 'o', 'a', 'd', '.', 'b'], [a] => (asmDword a).map loadB
  | ['l', 'o', 'a', 'd', '.', 'h'], [a] => (asmDword a).map loadH
  | ['l', 'o', 'a', 'd', '.', 'w'], [a] => (asmDword a).map loadW
  | ['l', 'o', 'a', 'd', '.', 'd'], [a] => (asmDword a).map loadD
  | ['s', 't', 'o', 'r', 'e', '.', 'b'], [a, v] => (asmDword a).bind fun a => (asmDword v).map (storeB a)
  | ['s', 't', 'o', 'r', 'e', '.', 'h'], [a, v] => (asmDword a).bind fun a => (asmDword v).map (storeH a)
  | ['s', 't', 'o', 'r', 'e', '.', 'w'], [a, v] => (asmDword a).bind fun a => (asmDword v).map (storeW a)
  | ['s', 't', 'o', 'r', 'e', '.', 'd'], [a, v] => (asmDword a).bind fun a => (asmDword v).map (storeD a)
  | _, _ => none

/-- One line of text as a request (R82, R83); `none` where the line is no request. -/
def assemble (text : List Char) : Option Request :=
  let line := asmTrim (asmBody text)
  let parts := asmMnemonic line
  asmRequest parts.1 ((asmSplit parts.2).map asmTrim)

end Sys2Proof.Machine
end

