-- ==== Sys2Proof/Tests/Slice0.lean ====
section
/-! SUPPORT. Tests of the model: the vectors of spec/95_test_vectors.md and the examples of the rules, each worked
there by hand, and for every obligation with hypotheses a state that meets them. -/

namespace Sys2Proof.Tests

open Sys2Proof Sys2Proof.Machine

/-! ### Helpers -/

/-- The next state of an outcome. -/
def nextState : Host.Outcome State Fault Refusal → Option State
  | .next s => some s
  | .fault _ => none
  | .refused _ => none

/-- What is read off the state after one step: the last response and FAULT. -/
def lastResponse (o : Host.Outcome State Fault Refusal) : Option Response :=
  (nextState o).bind fun s => s.responses.getLast?

/-- TC constructed with MEM0, with one request sent. -/
def tcState (mem0 : List Host.Cell) (w : ReqWord) (a : Addr) (v : Dword) (l : List Byte) : State :=
  { State.construct Params.tc mem0 with queue := [{ word := w, addr := a, wdata := v, lineIn := l }] }

/-- The record of L1D in TC. -/
def l1 : CacheCfg := { name := "L1D", level := 1, type := .data, cap := 1024, ways := 2, next := .nextLevel 2 }
/-- The record of L2 in TC. -/
def l2 : CacheCfg := { name := "L2", level := 2, type := .unified, cap := 4096, ways := 4, next := .terminal }

/-- States and tags of the ways of one set after one step. -/
def waysAfter (o : Host.Outcome State Fault Refusal) (k i : Nat) : Option (List (Coh × Addr)) :=
  (nextState o).bind fun s => (s.getSet k i).map fun cs => cs.ways.map fun e => (e.state, e.tag)

/-- One byte of the copy of a line after one step. -/
def byteAfter (o : Host.Outcome State Fault Refusal) (k : Nat) (a : Addr) : Option Byte :=
  (nextState o).bind fun s => (s.dataAt k a)[offset s.params.lineSize a]?

/-! ### Decoding (R71 to R81; 95_test_vectors.md 2.1) -/

theorem test_decode_getB : decode 3 0b0000000000000000000000_0001_00_0000 = .ok (.getB 1) := by decide
theorem test_decode_getH : decode 3 0b0000000000000000000000_0000_01_0000 = .ok (.getH 0) := by decide
theorem test_decode_getW : decode 3 0b0000000000000000000000_0000_10_0000 = .ok (.getW 0) := by decide
theorem test_decode_getD : decode 3 0b0000000000000000000000_0010_11_0000 = .ok (.getD 2) := by decide
theorem test_decode_putB : decode 3 0b0000000000000000000000_0010_00_0001 = .ok (.putB 2) := by decide
theorem test_decode_putH : decode 3 0b0000000000000000000000_0001_01_0001 = .ok (.putH 1) := by decide
theorem test_decode_putW : decode 3 0b0000000000000000000000_0001_10_0001 = .ok (.putW 1) := by decide
theorem test_decode_putD : decode 3 0b0000000000000000000000_0001_11_0001 = .ok (.putD 1) := by decide
theorem test_decode_rdline : decode 3 0b0000000000000000000000_0010_00_0010 = .ok (.rdline 2) := by decide
theorem test_decode_wrline : decode 3 0b0000000000000000000000_0001_00_0011 = .ok (.wrline 1) := by decide

theorem test_encode_words : encode (.getW 0) = 0x20 ∧ encode (.getB 1) = 0x40 ∧ encode (.putD 1) = 0x71 ∧
    encode (.rdline 2) = 0x82 ∧ encode (.wrline 1) = 0x43 ∧ encode (.getD 2) = 0xB0 := by decide

theorem test_decode_reserved : decode 3 0x4 = .error .reservedOp ∧ decode 3 0xF = .error .reservedOp ∧
    decode 3 0x12 = .error .sizedLineRequest ∧ decode 3 0x63 = .error .sizedLineRequest ∧
    decode 3 0xC2 = .error .noSuchCache ∧ decode 3 0x440 = .error .reservedBits ∧
    decode 3 0x80000000 = .error .reservedBits := by decide

theorem test_decodeTableWord : decodeTableWord 32 0x20 = some (.getW 0) ∧
    decodeTableWord 32 0x3C3 = some (.wrline 15) ∧ decodeTableWord 32 0x4 = none := by decide

/-! ### Well-formedness: an ill-formed term for each check -/

theorem test_wellFormed_cid : Instr.wellFormed 3 (.getB 2) = true ∧ Instr.wellFormed 3 (.getB 3) = false ∧
    Instr.wellFormed 1 (.putH 1) = false ∧ Instr.wellFormed 16 (.wrline 15) = true := by decide
theorem test_inRange_noCache : Params.inRange { Params.tc with caches := [] } = false := by decide
theorem test_inRange_tooManyCaches :
    Params.inRange { Params.tc with caches := List.replicate 17 l2 } = false := by decide
theorem test_inRange_capacity :
    Params.inRange { Params.tc with caches := [{ l2 with cap := 2 ^ 64 }] } = false := by decide
theorem test_inRange_tc : Params.tc.inRange = true := by decide

/-! ### Text (R82, R83) -/

theorem test_assemble_get : assemble
    ['g', 'e', 't', '.', 'b', ' ', 'l', '1', 'd', ',', ' ', '0', 'x', '1', '0', ' ', '=', '>', ' ', '0'] =
      some { word := 0x40, addr := 0x10, wdata := 0, lineIn := [] } := by decide
theorem test_assemble_store : assemble
    ['s', 't', 'o', 'r', 'e', '.', 'h', ' ', '1', '0', ',', '0', 'x', 'f', 'F', ' ', ';', ' ', 'x'] =
      some { word := 0x51, addr := 10, wdata := 0xFF, lineIn := [] } := by decide
/-- The largest 64-bit value is an operand, 2^64, a sign and a suffix are not (log entry 20). -/
theorem test_assemble_range :
    asmDword ['1', '8', '4', '4', '6', '7', '4', '4', '0', '7', '3', '7', '0', '9', '5', '5', '1', '6', '1', '5'] =
      some 0xFFFFFFFFFFFFFFFF ∧
    asmDword ['1', '8', '4', '4', '6', '7', '4', '4', '0', '7', '3', '7', '0', '9', '5', '5', '1', '6', '1', '6'] =
      none ∧
    asmDword ['-', '1'] = none ∧ asmDword ['1', 'u'] = none := by decide
theorem test_assemble_wrline : assemble
    ['w', 'r', 'l', 'i', 'n', 'e', ' ', 'c', '3', ',', '0', ',', '5', 'A', '0', '1'] =
      some { word := 0xC3, addr := 0, wdata := 0, lineIn := [0x5A, 0x01] } := by decide

/-! ### Geometry (95_test_vectors.md W-1) -/

theorem test_geometry_l1 : l1.setCount 64 = 8 ∧ l1.idxBits 64 = 3 ∧ l1.tagBits 64 = 55 ∧
    l1.tag 64 0x123456789ABCDEF0 = 0x91A2B3C4D5E6F ∧ l1.index 64 0x123456789ABCDEF0 = 3 ∧
    offset 64 0x123456789ABCDEF0 = 48 ∧ lineBase 64 0x123456789ABCDEF0 = 0x123456789ABCDEC0 ∧
    l1.addressOf 64 0x91A2B3C4D5E6F 3 = 0x123456789ABCDEC0 := by decide
theorem test_geometry_l2 : l2.setCount 64 = 16 ∧ l2.idxBits 64 = 4 ∧ l2.tagBits 64 = 54 ∧
    l2.tag 64 0xFFFFFFFFFFFFFFFF = 0x3FFFFFFFFFFFFF ∧ l2.index 64 0xFFFFFFFFFFFFFFFF = 15 ∧
    l2.addressOf 64 0x3FFFFFFFFFFFFF 15 = 0xFFFFFFFFFFFFFFC0 := by decide

/-! ### Construction (95_test_vectors.md 2.2) -/

/-- TC with its three caches replaced. -/
def tcWith (a b c : CacheCfg) : Params := { Params.tc with caches := [a, b, c] }

theorem test_construct_levels :
    (build (tcWith l1 { l1 with level := 3 } l2)).fault =
      .raised .unsupportedLevel (some 1) (some 3) none ∧
    (build (tcWith l1 l1 { l2 with level := 3 })).fault = .raised .badConfig (some 0) (some 1) none ∧
    (build (tcWith l1 l1 { l2 with next := .nextLevel 0 })).fault =
      .raised .badConfig (some 2) (some 2) none := by decide
theorem test_construct_geometry :
    (build { Params.tc with lineSize := 48 }).fault = .raised .badConfig (some 0) (some 1) none ∧
    (build (tcWith l1 { l1 with cap := 1000 } l2)).fault = .raised .badConfig (some 1) (some 1) none ∧
    (build (tcWith l1 l1 { l2 with cap := 192, ways := 1 })).fault =
      .raised .badConfig (some 2) (some 2) none := by decide
theorem test_construct_rest :
    (build { Params.tc with allocFails := true }).fault = .raised .allocFailure (some 0) (some 1) none ∧
    (build { Params.tc with storeSize := 0x1010 }).fault = .raised .badConfig none none none ∧
    (build { Params.tc with storeSize := 0x20 }).fault = .raised .badConfig none none none ∧
    (build { Params.tc with devices := [⟨0xF000, 0xF010, true⟩, ⟨0xF008, 0xF020, true⟩] }).fault =
      .raised .badConfig none none (some 0xF008) ∧
    (build { Params.tc with devices := [⟨0x10, 0x10, true⟩] }).fault =
      .raised .badConfig none none (some 0x10) := by decide
theorem test_construct_tc : (build Params.tc).fault = .clear ∧ (build Params.tc).reg = [0, 1, 2] := by decide

/-! ### The recency list (95_test_vectors.md 2.3) -/

/-- A set of four ways at reset, and the same after touches. -/
def touched (ws : List Nat) : Option CacheSet :=
  ws.foldlM CacheSet.touch { head := none, ways := List.replicate 4 (resetEntry 1) }

/-- The links of a set. -/
def links (cs : CacheSet) : Option Nat × List (Option Nat × Option Nat) :=
  (cs.head, cs.ways.map fun e => (e.prev, e.next))

theorem test_touch_links : (touched [0, 1, 2, 0]).map links =
    some (some 0, [(some 1, some 2), (some 2, some 0), (some 0, some 1), (none, none)]) := by decide
theorem test_touch_fourth : (touched [0, 1, 2, 0, 0, 3]).map links =
    some (some 3, [(some 3, some 2), (some 2, some 3), (some 0, some 1), (some 1, some 0)]) := by decide
theorem test_touch_order : (touched [0, 1, 2, 0, 0, 3]).map CacheSet.order = some [3, 0, 2, 1] := by decide
theorem test_victim_lru :
    ((touched [2, 0, 1, 3]).bind fun cs =>
      CacheSet.victim { cs with ways := cs.ways.map fun e => { e with state := .shared } }) = some 2 := by
  decide
theorem test_victim_invalid :
    ((touched [2, 0, 1, 3]).bind fun cs =>
      (CacheSet.setCoh { cs with ways := cs.ways.map fun e => { e with state := .shared } } 3 .invalid).victim) =
        some 3 := by decide

/-! ### The store (95_test_vectors.md W-7) -/

theorem test_store_wraps :
    (memRead 0x10005 4 (State.construct Params.tc [(5, 1), (6, 2), (7, 3), (8, 4)])).1 = [1, 2, 3, 4] := by
  decide
theorem test_store_truncates :
    (memWrite 0xFFFF [1, 2] (State.construct Params.tc [])).mem = [(0xFFFF, 1)] := by decide

/-! ### One step for each request (the examples of 45_accessors.md, 42_read_path.md, 43_write_path.md) -/

/-- R161. -/
theorem test_getB : lastResponse (step (tcState [(0x1000, 0x11)] 0x40 0x1000 0 [])) =
    some { status := .ok, rdata := some 0x11, lineOut := none } := by decide
theorem test_getB_fills :
    waysAfter (step (tcState [] 0x40 0x1000 0 [])) 1 0 = some [(.shared, 8), (.invalid, 0)] ∧
    waysAfter (step (tcState [] 0x40 0x1000 0 [])) 2 0 =
      some [(.shared, 4), (.invalid, 0), (.invalid, 0), (.invalid, 0)] := by decide
/-- R162: the access straddles two lines. -/
theorem test_getH : lastResponse (step (tcState [(0x103F, 0x22), (0x1040, 0x33)] 0x50 0x103F 0 [])) =
    some { status := .ok, rdata := some 0x3322, lineOut := none } := by decide
/-- R163. -/
theorem test_getW : lastResponse
    (step (tcState [(0x2000, 0x78), (0x2001, 0x56), (0x2002, 0x34), (0x2003, 0x12)] 0x20 0x2000 0 [])) =
      some { status := .ok, rdata := some 0x12345678, lineOut := none } := by decide
/-- R164. -/
theorem test_getD : lastResponse
    (step (tcState [(0x3000, 1), (0x3001, 2), (0x3002, 3), (0x3003, 4), (0x3004, 5), (0x3005, 6), (0x3006, 7),
      (0x3007, 8)] 0x70 0x3000 0 [])) =
      some { status := .ok, rdata := some 0x0807060504030201, lineOut := none } := by decide
/-- R165: bits above WDATA[7:0] are ignored, the line is Modified in L1D and Invalid in L2, MEM is not written. -/
theorem test_putB : byteAfter (step (tcState [] 0x41 0x1000 0x1AB [])) 1 0x1000 = some 0xAB ∧
    waysAfter (step (tcState [] 0x41 0x1000 0x1AB [])) 2 0 =
      some [(.invalid, 4), (.invalid, 0), (.invalid, 0), (.invalid, 0)] := by decide
/-- R207, W-6: a byte in the device's range goes to its handler only. -/
theorem test_putB_device : (nextState (step (tcState [] 0x41 0xF000 0x99 []))).map
    (fun s => (s.devlog, s.mem, s.arrays == State.reset.arrays)) =
      some ([{ device := 0, addr := 0xF000, byte := 0x99 }], [], true) := by decide
/-- R166: the access straddles the end of the device's range. -/
theorem test_putH : (nextState (step (tcState [] 0x51 0xF00F 0xBEEF []))).map (fun s => s.devlog) =
      some [{ device := 0, addr := 0xF00F, byte := 0xEF }] ∧
    byteAfter (step (tcState [] 0x51 0xF00F 0xBEEF [])) 1 0xF010 = some 0xBE ∧
    byteAfter (step (tcState [] 0x51 0xF00F 0xBEEF [])) 1 0xF00F = some 0 := by decide
/-- R167: the access straddles two lines. -/
theorem test_putW : (waysAfter (step (tcState [] 0x61 0x3E 0xDDCCBBAA [])) 1 0).map (fun l => l.head?) =
      some (some (.modified, 0)) ∧
    byteAfter (step (tcState [] 0x61 0x3E 0xDDCCBBAA [])) 1 0x3F = some 0xBB ∧
    byteAfter (step (tcState [] 0x61 0x3E 0xDDCCBBAA [])) 1 0x40 = some 0xCC := by decide
/-- R168: the access wraps at the top of the address space. -/
theorem test_putD :
    byteAfter (step (tcState [] 0x71 0xFFFFFFFFFFFFFFFC 0x1122334455667788 [])) 1 0xFFFFFFFFFFFFFFFF =
      some 0x55 ∧
    byteAfter (step (tcState [] 0x71 0xFFFFFFFFFFFFFFFC 0x1122334455667788 [])) 1 0 = some 0x44 := by decide
/-- R134. -/
theorem test_rdline : lastResponse (step (tcState [(0x1001, 7)] 0x42 0x103F 0 [])) =
    some { status := .ok, rdata := none, lineOut := some ((List.replicate 64 0).set 1 7) } := by decide
/-- R145: from reset the line is in no cache. -/
theorem test_wrline_miss :
    (nextState (step (tcState [] 0x43 0x1000 0 (List.replicate 64 0x5A)))).map (fun s => s.fault) =
      some { valid := true, code := .writeMiss, cache := some 1, level := some 1, addr := some 0x1000 } := by
  decide
/-- R185: a reserved WRLINE word is illegal before it could miss. -/
theorem test_illegal : (nextState (step (tcState [] 0x63 0x1000 0 []))).map (fun s => s.fault) =
    some { valid := true, code := .illegalRequest, cache := some 1, level := some 1, addr := some 0x1000 } := by
  decide

/-! ### Small blocks for the witnesses -/

/-- One terminal cache of one set of two ways, L = 4, S = 16, a device with a write handler and one without. -/
def one : Params where
  lineSize := 4
  caches := [{ name := "C", level := 2, type := .unified, cap := 8, ways := 2, next := .terminal }]
  storeSize := 16
  devices := [⟨8, 10, true⟩, ⟨10, 12, false⟩]
  allocFails := false

/-- A level-1 cache of one way before a level-2 cache of two ways, one set each. -/
def two : Params where
  lineSize := 4
  caches := [{ name := "A", level := 1, type := .data, cap := 4, ways := 1, next := .nextLevel 1 },
    { name := "B", level := 2, type := .unified, cap := 8, ways := 2, next := .terminal }]
  storeSize := 16
  devices := [⟨8, 10, true⟩]
  allocFails := false

/-- A set whose way 0 holds line 0 Modified, whose way 1 holds line 4 Shared and is the most recent. -/
def held : CacheSet where
  head := some 1
  ways := [{ state := .modified, tag := 0, data := [1, 2, 3, 4], prev := some 1, next := some 1 },
    { state := .shared, tag := 1, data := [0, 0x55, 0, 0], prev := some 0, next := some 0 }]

/-- The block `one` with its cache full. -/
def oneFull : State := { State.construct one [(5, 0x55)] with arrays := [[held]] }

/-- The block `two` with its level-2 cache full and its level-1 cache empty. -/
def twoFull : State :=
  { State.construct two [(5, 0x55)] with arrays := [[{ head := none, ways := [resetEntry 4] }], [held]] }

/-- The block `two` as constructed. -/
def twoFresh : State := State.construct two [(5, 0x55)]

/-- A block with a request in progress. -/
def during (s : State) (a : Addr) (l : List Byte) : State :=
  { s with req := { word := 0, addr := a, wdata := 0x1AB, lineIn := l } }

/-- A block with requests sent. -/
def sent (s : State) (rs : List Request) : State := { s with queue := rs }

/-- A cache none of whose entries is valid. -/
def emptyCache (s : State) (k : Nat) : Prop :=
  ∀ x ∈ s.arrays[k]?, ∀ cs ∈ x, ∀ e ∈ cs.ways, e.state.isValid = false

/-- No line is valid in an empty cache. -/
theorem cohAt_of_emptyCache {s : State} {k : Nat} (h : emptyCache s k) (a : Addr) :
    s.cohAt k a = .invalid := by
  have : s.lineEntry k a = none := by
    unfold State.lineEntry
    split
    · rfl
    · rename_i c cs hl
      have hg := (locate_eq_some.1 hl).2
      simp only [State.getSet, Option.bind_eq_some_iff] at hg
      obtain ⟨x, hx, hc⟩ := hg
      have hn : cs.find (c.tag s.params.lineSize a) = none := by
        rw [find_eq_none]
        intro e he
        have := h x hx cs (List.mem_of_getElem? hc) e he
        simp [Entry.holds, this]
      simp [hn]
  simp [State.cohAt, this]

/-- A line can be valid in one cache only: no two caches conflict. -/
theorem domain_of_one {s : State} (m : Nat) (h : ∀ k ∈ s.reg, k ≠ m → emptyCache s k) :
    s.singleWriter ∧ s.copiesAgree := by
  refine ⟨fun a j hj k hk hjk hm => ?_, fun a j hj k hk hvj hvk => ?_⟩
  · by_cases hj' : j = m
    · exact cohAt_of_emptyCache (h k hk fun e => hjk (hj'.trans e.symm)) a
    · rw [cohAt_of_emptyCache (h j hj hj')] at hm
      cases hm
  · by_cases hj' : j = m
    · by_cases hk' : k = m
      · rw [hj', hk']
      · exact absurd (cohAt_of_emptyCache (h k hk hk') a) hvk
    · exact absurd (cohAt_of_emptyCache (h j hj hj') a) hvj

theorem legal_one : paramsLegal one := by
  unfold paramsLegal cacheLegal devicesLegal; decide

theorem legal_two : paramsLegal two := by
  unfold paramsLegal cacheLegal devicesLegal; decide

theorem inv_oneFull : Inv oneFull where
  legal := legal_one
  range := by decide
  shape := by unfold State.shapeOk State.everySet setShape; decide
  rings := by unfold State.everySet CacheSet.ringOk CacheSet.isRing; decide
  recency := by unfold State.everySet CacheSet.recencyOk; decide
  tags := by unfold State.everySet CacheSet.tagsUnique; decide
  singleWriter := (domain_of_one 0 (by unfold emptyCache; decide)).1
  agree := (domain_of_one 0 (by unfold emptyCache; decide)).2
  mem := by decide
  fault := by unfold FaultReg.ok; decide

theorem inv_twoFull : Inv twoFull where
  legal := legal_two
  range := by decide
  shape := by unfold State.shapeOk State.everySet setShape; decide
  rings := by unfold State.everySet CacheSet.ringOk CacheSet.isRing; decide
  recency := by unfold State.everySet CacheSet.recencyOk; decide
  tags := by unfold State.everySet CacheSet.tagsUnique; decide
  singleWriter := (domain_of_one 1 (by unfold emptyCache; decide)).1
  agree := (domain_of_one 1 (by unfold emptyCache; decide)).2
  mem := by decide
  fault := by unfold FaultReg.ok; decide

theorem inv_twoFresh : Inv twoFresh where
  legal := legal_two
  range := by decide
  shape := by unfold State.shapeOk State.everySet setShape; decide
  rings := by unfold State.everySet CacheSet.ringOk CacheSet.isRing; decide
  recency := by unfold State.everySet CacheSet.recencyOk; decide
  tags := by unfold State.everySet CacheSet.tagsUnique; decide
  singleWriter := (domain_of_one 1 (by unfold emptyCache; decide)).1
  agree := (domain_of_one 1 (by unfold emptyCache; decide)).2
  mem := by decide
  fault := by unfold FaultReg.ok; decide

theorem inv_during {s : State} (h : Inv s) (a : Addr) (l : List Byte) : Inv (during s a l) :=
  ⟨h.legal, h.range, h.shape, h.rings, h.recency, h.tags, h.singleWriter, h.agree, h.mem, h.fault⟩

theorem inv_sent {s : State} (h : Inv s) (rs : List Request) : Inv (sent s rs) :=
  ⟨h.legal, h.range, h.shape, h.rings, h.recency, h.tags, h.singleWriter, h.agree, h.mem, h.fault⟩

/-! ### For each obligation with hypotheses, a state that meets them -/

theorem ready_during {s : State} {i : Instr} (h : Inv s) (a : Addr) (l : List Byte) (hf : s.fault.valid = false)
    (hi : i.wellFormed s.params.nCaches = true) : Ready (during s a l) i :=
  ⟨inv_during h a l, hf, hi⟩

/-- A block whose caches are all empty is free of aliasing. -/
theorem aliasFree_of_empty {s : State} (h : ∀ k ∈ s.reg, emptyCache s k) : AliasFree s 0 where
  aligned := Nat.zero_mod _
  inside := fun k hk a hv => absurd (cohAt_of_emptyCache (h k hk) a) hv
  clean := fun k hk a hs => by rw [cohAt_of_emptyCache (h k hk)] at hs; cases hs

/-- A list of addresses checked one by one to lie in the window. -/
theorem window_of_all {s : State} {b : Nat} {l : List Addr}
    (h : l.all (fun x => decide (b ≤ x.toNat) && decide (x.toNat < b + s.params.storeSize)) = true) :
    ∀ x ∈ l, s.inWindow b x := by
  intro x hx
  simpa [State.inWindow] using List.all_eq_true.1 h x hx

theorem aliasFree_twoFresh : AliasFree twoFresh 0 := aliasFree_of_empty (by unfold emptyCache; decide)

theorem test_witness_DecodeOfEncodeIsTheRequest : Instr.wellFormed 16 (.wrline 15) = true := by decide
theorem test_witness_DecodedWordIsItsEncoding : decode 16 0x3F1 = .ok (.putD 15) := by decide

theorem test_witness_StepRunsTheDecodedRequest :
    (sent twoFresh [⟨0x40, 5, 0, []⟩]).queue = [⟨0x40, 5, 0, []⟩] ∧
    (sent twoFresh [⟨0x40, 5, 0, []⟩]).fault.valid = false ∧
    decode (sent twoFresh [⟨0x40, 5, 0, []⟩]).params.nCaches 0x40 = .ok (.getB 1) := by decide

/-- Each reserved word of R79 with a CID that names the last cache, the first CID that names none, and a word that is
not reserved. -/
theorem test_witness_ReservedWordRaisesIllegalRequest :
    (sent twoFresh [⟨0x440, 5, 0, []⟩]).fault.valid = false ∧
    (BitVec.extractLsb' 10 22 (0x440 : ReqWord) ≠ 0 ∧ twoFresh.params.caches[1]?.isSome = true ∧
      (BitVec.extractLsb' 6 4 (0x440 : ReqWord)).toNat = 1) ∧
    (3 < (BitVec.extractLsb' 0 4 (0x44 : ReqWord)).toNat ∧ (BitVec.extractLsb' 6 4 (0x44 : ReqWord)).toNat = 1) ∧
    ((BitVec.extractLsb' 0 4 (0x53 : ReqWord)).toNat = 3 ∧ BitVec.extractLsb' 4 2 (0x53 : ReqWord) ≠ 0) ∧
    twoFresh.params.nCaches = (BitVec.extractLsb' 6 4 (0x80 : ReqWord)).toNat ∧
    (BitVec.extractLsb' 10 22 (0x43 : ReqWord) = 0 ∧ (BitVec.extractLsb' 0 4 (0x43 : ReqWord)).toNat = 3 ∧
      BitVec.extractLsb' 4 2 (0x43 : ReqWord) = 0 ∧ (BitVec.extractLsb' 6 4 (0x43 : ReqWord)).toNat = 1) := by
  decide

/-- A faulted block with a request, a faulted block with none, and a block that takes a step without a fault. -/
theorem test_witness_FaultIsStickyAndRefusesRequests :
    (sent { twoFresh with fault := .raised .writeMiss (some 0) (some 1) (some 0) } [⟨0, 0, 0, []⟩]).fault.valid =
      true ∧
    nextState (step { twoFresh with fault := .raised .writeMiss (some 0) (some 1) (some 0) }) =
      some { twoFresh with fault := .raised .writeMiss (some 0) (some 1) (some 0) } ∧
    (nextState (step (sent twoFresh [⟨0x4, 0, 0, []⟩]))).map (fun t => t.fault) =
      some (.raised .illegalRequest (some 0) (some 1) (some 0)) := by decide

theorem test_witness_IdleBlockHoldsItsState : twoFresh.queue = [] := by decide
theorem test_witness_NoRequestWritesConfiguration : (nextState (step (sent twoFresh [⟨0x61, 3, 0x11223344, []⟩]))).isSome = true := by
  decide

/-- A second cache that fails each check in turn, the first being legal. -/
theorem test_witness_FirstFailingCacheIsReported :
    (∀ d ∈ (tcWith l1 { l1 with level := 3 } l2).caches[0]?, cacheLegal (tcWith l1 { l1 with level := 3 } l2) d) ∧
    (geometryLegal Params.tc { l1 with cap := 1000 } = false ∧
      ∀ d ∈ (tcWith l1 { l1 with cap := 1000 } l2).caches[0]?, cacheLegal (tcWith l1 { l1 with cap := 1000 } l2) d) ∧
    (topologyLegal Params.tc { l1 with next := .terminal } = false ∧
      ∀ d ∈ (tcWith l1 { l1 with next := .terminal } l2).caches[0]?,
        cacheLegal (tcWith l1 { l1 with next := .terminal } l2) d) ∧
    cacheLegal { Params.tc with allocFails := true } l1 := by
  unfold cacheLegal; decide

/-- A store of L - 1 bytes, an empty range, and a range that shares one address with the range before it. -/
theorem test_witness_StoreAndDeviceChecksAreReported :
    (∀ c ∈ one.caches, cacheLegal one c) ∧ storeLegal { one with storeSize := 3 } = false ∧
    devicesLegal { one with devices := [⟨8, 10, true⟩] } ∧
    storeLegal { one with devices := [⟨8, 10, true⟩, ⟨9, 9, true⟩] } = true ∧ (9 : Addr) ≤ 9 ∧
    (8 : Addr) < 12 ∧ (9 : Addr) < 10 := by
  unfold cacheLegal devicesLegal; decide

theorem test_witness_PassedCacheIsAllocatedAtReset :
    two.caches[1]?.isSome = true ∧ (∀ j ≤ 1, ∀ d ∈ two.caches[j]?, cacheLegal two d) ∧ two.allocFails = false := by
  unfold cacheLegal; decide

theorem test_witness_ConstructionLeavesTheResetState : (State.construct two [(5, 0x55)]).fault.valid = false ∧
    Memory.wf two.storeSize [(5, 0x55)] = true := by decide
theorem test_witness_LegalConstructionIsWellFormed : two.inRange = true ∧ (State.construct two []).fault.valid = false := by
  decide

theorem test_witness_StepKeepsWellFormedness : Inv (sent twoFull [⟨0x01, 2, 0xFF, []⟩]) ∧
    (nextState (step (sent twoFull [⟨0x01, 2, 0xFF, []⟩]))).isSome = true :=
  ⟨inv_sent inv_twoFull _, by decide⟩

/-- A WRLINE that misses and a reserved word. -/
theorem test_witness_RequestFaultsArePrecise :
    Inv (sent twoFull [⟨0x03, 0, 0, [1, 2, 3, 4]⟩]) ∧ Inv (sent twoFull [⟨0x04, 0, 0, []⟩]) ∧
    (nextState (step (sent twoFull [⟨0x03, 0, 0, [1, 2, 3, 4]⟩]))).map (fun t => t.fault.code) =
      some .writeMiss ∧
    (nextState (step (sent twoFull [⟨0x04, 0, 0, []⟩]))).map (fun t => t.fault.code) = some .illegalRequest ∧
    twoFull.fault.code = .none :=
  ⟨inv_sent inv_twoFull _, inv_sent inv_twoFull _, by decide⟩

/-- No fault recorded: a request that does not fault, a reserved word, and a WRLINE of three bytes. -/
theorem test_witness_WellFormedStepIsSafe : Inv (sent twoFull [⟨0x01, 2, 0xFF, []⟩]) ∧
    (sent twoFull [⟨0x01, 2, 0xFF, []⟩]).fault.valid = false ∧
    verdict (step (sent twoFull [⟨0x01, 2, 0xFF, []⟩])) = .well ∧
    verdict (step (sent twoFull [⟨0x04, 2, 0xFF, []⟩])) = .wrong ∧
    Inv (sent twoFull [⟨0x43, 2, 0, [1, 2, 3]⟩]) ∧ (sent twoFull [⟨0x43, 2, 0, [1, 2, 3]⟩]).malformedRequest ∧
    verdict (step (sent twoFull [⟨0x43, 2, 0, [1, 2, 3]⟩])) = .unfinished :=
  ⟨inv_sent inv_twoFull _, by decide, by decide, by decide, inv_sent inv_twoFull _,
    ⟨_, _, 1, rfl, by decide, by decide⟩, by decide⟩

theorem test_witness_AddressOfTagAndIndexIsLineBase : geometryLegal Params.tc l1 = true ∧ l1.cap < 2 ^ 64 := by decide

theorem test_witness_AddressBitsArePartitioned : geometryLegal Params.tc l2 = true ∧ l2.cap < 2 ^ 64 := by decide

/-- A linked way that is not the head, and a way of a set without a list. -/
theorem test_witness_TouchMovesToFront : held.ringOk ∧ 0 < held.ways.length ∧
    (resetSet 4 l1).ringOk ∧ 1 < (resetSet 4 l1).ways.length := by
  unfold CacheSet.ringOk CacheSet.isRing; decide

theorem test_witness_TouchOfTheHeadChangesNothing : 1 < held.ways.length ∧ held.head = some 1 := by decide

/-- A set with an Invalid way above a valid one, and a full set. -/
theorem test_witness_VictimIsInvalidElseLeastRecent :
    0 < held.ways.length ∧ held.ringOk ∧ held.recencyOk ∧ (∀ e ∈ held.ways, e.state ≠ .invalid) ∧
    (held.setCoh 1 .invalid).ringOk ∧ (held.setCoh 1 .invalid).recencyOk ∧
    (held.setCoh 1 .invalid).ways[1]?.map (fun e => e.state) = some .invalid ∧
    (∀ f ∈ (held.setCoh 1 .invalid).ways[0]?, f.state ≠ .invalid) := by
  unfold CacheSet.ringOk CacheSet.isRing CacheSet.recencyOk; decide

theorem test_witness_LeastRecentlyTouchedIsEvicted : 2 ≤ held.ways.length ∧ held.ringOk ∧ held.recencyOk ∧
    (∀ e ∈ held.ways, e.state ≠ .invalid) := by
  unfold CacheSet.ringOk CacheSet.isRing CacheSet.recencyOk; decide

theorem test_witness_VictimOutsideOrderIsStuck :
    State.setAt { oneFull with arrays := [[{ held with head := none }]] } 0 12 = some { held with head := none } ∧
    (∀ e ∈ held.ways, e.state ≠ .invalid) ∧ 0 < held.ways.length ∧
    0 ∉ CacheSet.order { held with head := none } := by decide

/-- A store access at the last byte: one byte fits, one does not. -/
theorem test_witness_StoreReadWrapsAndTruncates : 0 < oneFull.params.storeSize ∧ (15 : Addr).toNat % oneFull.params.storeSize + 0 < 16 ∧
    16 ≤ (15 : Addr).toNat % oneFull.params.storeSize + 1 := by decide

/-- Two bytes from the last index: the first is written, the second is not. -/
theorem test_witness_StoreWriteWrapsAndTruncates : 0 < oneFull.params.storeSize ∧
    Memory.wf oneFull.params.storeSize oneFull.mem = true ∧ ([1, 2] : List Byte)[0]? = some 1 ∧
    (0x1F : Addr).toNat % oneFull.params.storeSize + 0 < oneFull.params.storeSize := by decide

theorem test_witness_LineAccessIsNeverTruncated : paramsLegal two ∧ two.caches ≠ [] ∧ 1 < two.nCaches :=
  ⟨legal_two, by decide⟩

theorem test_witness_NextLevelWalkEndsAtTheStore : paramsLegal two ∧ 0 < two.nCaches ∧ 1 < two.nCaches :=
  ⟨legal_two, by decide⟩

theorem test_witness_WriteBackCopiesTheLine : Inv oneFull ∧ oneFull.params.caches[0]?.isSome = true ∧
    (oneFull.entry 0 0 0).map (fun e => e.state) = some .modified :=
  ⟨inv_oneFull, by decide⟩

theorem test_witness_RdlineLocalHit : Ready (during oneFull 3 []) (.rdline 0) ∧
    (during oneFull 3 []).lookup 0 3 = some 0 :=
  ⟨ready_during inv_oneFull _ _ (by decide) (by decide), by decide⟩

/-- The sibling's copy is Modified. -/
theorem test_witness_RdlineSiblingHit : Ready (during twoFull 3 []) (.rdline 0) ∧
    (during twoFull 3 []).lookup 0 3 = none ∧ 1 ∈ twoFull.reg ∧ (during twoFull 3 []).lookup 1 3 = some 0 ∧
    (during twoFull 3 []).cohAt 1 3 = .modified ∧
    (∀ l < 1, l ≠ 0 → (during twoFull 3 []).lookup l 3 = none) :=
  ⟨ready_during inv_twoFull _ _ (by decide) (by decide), by decide⟩

/-- In a block of one cache and in one with a next level; the victim is Modified. -/
theorem test_witness_RdlineMissEverywhere : Ready (during oneFull 12 []) (.rdline 0) ∧
    (∀ j ∈ oneFull.reg, (during oneFull 12 []).lookup j 12 = none) ∧
    Ready (during twoFull 12 []) (.rdline 0) ∧ (∀ j ∈ twoFull.reg, (during twoFull 12 []).lookup j 12 = none) :=
  ⟨ready_during inv_oneFull _ _ (by decide) (by decide), by decide,
    ready_during inv_twoFull _ _ (by decide) (by decide), by decide⟩

theorem test_witness_RdlineReturnsTheCoherentLine : Ready (during twoFull 12 []) (.rdline 1) :=
  ready_during inv_twoFull _ _ (by decide) (by decide)

theorem test_witness_RdlineDisplacesOnlyTheVictim : Ready (during oneFull 12 []) (.rdline 0) ∧
    (nextState (exec (.rdline 0) (during oneFull 12 []))).isSome = true ∧ lineBase 4 0 ≠ lineBase 4 12 :=
  ⟨ready_during inv_oneFull _ _ (by decide) (by decide), by decide⟩

theorem test_witness_EvictedModifiedLineReachesTheStore : Ready (during oneFull 12 []) (.rdline 0) ∧
    (nextState (exec (.rdline 0) (during oneFull 12 []))).isSome = true ∧
    (during oneFull 12 []).lookup 0 12 = none ∧ (during oneFull 12 []).victimSlot 0 12 = some (0, 0) ∧
    (oneFull.entry 0 0 0).map (fun e => e.state) = some .modified :=
  ⟨ready_during inv_oneFull _ _ (by decide) (by decide), by decide⟩

/-- The second clause: no cache holds the line, and the victim of the next level is Modified. -/
theorem test_witness_EvictedModifiedLineOfTheNextLevel : Ready (during twoFull 12 []) (.rdline 0) ∧
    (nextState (exec (.rdline 0) (during twoFull 12 []))).isSome = true ∧
    (∀ l ∈ twoFull.reg, (during twoFull 12 []).lookup l 12 = none) ∧
    (twoFull.params.caches[0]?).map (fun c => c.next) = some (.nextLevel 1) ∧
    (during twoFull 12 []).victimSlot 1 12 = some (0, 0) ∧
    (twoFull.entry 1 0 0).map (fun e => e.state) = some .modified ∧
    (during twoFull 12 []).placeStores 0 12 = [] :=
  ⟨ready_during inv_twoFull _ _ (by decide) (by decide), by decide⟩

/-- For each width, at an address where the access straddles two lines and wraps modulo 2^64. -/
theorem test_witness_GetCompletes : Ready (during oneFull (-1) []) (.getD 0) ∧ Ready (during oneFull (-1) []) (.getW 0) ∧
    Ready (during oneFull (-1) []) (.getH 0) ∧ Ready (during oneFull (-1) []) (.getB 0) :=
  ⟨ready_during inv_oneFull _ _ (by decide) (by decide), ready_during inv_oneFull _ _ (by decide) (by decide),
    ready_during inv_oneFull _ _ (by decide) (by decide), ready_during inv_oneFull _ _ (by decide) (by decide)⟩

theorem test_witness_GetByteReturnsTheView : Ready (during twoFull 3 []) (.getB 0) :=
  ready_during inv_twoFull _ _ (by decide) (by decide)

theorem test_witness_PutCompletes : Ready (during oneFull (-1) []) (.putD 0) ∧ Ready (during oneFull 9 []) (.putW 0) ∧
    Ready (during oneFull 7 []) (.putH 0) ∧ Ready (during oneFull (-1) []) (.putB 0) :=
  ⟨ready_during inv_oneFull _ _ (by decide) (by decide), ready_during inv_oneFull _ _ (by decide) (by decide),
    ready_during inv_oneFull _ _ (by decide) (by decide), ready_during inv_oneFull _ _ (by decide) (by decide)⟩

/-- The access ends at the last byte of the window. -/
theorem test_witness_GetReadsTheFlatMemory : Ready (during twoFresh 8 []) (.getD 1) ∧
    AliasFree (during twoFresh 8 []) 0 ∧ ∀ x ∈ accessBytes 8 8, (during twoFresh 8 []).inWindow 0 x :=
  ⟨ready_during inv_twoFresh _ _ (by decide) (by decide), ⟨aliasFree_twoFresh.1, aliasFree_twoFresh.2, aliasFree_twoFresh.3⟩,
    window_of_all (by decide)⟩

theorem test_witness_PutUpdatesTheFlatMemory : Ready (during twoFresh 8 []) (.putD 1) ∧
    AliasFree (during twoFresh 8 []) 0 ∧ ∀ x ∈ accessBytes 8 8, (during twoFresh 8 []).inWindow 0 x :=
  ⟨ready_during inv_twoFresh _ _ (by decide) (by decide), ⟨aliasFree_twoFresh.1, aliasFree_twoFresh.2, aliasFree_twoFresh.3⟩,
    window_of_all (by decide)⟩

theorem test_witness_AccessDisplacesOnlyInItsSets : Ready (during oneFull 12 []) (.getB 0) ∧
    (nextState (exec (.getB 0) (during oneFull 12 []))).isSome = true ∧ lineBase 4 0 ≠ lineBase 4 12 :=
  ⟨ready_during inv_oneFull _ _ (by decide) (by decide), by decide⟩

/-- The byte after the last one of the range with a write handler. -/
theorem test_witness_PutByteModifiesTheLine : Ready (during oneFull 10 []) (.putB 0) ∧
    writeHandler (during oneFull 10 []).params 10 = none :=
  ⟨ready_during inv_oneFull _ _ (by decide) (by decide), by decide⟩

/-- The first and the last address of the range. -/
theorem test_witness_PutByteToDeviceCallsItsHandler : devicesLegal one ∧ one.devices[0]? = some ⟨8, 10, true⟩ ∧
    (8 : Addr) ≤ 8 ∧ (8 : Addr) < 10 ∧ (8 : Addr) ≤ 9 ∧ (9 : Addr) < 10 := by
  unfold devicesLegal; decide

/-- An address in the range without a handler and one in no range. -/
theorem test_witness_ByteWithoutHandlerGoesThroughTheCache :
    (∀ r ∈ oneFull.params.devices, r.start ≤ 10 → 10 < r.stop → r.hasWriteHandler = false) ∧
    (∀ r ∈ oneFull.params.devices, r.start ≤ 12 → 12 < r.stop → r.hasWriteHandler = false) := by decide

theorem test_witness_WrlineHitOwnsTheLine : Ready (during oneFull 5 [9, 8, 7, 6]) (.wrline 0) ∧
    (during oneFull 5 [9, 8, 7, 6]).req.lineIn.length = (during oneFull 5 [9, 8, 7, 6]).params.lineSize ∧
    (during oneFull 5 [9, 8, 7, 6]).lookup 0 5 = some 1 :=
  ⟨ready_during inv_oneFull _ _ (by decide) (by decide), by decide⟩

theorem test_witness_WrlineMissRaisesWriteMiss : Ready (during twoFull 5 [9, 8, 7, 6]) (.wrline 0) ∧
    (during twoFull 5 [9, 8, 7, 6]).req.lineIn.length = (during twoFull 5 [9, 8, 7, 6]).params.lineSize ∧
    (during twoFull 5 [9, 8, 7, 6]).lookup 0 5 = none ∧ twoFull.params.caches[0]?.isSome = true ∧
    (nextState (exec (.putW 0) (during twoFull 5 [9, 8, 7, 6]))).isSome = true :=
  ⟨ready_during inv_twoFull _ _ (by decide) (by decide), by decide⟩

theorem test_witness_MalformedLineInIsRefused :
    (during oneFull 5 [9, 8, 7]).req.lineIn.length ≠ (during oneFull 5 [9, 8, 7]).params.lineSize := by decide

theorem test_witness_InvalidationKeepsTheSlot : oneFull.setAt 0 5 = some held ∧ oneFull.lookup 0 5 = some 1 := by decide

theorem test_witness_StoreIsSeenByTheNextFetch :
    Inv (sent twoFresh [Request.make (.putW 0) 12 7 [], Request.make (.getW 1) 12 0 []]) ∧
    AliasFree (sent twoFresh [Request.make (.putW 0) 12 7 [], Request.make (.getW 1) 12 0 []]) 0 ∧
    (∀ x ∈ accessBytes 12 4, twoFresh.inWindow 0 x ∧ writeHandler twoFresh.params x = none) :=
  ⟨inv_sent inv_twoFresh _, ⟨aliasFree_twoFresh.1, aliasFree_twoFresh.2, aliasFree_twoFresh.3⟩,
    fun x hx => ⟨window_of_all (by decide) x hx, by
      have : (accessBytes 12 4).all (fun x => decide (writeHandler twoFresh.params x = none)) = true := by decide
      simpa using List.all_eq_true.1 this x hx⟩⟩

theorem test_witness_RunOfRequestsIsAFlatMemory :
    Inv (sent twoFresh [Request.make (.putW 0) 12 7 [], Request.make (.rdline 1) 15 0 []]) ∧
    AliasFree (sent twoFresh [Request.make (.putW 0) 12 7 [], Request.make (.rdline 1) 15 0 []]) 0 ∧
    twoFresh.plainRequest 0 (Request.make (.putW 0) 12 7 []) ∧
    twoFresh.plainRequest 0 (Request.make (.rdline 1) 15 0 []) :=
  ⟨inv_sent inv_twoFresh _, ⟨aliasFree_twoFresh.1, aliasFree_twoFresh.2, aliasFree_twoFresh.3⟩,
    ⟨.putW 0, by decide, by decide, window_of_all (by decide)⟩,
    ⟨.rdline 1, by decide, by decide, window_of_all (by decide)⟩⟩

/-- Both caches hold lines, the other one the line that is written. -/
theorem test_witness_WrlineHit_otherCache :
    (nextState (exec (.rdline 0) (during twoFull 5 [9, 8, 7, 6]))).map
      (fun s => (s.lookup 0 5, s.lookup 1 5, (nextState (exec (.wrline 0) s)).bind fun t => t.setAt 1 5)) =
      some (some 0, some 1, some (held.setCoh 1 .invalid)) := by decide

/-- A run whose second request finds the block in the fault state, and a construction that faulted. -/
theorem test_witness_RunThatReachesTheFaultStateHasGoneWrong :
    (nextState (Sys2Proof.core.run 1 (sent twoFull [⟨0x04, 0, 0, []⟩]))).map (fun t => t.fault.valid) =
      some true ∧
    runVerdict 1 (sent twoFull [⟨0x04, 0, 0, []⟩, ⟨0x00, 0, 0, []⟩]) = .wrong ∧
    runVerdict 2 (sent twoFull [⟨0x04, 0, 0, []⟩, ⟨0x00, 0, 0, []⟩]) = .wrong ∧
    runVerdict 0 (State.construct { Params.tc with lineSize := 48 } []) = .wrong := by decide

/-- The access wraps at 2^64. -/
theorem test_witness_GetReadsByteByByte : getWidth (.getD 0) = some 8 ∧ Ready (during oneFull (-3) []) (.getD 0) :=
  ⟨rfl, ready_during inv_oneFull _ _ (by decide) (by decide)⟩

/-- The access wraps at 2^64, and one whose bytes go to the device and to the cache. -/
theorem test_witness_PutWritesByteByByte : putWidth (.putD 0) = some 8 ∧ Ready (during oneFull (-3) []) (.putD 0) ∧
    Ready (during oneFull 9 []) (.putH 0) ∧ writeHandler one 9 = some 0 ∧ writeHandler one 10 = none :=
  ⟨rfl, ready_during inv_oneFull _ _ (by decide) (by decide), ready_during inv_oneFull _ _ (by decide) (by decide),
    by decide⟩

theorem lineEntry_oneFull (a : Addr) :
    oneFull.lineEntry 0 a = (held.find (a >>> 2)).bind fun w => held.ways[w]? := by
  have : oneFull.locate 0 a = some ({ name := "C", level := 2, type := .unified, cap := 8, ways := 2,
                                      next := .terminal }, held) := by
    rw [locate_eq_some]
    refine ⟨rfl, ?_⟩
    have hc : CacheCfg.setCount 4 { name := "C", level := 2, type := .unified, cap := 8, ways := 2,
                                    next := .terminal } = 1 := by decide
    have hi : ∀ x : Nat, x % 1 = 0 := Nat.mod_one
    show oneFull.getSet 0 (_ % CacheCfg.setCount 4 _) = _
    rw [hc, hi]
    rfl
  simp only [State.lineEntry, this]
  rfl

/-- A full cache whose Shared line is what MEM holds is free of aliasing. -/
theorem aliasFree_oneFull : AliasFree oneFull 0 := by
  have cases : ∀ a : Addr, oneFull.cohAt 0 a ≠ .invalid →
      a.toNat < 4 ∧ oneFull.lineEntry 0 a = held.ways[0]? ∨
      4 ≤ a.toNat ∧ a.toNat < 8 ∧ oneFull.lineEntry 0 a = held.ways[1]? := by
    intro a hv
    by_cases h0 : a >>> 2 = 0
    · left
      have h0' := congrArg BitVec.toNat h0
      simp only [BitVec.toNat_ushiftRight, Nat.shiftRight_eq_div_pow] at h0'
      refine ⟨by simp at h0'; omega, ?_⟩
      rw [lineEntry_oneFull, h0]; rfl
    · by_cases h1 : a >>> 2 = 1
      · right
        have h1' := congrArg BitVec.toNat h1
        simp only [BitVec.toNat_ushiftRight, Nat.shiftRight_eq_div_pow] at h1'
        refine ⟨by simp at h1'; omega, by simp at h1'; omega, ?_⟩
        rw [lineEntry_oneFull, h1]; rfl
      · exfalso
        apply hv
        have : held.find (a >>> 2) = none := by
          rw [find_eq_none]
          simpa [held, Entry.holds] using ⟨fun _ h => h0 h.symm, fun _ h => h1 h.symm⟩
        simp [State.cohAt, lineEntry_oneFull, this]
  refine ⟨rfl, fun k hk a hv => ?_, fun k hk a hs => ?_⟩
  · obtain rfl : k = 0 := List.mem_singleton.1 (show k ∈ [0] from hk)
    have hS : oneFull.params.storeSize = 16 := rfl
    rcases cases a hv with h | h <;> exact ⟨Nat.zero_le _, by rw [hS]; omega⟩
  · obtain rfl : k = 0 := List.mem_singleton.1 (show k ∈ [0] from hk)
    have hs' : oneFull.cohAt 0 a ≠ .invalid := by rw [hs]; decide
    rcases cases a hs' with ⟨_, h⟩ | ⟨h1, h2, h⟩
    · simp [State.cohAt, h, held] at hs
    · have hd : oneFull.dataAt 0 a = [0, 0x55, 0, 0] := by simp [State.dataAt, h, held]
      have hn : a.toNat = 4 ∨ a.toNat = 5 ∨ a.toNat = 6 ∨ a.toNat = 7 := by omega
      show (oneFull.dataAt 0 a)[a.toNat % 4]? = some (Memory.read [(5, 0x55)] (a.toNat % 16))
      rw [hd]
      rcases hn with h | h | h | h <;> rw [h] <;> decide

theorem test_witness_WrlineUpdatesTheFlatMemory : Ready (during oneFull 5 [9, 8, 7, 6]) (.wrline 0) ∧
    AliasFree (during oneFull 5 [9, 8, 7, 6]) 0 ∧
    (during oneFull 5 [9, 8, 7, 6]).req.lineIn.length = oneFull.params.lineSize ∧
    (during oneFull 5 [9, 8, 7, 6]).lookup 0 5 ≠ none :=
  ⟨ready_during inv_oneFull _ _ (by decide) (by decide),
    ⟨aliasFree_oneFull.1, aliasFree_oneFull.2, aliasFree_oneFull.3⟩, by decide⟩

/-- A line is read and written in one cache and read in the other. -/
theorem test_witness_RunWithLineWritesIsAFlatMemory :
    Inv (sent twoFresh [Request.make (.rdline 1) 15 0 [], Request.make (.wrline 1) 12 0 [1, 2, 3, 4],
      Request.make (.getW 0) 12 0 []]) ∧
    AliasFree (sent twoFresh [Request.make (.rdline 1) 15 0 [], Request.make (.wrline 1) 12 0 [1, 2, 3, 4],
      Request.make (.getW 0) 12 0 []]) 0 ∧
    twoFresh.flatRequest 0 (Request.make (.rdline 1) 15 0 []) ∧
    twoFresh.flatRequest 0 (Request.make (.wrline 1) 12 0 [1, 2, 3, 4]) ∧
    twoFresh.flatRequest 0 (Request.make (.getW 0) 12 0 []) ∧
    runVerdict 3 (sent twoFresh [Request.make (.rdline 1) 15 0 [], Request.make (.wrline 1) 12 0 [1, 2, 3, 4],
      Request.make (.getW 0) 12 0 []]) = .well :=
  ⟨inv_sent inv_twoFresh _, ⟨aliasFree_twoFresh.1, aliasFree_twoFresh.2, aliasFree_twoFresh.3⟩,
    ⟨.rdline 1, by decide, window_of_all (by decide), by intro c h; cases h⟩,
    ⟨.wrline 1, by decide, window_of_all (by decide), by intro c h; rfl⟩,
    ⟨.getW 0, by decide, window_of_all (by decide), by intro c h; cases h⟩, by decide⟩

end Sys2Proof.Tests
end

/-! PROOFS. The step on a request that decodes (spec/00_scope.md R13; spec/30_encoding.md R70, R79). -/

namespace Sys2Proof.Machine

/-- Without a fault, the block takes the oldest request and selects the instruction its word decodes to (R70, R79). -/
theorem fetch_of_decode_ok {s : State} {r : Request} {rest : List Request} {i : Instr}
    (hqueue : s.queue = r :: rest) (hfault : s.fault.valid = false)
    (hdecode : decode s.params.nCaches r.word = .ok i) :
    fetch s = .request i (s.accept r rest) := by
  simp [fetch, hqueue, hfault, hdecode]

/-- A request the block took is performed in the state that took it (R13). -/
theorem step_of_fetch_request {s t : State} {i : Instr} (hfetch : fetch s = .request i t) :
    step s = exec i t := by
  simp only [step, hfetch]

/-- Settles O5: `fetch` answers the decoded instruction with the accepted state, which `step` hands to `exec`. -/
theorem stepRunsTheDecodedRequest : Obligations.StepRunsTheDecodedRequest := by
  intro s r rest i hqueue hfault hdecode
  calc step s = exec i (s.accept r rest) := step_of_fetch_request (fetch_of_decode_ok hqueue hfault hdecode)
    _ = exec i { s with req := r, queue := rest } := rfl

end Sys2Proof.Machine

/-! PROOFS. What a request leaves unchanged, whether it is answered or raises a fault (spec/10_state.md R21, R31,
R36). -/

namespace Sys2Proof.Machine

/-! ### Where a PUT raises its fault -/

/-- A cached byte write raises only by the WRITE_MISS of its write half (R141, R158). -/
theorem putByteCached_raised {k : Nat} {a : Addr} {b : Byte} {s t : State}
    (h : putByteCached k a b s = .raised t) :
    ∃ base buf s1 lvl, readLine k base s = .ok buf s1 ∧
      t = s1.raiseFault .writeMiss (some k) lvl (some base) := by
  simp only [putByteCached] at h
  rcases bind_eq_raised.1 h with hread | ⟨buf, s1, hread, hwrite⟩
  · exact absurd hread (readLineN_ne_raised _ _ _ _ _)
  · obtain ⟨c, _, -, -, rfl⟩ := writeLine_raised hwrite
    exact ⟨_, buf, s1, some c.level, hread, rfl⟩

/-- A byte write to a device raises nothing. -/
theorem putByte_raised {k : Nat} {a : Addr} {b : Byte} {s t : State} (h : putByte k a b s = .raised t) :
    putByteCached k a b s = .raised t := by
  simp only [putByte] at h
  split at h
  · cases h
  · exact h

/-- Bytes that raise: some bytes are put, a line is read, and its write misses. -/
theorem putBytes_raised {k : Nat} {a : Addr} {bs : List Byte} {s t : State} (h : putBytes k a bs s = .raised t) :
    ∃ done s0 base buf s1 lvl, putBytes k a done s = .ok () s0 ∧ readLine k base s0 = .ok buf s1 ∧
      t = s1.raiseFault .writeMiss (some k) lvl (some base) := by
  induction bs generalizing a s with
  | nil => simp [putBytes] at h
  | cons b bs ih =>
    simp only [putBytes] at h
    rcases bind_eq_raised.1 h with hput | ⟨u, s1, hput, hrest⟩
    · obtain ⟨base, buf, s2, lvl, hread, rfl⟩ := putByteCached_raised (putByte_raised hput)
      exact ⟨[], s, base, buf, s2, lvl, rfl, hread, rfl⟩
    · obtain ⟨done, s0, base, buf, s2, lvl, hdone, hread, rfl⟩ := ih hrest
      exact ⟨b :: done, s0, base, buf, s2, lvl, by simp only [putBytes, hput, bind_ok, hdone], hread, rfl⟩

theorem putN_raised {k n : Nat} {a : Addr} {s t : State} (h : putN k a n s = .raised t) :
    putBytes k a (s.req.putData n) s = .raised t := by
  simp only [putN] at h
  rcases bind_eq_raised.1 h with h | ⟨u, s1, -, h⟩
  · exact h
  · cases h

theorem getN_ne_raised (k n : Nat) (a : Addr) (s t : State) : getN k a n s ≠ .raised t := by
  intro h
  simp only [getN] at h
  rcases bind_eq_raised.1 h with h | ⟨_, _, -, h⟩
  · exact getBytes_ne_raised _ _ _ _ _ h
  · cases h

/-! ### What a request can do -/

/-- What a request that ends has done to the block when its response is given: it has read bytes or a line, put
bytes, written a line, or one of its line writes has missed and raised WRITE_MISS. -/
inductive Performed (s : State) : State → Prop
  | gotBytes {k n : Nat} {a : Addr} {bs : List Byte} {u : State} (h : getBytes k a n s = .ok bs u) : Performed s u
  | gotLine {k : Nat} {a : Addr} {d : List Byte} {u : State} (h : readLine k a s = .ok d u) : Performed s u
  | putBytes {k : Nat} {a : Addr} {bs : List Byte} {u : State} (h : putBytes k a bs s = .ok () u) : Performed s u
  | wroteLine {k : Nat} {a : Addr} {d : List Byte} {u : State} (hd : d.length = s.params.lineSize)
      (h : writeLine k a d s = .ok () u) : Performed s u
  | missedPut {k : Nat} {a base : Addr} {bs buf : List Byte} {s0 s1 : State} {lvl : Option Nat}
      (hput : Machine.putBytes k a bs s = .ok () s0) (hread : readLine k base s0 = .ok buf s1) :
      Performed s (s1.raiseFault .writeMiss (some k) lvl (some base))
  | missedWrite {k : Nat} {a : Addr} {lvl : Option Nat} :
      Performed s (s.raiseFault .writeMiss (some k) lvl (some a))

theorem getN_finish_next {k n : Nat} {a : Addr} {s t : State} (h : (getN k a n s).finish = .next t) :
    ∃ u r, Performed s u ∧ t = u.respond r := by
  rcases finish_eq_next.1 h with ⟨r, u, hget, rfl⟩ | ⟨u, hget, -⟩
  · obtain ⟨bs, hbs, -⟩ := getN_ok hget
    exact ⟨u, r, .gotBytes hbs, rfl⟩
  · exact absurd hget (getN_ne_raised _ _ _ _ _)

theorem putN_finish_next {k n : Nat} {a : Addr} {s t : State} (h : (putN k a n s).finish = .next t) :
    ∃ u r, Performed s u ∧ t = u.respond r := by
  rcases finish_eq_next.1 h with ⟨r, u, hput, rfl⟩ | ⟨u, hput, rfl⟩
  · exact ⟨u, r, .putBytes (putN_ok hput).1, rfl⟩
  · obtain ⟨_, _, _, _, _, _, hdone, hread, rfl⟩ := putBytes_raised (putN_raised hput)
    exact ⟨_, _, .missedPut hdone hread, rfl⟩

theorem execRdline_next {cid : Cid} {s t : State} (h : execRdline cid s = .next t) :
    ∃ u r, Performed s u ∧ t = u.respond r := by
  rcases finish_eq_next.1 h with ⟨r, u, hline, rfl⟩ | ⟨u, hline, -⟩
  · obtain ⟨d, s1, hread, hresp⟩ := bind_eq_ok.1 hline
    cases hresp
    exact ⟨u, _, .gotLine hread, rfl⟩
  · rcases bind_eq_raised.1 hline with hread | ⟨_, _, -, hresp⟩
    · exact absurd hread (readLineN_ne_raised _ _ _ _ _)
    · cases hresp

theorem execWrline_next {cid : Cid} {s t : State} (h : execWrline cid s = .next t) :
    ∃ u r, Performed s u ∧ t = u.respond r := by
  simp only [execWrline] at h
  split at h
  · rename_i hlen
    rcases finish_eq_next.1 h with ⟨r, u, hline, rfl⟩ | ⟨u, hline, rfl⟩
    · obtain ⟨_, s1, hwrite, hresp⟩ := bind_eq_ok.1 hline
      cases hresp
      exact ⟨u, _, .wroteLine hlen hwrite, rfl⟩
    · rcases bind_eq_raised.1 hline with hwrite | ⟨_, _, -, hresp⟩
      · obtain ⟨_, _, -, -, rfl⟩ := writeLine_raised hwrite
        exact ⟨_, _, .missedWrite, rfl⟩
      · cases hresp
  · cases h

/-- Every request that answers a next state has performed one of these and then given its response. -/
theorem exec_next {i : Instr} {s t : State} (h : exec i s = .next t) : ∃ u r, Performed s u ∧ t = u.respond r := by
  cases i with
  | getB _ => exact getN_finish_next h
  | getH _ => exact getN_finish_next h
  | getW _ => exact getN_finish_next h
  | getD _ => exact getN_finish_next h
  | putB _ => exact putN_finish_next h
  | putH _ => exact putN_finish_next h
  | putW _ => exact putN_finish_next h
  | putD _ => exact putN_finish_next h
  | rdline _ => exact execRdline_next h
  | wrline _ => exact execWrline_next h

/-- The three ways a step answers a next state: idle, a reserved word, a request performed. -/
theorem step_next {s t : State} (h : step s = .next t) :
    t = s ∨ ∃ r rest, s.fault.valid = false ∧
      (t = (s.accept r rest).illegalRequest ∨ ∃ u v, Performed (s.accept r rest) u ∧ t = u.respond v) := by
  rcases fetch_cases s with ⟨-, hf⟩ | ⟨r, rest, -, ⟨-, hf⟩ | ⟨hvalid, _, -, hf⟩ | ⟨hvalid, i, -, hf⟩⟩ <;>
    simp only [step, hf] at h
  · cases h
    exact .inl rfl
  · cases h
  · cases h
    exact .inr ⟨r, rest, hvalid, .inl rfl⟩
  · exact .inr ⟨r, rest, hvalid, .inr (exec_next h)⟩

/-! ### The frame of a request -/

/-- A reserved word writes its fault code (R79, R180). -/
theorem illegalRequest_fault (s : State) :
    ∃ cache level addr, s.illegalRequest.fault = FaultReg.raised .illegalRequest cache level addr :=
  ⟨_, _, _, rfl⟩

/-- FAULT is as it was, or a fault with a code was raised in it. -/
def State.faultKeptOrRaised (s t : State) : Prop :=
  t.fault = s.fault ∨ ∃ code cache level addr, code ≠ .none ∧ t.fault = FaultReg.raised code cache level addr

theorem SameFrame.raiseFault {s u : State} (h : SameFrame s u) {code : FaultCode} (hcode : code ≠ .none)
    (k l a) : (u.raiseFault code k l a).params = s.params ∧ (u.raiseFault code k l a).reg = s.reg ∧
      s.faultKeptOrRaised (u.raiseFault code k l a) :=
  ⟨h.params, h.reg, .inr ⟨code, k, l, a, hcode, rfl⟩⟩

/-- What every request keeps of the configuration, REG and FAULT. -/
theorem Performed.frame {s u : State} (h : Performed s u) :
    u.params = s.params ∧ u.reg = s.reg ∧ s.faultKeptOrRaised u := by
  have answered : SameFrame s u → u.params = s.params ∧ u.reg = s.reg ∧ s.faultKeptOrRaised u :=
    fun f => ⟨f.params, f.reg, .inl f.fault⟩
  cases h with
  | gotBytes h => exact answered (getBytes_frame h).1
  | gotLine h => exact answered (readLineN_frame h).1
  | putBytes h => exact answered (putBytes_frame h)
  | wroteLine _ h => exact answered (writeLine_frame h).1
  | missedPut hput hread =>
    exact ((putBytes_frame hput).trans (readLineN_frame hread).1).raiseFault (by decide) ..
  | missedWrite => exact (SameFrame.refl s).raiseFault (by decide) ..

/-- What every step keeps of the configuration, REG and FAULT, in every state. -/
theorem step_frame {s t : State} (h : step s = .next t) :
    t.params = s.params ∧ t.reg = s.reg ∧ s.faultKeptOrRaised t := by
  rcases step_next h with rfl | ⟨r, rest, -, rfl | ⟨u, v, hu, rfl⟩⟩
  · exact ⟨rfl, rfl, .inl rfl⟩
  · obtain ⟨cache, level, addr, hraised⟩ := illegalRequest_fault (s.accept r rest)
    exact ⟨rfl, rfl, .inr ⟨_, cache, level, addr, by decide, hraised⟩⟩
  · exact hu.frame

/-! ### The obligations on FAULT and the configuration -/

/-- A request sent to a faulted block is refused (R183). -/
theorem step_of_faulted {s : State} (hvalid : s.fault.valid = true) (hsent : s.queue ≠ []) :
    step s = .refused .blockFaulted := by
  rcases fetch_cases s with ⟨hq, -⟩ | ⟨r, rest, -, ⟨-, hf⟩ | ⟨hclear, -⟩ | ⟨hclear, -⟩⟩
  · exact absurd hq hsent
  · simp only [step, hf]
  · simp [hvalid] at hclear
  · simp [hvalid] at hclear

/-- Settles O7: a faulted block refuses or idles (`step_next`), and every step keeps FAULT or raises (`step_frame`). -/
theorem faultIsStickyAndRefusesRequests : Obligations.FaultIsStickyAndRefusesRequests := by
  intro s
  refine ⟨step_of_faulted, fun hvalid t h => ?_, fun _ t h => ?_⟩
  · rcases step_next h with rfl | ⟨_, _, hclear, -⟩
    · rfl
    · simp [hvalid] at hclear
  · obtain ⟨-, -, hkept | ⟨code, cache, level, addr, -, hraised⟩⟩ := step_frame h
    · exact .inl hkept
    · exact .inr ⟨code, cache, level, addr, hraised⟩

/-- Settles O9, by the frame of a step. -/
theorem noRequestWritesConfiguration : Obligations.NoRequestWritesConfiguration := by
  intro s t h
  obtain ⟨hparams, hreg, -⟩ := step_frame h
  exact ⟨hparams, hreg⟩

end Sys2Proof.Machine

/-! PROOFS. The recency list of a set as a ring of links (spec/41_lru.md R110 to R113): ORDER is read off a ring, and
touch moves a way to the front of it. -/

namespace Sys2Proof.Machine

/-! ### Neighbours in a circular list -/

theorem cyclicNext_of_mem {o : List Nat} {v : Nat} (hv : v ∈ o) : cyclicNext o v = some (o.next v hv) := by
  have hpos : 0 < o.length := List.length_pos_of_mem hv
  rw [cyclicNext, if_pos hv, List.next_eq_getElem hv, List.getElem?_eq_getElem (Nat.mod_lt _ hpos)]

theorem cyclicPrev_of_mem {o : List Nat} {v : Nat} (hv : v ∈ o) : cyclicPrev o v = some (o.prev v hv) := by
  have hpos : 0 < o.length := List.length_pos_of_mem hv
  rw [cyclicPrev, if_pos hv, List.prev_eq_getElem hv, List.getElem?_eq_getElem (Nat.mod_lt _ hpos)]

theorem cyclicNext_of_notMem {o : List Nat} {v : Nat} (hv : v ∉ o) : cyclicNext o v = none := if_neg hv

theorem cyclicPrev_of_notMem {o : List Nat} {v : Nat} (hv : v ∉ o) : cyclicPrev o v = none := if_neg hv

/-- Neighbours do not depend on where the circular list is cut. -/
theorem cyclicNext_of_isRotated {o m : List Nat} (h : o ~r m) (hnd : o.Nodup) (v : Nat) :
    cyclicNext o v = cyclicNext m v := by
  by_cases hv : v ∈ o
  · rw [cyclicNext_of_mem hv, cyclicNext_of_mem (h.mem_iff.1 hv), List.isRotated_next_eq h hnd hv]
  · rw [cyclicNext_of_notMem hv, cyclicNext_of_notMem (mt h.mem_iff.2 hv)]

theorem cyclicPrev_of_isRotated {o m : List Nat} (h : o ~r m) (hnd : o.Nodup) (v : Nat) :
    cyclicPrev o v = cyclicPrev m v := by
  by_cases hv : v ∈ o
  · rw [cyclicPrev_of_mem hv, cyclicPrev_of_mem (h.mem_iff.1 hv), List.isRotated_prev_eq h hnd hv]
  · rw [cyclicPrev_of_notMem hv, cyclicPrev_of_notMem (mt h.mem_iff.2 hv)]

/-- The last way is followed by the first. -/
theorem cyclicNext_getLast {m : List Nat} (hne : m ≠ []) (hnd : m.Nodup) :
    cyclicNext m (m.getLast hne) = some (m.head hne) := by
  rw [cyclicNext_of_mem (List.getLast_mem hne), List.next_getLast_eq_head m hne hnd]

/-- The first way is preceded by the last. -/
theorem cyclicPrev_head {m : List Nat} (hne : m ≠ []) : cyclicPrev m (m.head hne) = some (m.getLast hne) := by
  rw [cyclicPrev_of_mem (List.head_mem hne), List.prev_head_eq_getLast]

/-- Putting w before the first way changes the successor of w and of the last way only. -/
theorem cyclicNext_cons {m : List Nat} {w : Nat} (hne : m ≠ []) (hnd : (w :: m).Nodup) (v : Nat) :
    cyclicNext (w :: m) v =
      if v = w then some (m.head hne) else if v = m.getLast hne then some w else cyclicNext m v := by
  obtain ⟨hwm, hm⟩ := List.nodup_cons.1 hnd
  by_cases hvw : v = w
  · obtain ⟨x, r, rfl⟩ := List.exists_cons_of_ne_nil hne
    simp [hvw, cyclicNext_of_mem]
  by_cases hlast : v = m.getLast hne
  · have hv : v = (w :: m).getLast (List.cons_ne_nil w m) := by rw [hlast, List.getLast_cons hne]
    rw [if_neg hvw, if_pos hlast, hv, cyclicNext_getLast _ hnd, List.head_cons]
  rw [if_neg hvw, if_neg hlast]
  by_cases hv : v ∈ m
  · have hdrop : v ∈ m.dropLast := by
      rw [← List.dropLast_append_getLast hne] at hv
      simpa [hlast] using hv
    rw [cyclicNext_of_mem (List.mem_cons_of_mem w hv), cyclicNext_of_mem hv,
      List.next_cons_eq_next_of_mem_dropLast _ _ hdrop w hvw]
  · rw [cyclicNext_of_notMem hv, cyclicNext_of_notMem (by simp [hvw, hv])]

/-- Putting w before the first way changes the predecessor of w and of that way only. -/
theorem cyclicPrev_cons {m : List Nat} {w : Nat} (hne : m ≠ []) (v : Nat) :
    cyclicPrev (w :: m) v =
      if v = w then some (m.getLast hne) else if v = m.head hne then some w else cyclicPrev m v := by
  obtain ⟨x, r, rfl⟩ := List.exists_cons_of_ne_nil hne
  rw [List.head_cons]
  by_cases hvw : v = w
  · subst hvw
    rw [if_pos rfl, cyclicPrev_of_mem List.mem_cons_self, List.prev_cons_cons_eq]
  by_cases hvx : v = x
  · subst hvx
    rw [if_neg hvw, if_pos rfl, cyclicPrev_of_mem (by simp), List.prev_cons_cons_of_ne _ _ _ _ hvw]
  rw [if_neg hvw, if_neg hvx]
  by_cases hv : v ∈ x :: r
  · rw [cyclicPrev_of_mem (List.mem_cons_of_mem w hv), cyclicPrev_of_mem hv,
      List.prev_ne_cons_cons _ _ _ _ _ hvw hvx]
  · rw [cyclicPrev_of_notMem hv, cyclicPrev_of_notMem (by simpa [hvw] using hv)]

/-! ### The links of a set -/

/-- The `next` link of way v; none also where the set has no way v. -/
def CacheSet.nextOf (cs : CacheSet) (v : Nat) : Option Nat := (cs.ways[v]?).bind fun e => e.next

/-- The `prev` link of way v; none also where the set has no way v. -/
def CacheSet.prevOf (cs : CacheSet) (v : Nat) : Option Nat := (cs.ways[v]?).bind fun e => e.prev

theorem nextOf_eq {cs : CacheSet} {v : Nat} {e : Entry} (h : cs.ways[v]? = some e) : cs.nextOf v = e.next := by
  simp [CacheSet.nextOf, h]

theorem prevOf_eq {cs : CacheSet} {v : Nat} {e : Entry} (h : cs.ways[v]? = some e) : cs.prevOf v = e.prev := by
  simp [CacheSet.prevOf, h]

theorem nextOf_setNext {cs : CacheSet} {w : Nat} (hw : w < cs.ways.length) (n v : Nat) :
    (cs.setNext w n).nextOf v = if v = w then some n else cs.nextOf v := by
  rw [CacheSet.nextOf, CacheSet.setNext, modifyWay_getElem?]
  by_cases hv : v = w
  · subst hv
    simp [List.getElem?_eq_getElem hw]
  · simp [hv, Ne.symm hv, CacheSet.nextOf]

theorem prevOf_setPrev {cs : CacheSet} {w : Nat} (hw : w < cs.ways.length) (p v : Nat) :
    (cs.setPrev w p).prevOf v = if v = w then some p else cs.prevOf v := by
  rw [CacheSet.prevOf, CacheSet.setPrev, modifyWay_getElem?]
  by_cases hv : v = w
  · subst hv
    simp [List.getElem?_eq_getElem hw]
  · simp [hv, Ne.symm hv, CacheSet.prevOf]

/-- A change of one way that keeps its links keeps every `next` link. -/
theorem nextOf_modifyWay {cs : CacheSet} {w : Nat} {f : Entry → Entry} (hf : ∀ e, (f e).next = e.next) (v : Nat) :
    (cs.modifyWay w f).nextOf v = cs.nextOf v := by
  rw [CacheSet.nextOf, modifyWay_getElem?, CacheSet.nextOf]
  cases cs.ways[v]? with
  | none => rfl
  | some e =>
    simp only [Option.map_some, Option.bind_some]
    split
    · exact hf e
    · rfl

theorem prevOf_modifyWay {cs : CacheSet} {w : Nat} {f : Entry → Entry} (hf : ∀ e, (f e).prev = e.prev) (v : Nat) :
    (cs.modifyWay w f).prevOf v = cs.prevOf v := by
  rw [CacheSet.prevOf, modifyWay_getElem?, CacheSet.prevOf]
  cases cs.ways[v]? with
  | none => rfl
  | some e =>
    simp only [Option.map_some, Option.bind_some]
    split
    · exact hf e
    · rfl

@[simp] theorem nextOf_setPrev (cs : CacheSet) (w p v : Nat) : (cs.setPrev w p).nextOf v = cs.nextOf v :=
  nextOf_modifyWay (f := fun e => { e with prev := some p }) (fun _ => rfl) v

@[simp] theorem prevOf_setNext (cs : CacheSet) (w n v : Nat) : (cs.setNext w n).prevOf v = cs.prevOf v :=
  prevOf_modifyWay (f := fun e => { e with next := some n }) (fun _ => rfl) v

@[simp] theorem setPrev_length (cs : CacheSet) (w p : Nat) : (cs.setPrev w p).ways.length = cs.ways.length :=
  modifyWay_length ..

@[simp] theorem setNext_length (cs : CacheSet) (w n : Nat) : (cs.setNext w n).ways.length = cs.ways.length :=
  modifyWay_length ..

@[simp] theorem setPrev_head (cs : CacheSet) (w p : Nat) : (cs.setPrev w p).head = cs.head := rfl

@[simp] theorem setNext_head (cs : CacheSet) (w n : Nat) : (cs.setNext w n).head = cs.head := rfl

@[simp] theorem nextOf_withHead (cs : CacheSet) (h : Option Nat) (v : Nat) :
    CacheSet.nextOf { cs with head := h } v = cs.nextOf v := rfl

@[simp] theorem prevOf_withHead (cs : CacheSet) (h : Option Nat) (v : Nat) :
    CacheSet.prevOf { cs with head := h } v = cs.prevOf v := rfl

/-- A ring in terms of the links of every way number. -/
theorem isRing_iff {cs : CacheSet} {o : List Nat} :
    cs.isRing o ↔ cs.head = o.head? ∧ o.Nodup ∧ (∀ w ∈ o, w < cs.ways.length) ∧
      ∀ v, cs.nextOf v = cyclicNext o v ∧ cs.prevOf v = cyclicPrev o v := by
  refine and_congr_right fun _ => and_congr_right fun _ => and_congr_right fun hin =>
    ⟨fun h v => ?_, fun h w _ e he => ?_⟩
  · by_cases hv : v < cs.ways.length
    · have he := List.getElem?_eq_getElem hv
      rw [nextOf_eq he, prevOf_eq he]
      exact h v hv _ he
    · have hvo : v ∉ o := fun hmem => hv (hin v hmem)
      rw [cyclicNext_of_notMem hvo, cyclicPrev_of_notMem hvo]
      simp [CacheSet.nextOf, CacheSet.prevOf, List.getElem?_eq_none (not_lt.1 hv)]
  · rw [← nextOf_eq he, ← prevOf_eq he]
    exact h w

/-- A set that agrees in HEAD, size and links with a ring is one. -/
theorem isRing_congr {cs ds : CacheSet} {o : List Nat} (h : cs.isRing o) (hhead : ds.head = cs.head)
    (hlen : ds.ways.length = cs.ways.length) (hnext : ∀ v, ds.nextOf v = cs.nextOf v)
    (hprev : ∀ v, ds.prevOf v = cs.prevOf v) : ds.isRing o := by
  simpa only [isRing_iff, hhead, hlen, hnext, hprev] using h

/-! ### ORDER of a ring -/

theorem follow_succ (cs : CacheSet) (stop n w : Nat) :
    cs.follow stop (n + 1) w =
      w :: match cs.nextOf w with
        | none => []
        | some x => if x = stop then [] else cs.follow stop n x := rfl

/-- The walk from a way of the ring lists the ways from it on, up to the last one before HEAD. -/
theorem follow_suffix {cs : CacheSet} {o done todo : List Nat} {stop w n : Nat} (hnd : o.Nodup)
    (hstop : o.head? = some stop) (hnext : ∀ v, cs.nextOf v = cyclicNext o v) (ho : o = done ++ w :: todo)
    (hn : todo.length < n) : cs.follow stop n w = w :: todo := by
  induction todo generalizing done w n with
  | nil =>
    obtain ⟨n, rfl⟩ := Nat.exists_eq_succ_of_ne_zero (Nat.ne_zero_of_lt hn)
    have hne : o ≠ [] := by simp [ho]
    have hlast : w = o.getLast hne := by simp [ho]
    have hhead : o.head hne = stop := by simpa [List.head?_eq_some_head hne] using hstop
    rw [follow_succ, hnext, hlast, cyclicNext_getLast hne hnd]
    simp [hhead]
  | cons y todo ih =>
    obtain ⟨n, rfl⟩ := Nat.exists_eq_succ_of_ne_zero (Nat.ne_zero_of_lt hn)
    have hrot : o ~r w :: y :: todo ++ done := ho ▸ List.isRotated_append
    have hsucc : cyclicNext o w = some y := by
      rw [cyclicNext_of_isRotated hrot hnd, List.cons_append, List.cons_append,
        cyclicNext_of_mem List.mem_cons_self, List.next_cons_cons_eq]
    have hy : y ≠ stop := by
      rintro rfl
      cases done with
      | nil =>
        obtain rfl : w = y := by simpa [ho] using hstop
        simp [ho] at hnd
      | cons z done =>
        obtain rfl : z = y := by simpa [ho] using hstop
        simp [ho] at hnd
    rw [follow_succ, hnext, hsucc]
    simp only [hy, if_false]
    rw [ih (done := done ++ [w]) (by simp [ho]) (by simpa using hn)]

/-- ORDER of a set whose links are the ring of o is o (R30, R110). -/
theorem isRing_order {cs : CacheSet} {o : List Nat} (h : cs.isRing o) : cs.order = o := by
  obtain ⟨hhead, hnd, hin, hlinks⟩ := isRing_iff.1 h
  have hlen : o.length ≤ cs.ways.length := by
    have hsub : o ⊆ List.range cs.ways.length := fun w hw => List.mem_range.2 (hin w hw)
    simpa using (hnd.subperm hsub).length_le
  cases o with
  | nil => simp [CacheSet.order, hhead]
  | cons x r =>
    simp only [CacheSet.order, hhead, List.head?_cons]
    exact follow_suffix hnd rfl (fun v => (hlinks v).1) (List.nil_append _).symm hlen

theorem isRing_ringOk {cs : CacheSet} {o : List Nat} (h : cs.isRing o) : cs.ringOk := by
  rwa [CacheSet.ringOk, isRing_order h]

/-! ### Touch on a ring -/

/-- The links of the ways other than w are the ring of o, and w is not in o: what unlinking w leaves (R111). -/
def CacheSet.ringWithout (cs : CacheSet) (o : List Nat) (w : Nat) : Prop :=
  cs.head = o.head? ∧ (w :: o).Nodup ∧ (∀ v ∈ o, v < cs.ways.length) ∧
    ∀ v, v ≠ w → cs.nextOf v = cyclicNext o v ∧ cs.prevOf v = cyclicPrev o v

/-- Joining the neighbours of a way inside the ring leaves the ring of the other ways. -/
theorem join_ringWithout {cs : CacheSet} {before after : List Nat} {w : Nat} (h : cs.isRing (before ++ w :: after))
    (hne : after ++ before ≠ []) (hfirst : before ≠ []) :
    ((cs.setNext ((after ++ before).getLast hne) ((after ++ before).head hne)).setPrev ((after ++ before).head hne)
      ((after ++ before).getLast hne)).ringWithout (before ++ after) w := by
  obtain ⟨hhead, hnd, hin, hlinks⟩ := isRing_iff.1 h
  have hrot : before ++ w :: after ~r w :: (after ++ before) := List.isRotated_append
  have hcut : before ++ after ~r after ++ before := List.isRotated_append
  have hndw : (w :: (after ++ before)).Nodup := hrot.nodup_iff.1 hnd
  have hndm : (after ++ before).Nodup := (List.nodup_cons.1 hndw).2
  have hnd' : (before ++ after).Nodup := hcut.nodup_iff.2 hndm
  have hin' : ∀ v ∈ after ++ before, v < cs.ways.length := fun v hv => hin v (by
    rw [hrot.mem_iff]
    exact List.mem_cons_of_mem w hv)
  refine ⟨?_, ?_, fun v hv => ?_, fun v hvw => ⟨?_, ?_⟩⟩
  · simpa [List.head?_append_of_ne_nil _ hfirst] using hhead
  · exact List.nodup_cons.2 ⟨fun hmem => (List.nodup_cons.1 hndw).1 (hcut.mem_iff.1 hmem), hnd'⟩
  · simpa using hin' v (hcut.mem_iff.1 hv)
  · rw [nextOf_setPrev, nextOf_setNext (hin' _ (List.getLast_mem hne)), (hlinks v).1, cyclicNext_of_isRotated hrot hnd,
      cyclicNext_cons hne hndw, if_neg hvw, cyclicNext_of_isRotated hcut hnd']
    by_cases hv : v = (after ++ before).getLast hne
    · rw [if_pos hv, hv, cyclicNext_getLast hne hndm]
    · rw [if_neg hv, if_neg hv]
  · rw [prevOf_setPrev (by simpa using hin' _ (List.head_mem hne)), prevOf_setNext, (hlinks v).2,
      cyclicPrev_of_isRotated hrot hnd, cyclicPrev_cons hne, if_neg hvw, cyclicPrev_of_isRotated hcut hnd']
    by_cases hv : v = (after ++ before).head hne
    · rw [if_pos hv, hv, cyclicPrev_head hne]
    · rw [if_neg hv, if_neg hv]

/-- Unlinking a way that is not the first leaves the ring of the other ways (R111). -/
theorem unlink_ringWithout {cs cs1 : CacheSet} {o : List Nat} {w : Nat} {e : Entry} (h : cs.isRing o)
    (he : cs.ways[w]? = some e) (hfirst : o.head? ≠ some w) (hu : cs.unlink e = some cs1) :
    cs1.ringWithout (o.erase w) w := by
  obtain ⟨hhead, hnd, hin, hlinks⟩ := isRing_iff.1 h
  obtain ⟨hnext, hprev⟩ := hlinks w
  rw [nextOf_eq he] at hnext
  rw [prevOf_eq he] at hprev
  rcases unlink_cases hu with ⟨hnone, rfl⟩ | ⟨p, n, hn, hp, -, -, rfl⟩
  · have hw : w ∉ o := fun hmem => by simp [hnone, cyclicNext_of_mem hmem] at hnext
    rw [List.erase_of_not_mem hw]
    exact ⟨hhead, List.nodup_cons.2 ⟨hw, hnd⟩, hin, fun v _ => hlinks v⟩
  · have hw : w ∈ o := by
      by_contra hw
      simp [hn, cyclicNext_of_notMem hw] at hnext
    obtain ⟨before, after, rfl⟩ := List.append_of_mem hw
    have hbefore : before ≠ [] := by
      rintro rfl
      exact hfirst rfl
    have hne : after ++ before ≠ [] := by simp [hbefore]
    have hrot : before ++ w :: after ~r w :: (after ++ before) := List.isRotated_append
    have hndw : (w :: (after ++ before)).Nodup := hrot.nodup_iff.1 hnd
    have hwb : w ∉ before := fun hmem => (List.nodup_cons.1 hndw).1 (List.mem_append_right _ hmem)
    rw [hn, cyclicNext_of_isRotated hrot hnd, cyclicNext_cons hne hndw, if_pos rfl, Option.some.injEq] at hnext
    rw [hp, cyclicPrev_of_isRotated hrot hnd, cyclicPrev_cons hne, if_pos rfl, Option.some.injEq] at hprev
    rw [hnext, hprev, List.erase_append_right _ hwb, List.erase_cons_head]
    exact join_ringWithout h hne hbefore

theorem prevOf_of_tail {cs : CacheSet} {x t : Nat} (h : cs.tail x = some t) : cs.prevOf x = some t := by
  unfold CacheSet.tail at h
  unfold CacheSet.prevOf
  split at h
  · cases h
  · rename_i hprev
    split at h
    · cases h
      exact hprev
    · cases h

/-- Splicing w before the head of the ring of the other ways makes w its first way (R111). -/
theorem splice_isRing {cs : CacheSet} {o : List Nat} {w x t : Nat} (h : cs.ringWithout o w) (hw : w < cs.ways.length)
    (hhead : cs.head = some x) (htail : cs.tail x = some t) : (cs.splice w t x).isRing (w :: o) := by
  obtain ⟨hfirst, hnd, hin, hlinks⟩ := h
  have hne : o ≠ [] := by
    rintro rfl
    simp [hhead] at hfirst
  have hx : x = o.head hne := by
    rw [hhead, List.head?_eq_some_head hne] at hfirst
    exact Option.some.inj hfirst
  have hxo : x ∈ o := hx ▸ List.head_mem hne
  have hne_w : ∀ v ∈ o, v ≠ w := fun v hv hvw => (List.nodup_cons.1 hnd).1 (hvw ▸ hv)
  have ht : t = o.getLast hne := by
    have hprev := (hlinks x (hne_w x hxo)).2
    rw [prevOf_of_tail htail, hx, cyclicPrev_head hne] at hprev
    exact Option.some.inj hprev
  have hto : t ∈ o := ht ▸ List.getLast_mem hne
  refine isRing_iff.2 ⟨rfl, hnd, ?_, fun v => ⟨?_, ?_⟩⟩
  · simpa [CacheSet.splice] using ⟨hw, hin⟩
  · simp only [CacheSet.splice, nextOf_withHead, nextOf_setPrev]
    rw [nextOf_setNext (by simpa using hin t hto), nextOf_setNext (by simpa using hw), nextOf_setPrev,
      cyclicNext_cons hne hnd, ← ht, ← hx]
    by_cases hvw : v = w
    · rw [if_neg (hvw ▸ (hne_w t hto).symm), if_pos hvw, if_pos hvw]
    · rw [if_neg hvw, if_neg hvw, (hlinks v hvw).1]
  · simp only [CacheSet.splice, prevOf_withHead]
    rw [prevOf_setPrev (by simpa using hin x hxo), prevOf_setNext, prevOf_setNext, prevOf_setPrev hw,
      cyclicPrev_cons hne, ← ht, ← hx]
    by_cases hvw : v = w
    · rw [if_neg (hvw ▸ (hne_w x hxo).symm), if_pos hvw, if_pos hvw]
    · rw [if_neg hvw, if_neg hvw, (hlinks v hvw).2]

/-- The first way a set lists is linked to itself (R111). -/
theorem start_isRing {cs : CacheSet} {w : Nat} (h : cs.isRing []) (hw : w < cs.ways.length) :
    CacheSet.isRing { ((cs.setPrev w w).setNext w w) with head := some w } [w] := by
  obtain ⟨-, -, -, hlinks⟩ := isRing_iff.1 h
  refine isRing_iff.2 ⟨rfl, List.nodup_singleton w, by simpa using hw, fun v => ⟨?_, ?_⟩⟩
  · rw [nextOf_withHead, nextOf_setNext (by simpa using hw), nextOf_setPrev, (hlinks v).1]
    by_cases hvw : v = w <;> simp [hvw, cyclicNext]
  · rw [prevOf_withHead, prevOf_setNext, prevOf_setPrev hw, (hlinks v).2]
    by_cases hvw : v = w <;> simp [hvw, cyclicPrev]

/-- Unlinking touches no HEAD and no size. -/
theorem unlink_head_length {cs cs1 : CacheSet} {e : Entry} (h : cs.unlink e = some cs1) :
    cs1.head = cs.head ∧ cs1.ways.length = cs.ways.length := by
  rcases unlink_cases h with ⟨-, rfl⟩ | ⟨p, n, -, -, -, -, rfl⟩
  · exact ⟨rfl, rfl⟩
  · exact ⟨rfl, by simp⟩

/-- Touch moves w to the front of the ring (R111, R112). -/
theorem touch_isRing {cs ds : CacheSet} {o : List Nat} {w : Nat} (h : cs.isRing o) (htouch : cs.touch w = some ds) :
    ds.isRing (w :: o.erase w) := by
  have hhead := h.1
  obtain ⟨e, he, ⟨hnone, rfl⟩ | ⟨hfirst, rfl⟩ | ⟨x, cs1, t, hx, hxw, hu, ht, rfl⟩⟩ := touch_cases htouch
  all_goals obtain ⟨hw, -⟩ := List.getElem?_eq_some_iff.1 he
  · obtain rfl : o = [] := by simpa [hnone] using hhead.symm
    exact start_isRing h hw
  · obtain ⟨r, rfl⟩ : ∃ r, o = w :: r := by
      rw [hfirst] at hhead
      exact List.head?_eq_some_iff.1 hhead.symm
    rwa [List.erase_cons_head]
  · have hfirst : o.head? ≠ some w := by simpa [← hhead, hx] using hxw
    obtain ⟨hhead1, hlen1⟩ := unlink_head_length hu
    exact splice_isRing (unlink_ringWithout h he hfirst hu) (hlen1 ▸ hw) (hhead1.trans hx) ht

end Sys2Proof.Machine

/-! PROOFS. A well-formed set and the copies of lines it holds (spec/10_state.md R41, R44; spec/41_lru.md R110, R113):
what touch, a fill, an overwrite and a change of state make of them. -/

namespace Sys2Proof.Machine

/-! ### Copies of a line in a set -/

/-- The set holds, valid, the line of tag t in state st with data d. -/
def CacheSet.hasCopy (cs : CacheSet) (t : Addr) (st : Coh) (d : List Byte) : Prop :=
  ∃ (v : Nat) (e : Entry), cs.ways[v]? = some e ∧ Entry.holds t e = true ∧ e.state = st ∧ e.data = d

/-- No way but w holds the line of tag t. -/
def CacheSet.onlyIn (cs : CacheSet) (w : Nat) (t : Addr) : Prop :=
  ∀ (v : Nat) (e : Entry), cs.ways[v]? = some e → Entry.holds t e = true → v = w

/-- The copies of ds are those of cs, but those of the line of tag t meet P. -/
def CacheSet.lineReplaced (cs ds : CacheSet) (t : Addr) (P : Coh → List Byte → Prop) : Prop :=
  (∀ st d, ds.hasCopy t st d → P st d) ∧ ∀ u, u ≠ t → ∀ st d, ds.hasCopy u st d → cs.hasCopy u st d

theorem hasCopy_isValid {cs : CacheSet} {t : Addr} {st : Coh} {d : List Byte} (h : cs.hasCopy t st d) :
    st.isValid = true := by
  obtain ⟨v, e, -, hh, rfl, -⟩ := h
  exact (holds_iff.1 hh).1

theorem isValid_iff {st : Coh} : st.isValid = true ↔ st ≠ .invalid := by
  cases st <;> decide

theorem tagsUnique_iff {cs : CacheSet} :
    cs.tagsUnique ↔ ∀ (t : Addr) (w : Nat) (e : Entry), cs.ways[w]? = some e → Entry.holds t e = true →
      cs.onlyIn w t := by
  constructor
  · intro h t w e he hh v f hf hv
    obtain ⟨hew, rfl⟩ := holds_iff.1 hh
    obtain ⟨hfv, htag⟩ := holds_iff.1 hv
    exact h v (List.getElem?_eq_some_iff.1 hf).1 w (List.getElem?_eq_some_iff.1 he).1 f hf e he hfv hew htag
  · intro h w _ v _ e he f hf hew hfv htag
    exact h f.tag v f hf (holds_iff.2 ⟨hfv, rfl⟩) w e he (holds_iff.2 ⟨hew, htag⟩)

/-- Where a lookup hits, the way holds the line (R107). -/
theorem find_holds {cs : CacheSet} {t : Addr} {w : Nat} (h : cs.find t = some w) :
    ∃ e, cs.ways[w]? = some e ∧ Entry.holds t e = true := by
  obtain ⟨hw, hh, -⟩ := find_eq_some.1 h
  exact ⟨_, List.getElem?_eq_getElem hw, hh⟩

/-- A line held by a single way is what a lookup finds. -/
theorem find_of_holds {cs : CacheSet} {t : Addr} {w : Nat} {e : Entry} (he : cs.ways[w]? = some e)
    (hh : Entry.holds t e = true) (honly : cs.onlyIn w t) : cs.find t = some w := by
  cases hf : cs.find t with
  | none => simp [find_eq_none.1 hf e (List.mem_of_getElem? he)] at hh
  | some v =>
    obtain ⟨f, hf', hv⟩ := find_holds hf
    rw [honly v f hf' hv]

theorem not_hasCopy_of_find_none {cs : CacheSet} {t : Addr} (h : cs.find t = none) (st : Coh) (d : List Byte) :
    ¬ cs.hasCopy t st d := by
  rintro ⟨v, e, he, hh, -, -⟩
  simp [find_eq_none.1 h e (List.mem_of_getElem? he)] at hh

/-! ### Well-formed sets -/

/-- A set is well-formed but for way w, which may be valid and not yet in ORDER: a fill before its touch (R126). -/
structure SetOkBut (p : Params) (c : CacheCfg) (cs : CacheSet) (w : Nat) : Prop where
  shape   : setShape p c cs
  ring    : cs.ringOk
  recency : ∀ v e, v ≠ w → cs.ways[v]? = some e → e.state.isValid = true → v ∈ cs.order
  tags    : cs.tagsUnique

/-- A well-formed set of cache c: the conditions of `Inv` on one set. -/
structure SetOk (p : Params) (c : CacheCfg) (cs : CacheSet) : Prop where
  shape   : setShape p c cs
  ring    : cs.ringOk
  recency : cs.recencyOk
  tags    : cs.tagsUnique

section
variable {p : Params} {c : CacheCfg} {cs ds : CacheSet} {w : Nat} {t : Addr}

theorem SetOk.mem_order (h : SetOk p c cs) {e : Entry} (he : cs.ways[w]? = some e)
    (hv : e.state.isValid = true) : w ∈ cs.order :=
  h.recency w (List.getElem?_eq_some_iff.1 he).1 e he hv

theorem SetOk.but (h : SetOk p c cs) (w : Nat) : SetOkBut p c cs w :=
  ⟨h.shape, h.ring, fun _ _ _ he hv => h.mem_order he hv, h.tags⟩

theorem SetOkBut.setOk (h : SetOkBut p c cs w)
    (hw : ∀ e, cs.ways[w]? = some e → e.state.isValid = true → w ∈ cs.order) : SetOk p c cs := by
  refine ⟨h.shape, h.ring, fun v _ e he hv => ?_, h.tags⟩
  by_cases hvw : v = w
  · subst hvw
    exact hw e he hv
  · exact h.recency v e hvw he hv

/-- The line a lookup finds is held by no other way (R41). -/
theorem SetOk.onlyIn_of_find (h : SetOk p c cs) (hf : cs.find t = some w) : cs.onlyIn w t := by
  obtain ⟨e, he, hh⟩ := find_holds hf
  exact tagsUnique_iff.1 h.tags t w e he hh

/-- A set holds one copy of a line at most (R41). -/
theorem SetOk.hasCopy_unique (h : SetOk p c cs) {st st' : Coh} {d d' : List Byte} (hc : cs.hasCopy t st d)
    (hc' : cs.hasCopy t st' d') : st' = st ∧ d' = d := by
  obtain ⟨v, e, he, hh, rfl, rfl⟩ := hc
  obtain ⟨u, f, hf, hu, rfl, rfl⟩ := hc'
  obtain rfl : u = v := tagsUnique_iff.1 h.tags t v e he hh u f hf hu
  obtain rfl : f = e := Option.some.inj (hf.symm.trans he)
  exact ⟨rfl, rfl⟩

/-! ### Touch -/

/-- Each way of a touched set has the state, tag and data it had (R111). -/
theorem touch_getElem? (h : cs.touch w = some ds) {v : Nat} {e : Entry} (he : ds.ways[v]? = some e) :
    ∃ f, cs.ways[v]? = some f ∧ e.state = f.state ∧ e.tag = f.tag ∧ e.data = f.data := by
  have hkeep := (touch_keeps h).2 v
  rw [he] at hkeep
  obtain ⟨f, hf, hcontent⟩ := Option.map_eq_some_iff.1 hkeep.symm
  simp only [Prod.mk.injEq] at hcontent
  obtain ⟨hst, htag, hdata⟩ := hcontent
  exact ⟨f, hf, hst.symm, htag.symm, hdata.symm⟩

theorem touch_hasCopy (h : cs.touch w = some ds) {st : Coh} {d : List Byte} (hc : ds.hasCopy t st d) :
    cs.hasCopy t st d := by
  obtain ⟨v, e, he, hh, rfl, rfl⟩ := hc
  obtain ⟨f, hf, hst, htag, hdata⟩ := touch_getElem? h he
  exact ⟨v, f, hf, by simpa [Entry.holds, hst, htag] using hh, hst.symm, hdata.symm⟩

/-- Touch puts the one way that may be missing into ORDER and keeps the rest well-formed. -/
theorem SetOkBut.touch (h : SetOkBut p c cs w) (ht : cs.touch w = some ds) : SetOk p c ds := by
  have hring : ds.isRing (w :: cs.order.erase w) := touch_isRing h.ring ht
  have horder : ds.order = w :: cs.order.erase w := isRing_order hring
  obtain ⟨hways, hentries⟩ := h.shape
  refine ⟨⟨(touch_keeps ht).1.trans hways, fun e hmem => ?_⟩, isRing_ringOk hring, fun v _ e he hv => ?_,
    tagsUnique_iff.2 fun u v e he hh x f hf hx => ?_⟩
  · obtain ⟨v, he⟩ := List.mem_iff_getElem?.1 hmem
    obtain ⟨f, hf, -, htag, hdata⟩ := touch_getElem? ht he
    rw [htag, hdata]
    exact hentries f (List.mem_of_getElem? hf)
  · rw [horder]
    obtain ⟨f, hf, hst, -, -⟩ := touch_getElem? ht he
    by_cases hvw : v = w
    · exact hvw ▸ List.mem_cons_self
    · exact List.mem_cons_of_mem _ ((List.mem_erase_of_ne hvw).2 (h.recency v f hvw hf (hst ▸ hv)))
  · obtain ⟨e', he', hst, htag, -⟩ := touch_getElem? ht he
    obtain ⟨f', hf', hst', htag', -⟩ := touch_getElem? ht hf
    rw [holds_iff, hst, htag] at hh
    rw [holds_iff, hst', htag'] at hx
    exact tagsUnique_iff.1 h.tags u v e' he' (holds_iff.2 hh) x f' hf' (holds_iff.2 hx)

/-! ### A change of one way -/

theorem modifyWay_getElem?_cases {f : Entry → Entry} {v : Nat} {e : Entry}
    (h : (cs.modifyWay w f).ways[v]? = some e) :
    (v ≠ w ∧ cs.ways[v]? = some e) ∨ (v = w ∧ ∃ g, cs.ways[w]? = some g ∧ e = f g) := by
  rw [modifyWay_getElem?] at h
  obtain ⟨g, hg, rfl⟩ := Option.map_eq_some_iff.1 h
  by_cases hv : w = v
  · subst hv
    exact .inr ⟨rfl, g, hg, if_pos rfl⟩
  · rw [if_neg hv]
    exact .inl ⟨Ne.symm hv, hg⟩

/-- Way w is given the line of tag t, or keeps it, and its links; no other way holds that line. -/
structure WayChange (p : Params) (c : CacheCfg) (cs : CacheSet) (w : Nat) (t : Addr) (f : Entry → Entry) : Prop where
  next : ∀ e, (f e).next = e.next
  prev : ∀ e, (f e).prev = e.prev
  only : cs.onlyIn w t
  tag  : ∀ e, cs.ways[w]? = some e → (f e).tag = t
  bits : ∀ e, cs.ways[w]? = some e → (f e).tag.toNat < 2 ^ c.tagBits p.lineSize
  data : ∀ e, cs.ways[w]? = some e → (f e).data.length = p.lineSize

theorem WayChange.setOkBut {f : Entry → Entry} (hf : WayChange p c cs w t f) (h : SetOk p c cs) :
    SetOkBut p c (cs.modifyWay w f) w := by
  obtain ⟨hways, hentries⟩ := h.shape
  refine ⟨⟨(modifyWay_length ..).trans hways, fun e hmem => ?_⟩,
    isRing_ringOk (isRing_congr h.ring rfl (modifyWay_length ..) (nextOf_modifyWay hf.next) (prevOf_modifyWay hf.prev)),
    fun v e hvw he hv => ?_, tagsUnique_iff.2 fun u v e he hh x g hg hx => ?_⟩
  · obtain ⟨v, he⟩ := List.mem_iff_getElem?.1 hmem
    rcases modifyWay_getElem?_cases he with ⟨-, he⟩ | ⟨-, g, hg, rfl⟩
    · exact hentries e (List.mem_of_getElem? he)
    · exact ⟨hf.data g hg, hf.bits g hg⟩
  · rw [modifyWay_order _ _ _ hf.next]
    rcases modifyWay_getElem?_cases he with ⟨-, he⟩ | ⟨hv', -⟩
    · exact h.mem_order he hv
    · exact absurd hv' hvw
  · rcases modifyWay_getElem?_cases he with ⟨hvw, hold⟩ | ⟨hvw, e', he', rfl⟩ <;>
      rcases modifyWay_getElem?_cases hg with ⟨hxw, hgold⟩ | ⟨hxw, g', hg', rfl⟩
    · exact tagsUnique_iff.1 h.tags u v e hold hh x g hgold hx
    · obtain rfl : t = u := (hf.tag g' hg').symm.trans (holds_iff.1 hx).2
      exact absurd (hf.only v e hold hh) hvw
    · obtain rfl : t = u := (hf.tag e' he').symm.trans (holds_iff.1 hh).2
      exact absurd (hf.only x g hgold hx) hxw
    · exact hxw.trans hvw.symm

theorem WayChange.lineReplaced {f : Entry → Entry} (hf : WayChange p c cs w t f) {P : Coh → List Byte → Prop}
    (hP : ∀ e, cs.ways[w]? = some e → (f e).state.isValid = true → P (f e).state (f e).data) :
    cs.lineReplaced (cs.modifyWay w f) t P := by
  refine ⟨?_, fun u hu => ?_⟩
  · rintro st d ⟨v, e, he, hh, rfl, rfl⟩
    rcases modifyWay_getElem?_cases he with ⟨hvw, he⟩ | ⟨-, g, hg, rfl⟩
    · exact absurd (hf.only v e he hh) hvw
    · exact hP g hg (holds_iff.1 hh).1
  · rintro st d ⟨v, e, he, hh, rfl, rfl⟩
    rcases modifyWay_getElem?_cases he with ⟨-, he⟩ | ⟨-, g, hg, rfl⟩
    · exact ⟨v, e, he, hh, rfl, rfl⟩
    · exact absurd ((holds_iff.1 hh).2.symm.trans (hf.tag g hg)) hu

theorem CacheSet.lineReplaced.touch {xs : CacheSet} {P : Coh → List Byte → Prop} (h : cs.lineReplaced xs t P)
    (ht : xs.touch w = some ds) : cs.lineReplaced ds t P :=
  ⟨fun st d hc => h.1 st d (touch_hasCopy ht hc), fun u hu st d hc => h.2 u hu st d (touch_hasCopy ht hc)⟩

/-! ### The changes the block makes -/

/-- A hit touches its way and keeps every copy (R121). -/
theorem SetOk.touch (h : SetOk p c cs) (ht : cs.touch w = some ds) (t : Addr) :
    SetOk p c ds ∧ cs.lineReplaced ds t (cs.hasCopy t) :=
  ⟨(h.but w).touch ht, fun _ _ hc => touch_hasCopy ht hc, fun _ _ _ _ hc => touch_hasCopy ht hc⟩

/-- A change of the state of the way a lookup finds (R124, R144). -/
theorem SetOk.setCoh (h : SetOk p c cs) (hf : cs.find t = some w) (st : Coh) :
    SetOk p c (cs.setCoh w st) ∧ cs.lineReplaced (cs.setCoh w st) t fun st' d =>
      st' = st ∧ st.isValid = true ∧ ∃ e, cs.ways[w]? = some e ∧ d = e.data := by
  obtain ⟨e, he, hh⟩ := find_holds hf
  obtain ⟨hvalid, htag⟩ := holds_iff.1 hh
  obtain ⟨-, hentries⟩ := h.shape
  have hch : WayChange p c cs w t (fun e => { e with state := st }) :=
    { next := fun _ => rfl
      prev := fun _ => rfl
      only := h.onlyIn_of_find hf
      tag := fun e' he' => by
        obtain rfl : e' = e := Option.some.inj (he'.symm.trans he)
        exact htag
      bits := fun e' he' => (hentries e' (List.mem_of_getElem? he')).2
      data := fun e' he' => (hentries e' (List.mem_of_getElem? he')).1 }
  refine ⟨(hch.setOkBut h).setOk fun _ _ _ => ?_, hch.lineReplaced fun e' he' hv => ⟨rfl, hv, e', he', rfl⟩⟩
  rw [modifyWay_order _ _ _ hch.next]
  exact h.mem_order he hvalid

/-- The overwrite of the way a lookup finds, with its touch (R143). -/
theorem SetOk.overwrite (h : SetOk p c cs) (hf : cs.find t = some w) {d : List Byte} (hd : d.length = p.lineSize)
    (ht : (cs.overwrite w d).touch w = some ds) :
    SetOk p c ds ∧ cs.lineReplaced ds t fun st d' => st = .modified ∧ d' = d := by
  obtain ⟨e, he, hh⟩ := find_holds hf
  obtain ⟨-, htag⟩ := holds_iff.1 hh
  obtain ⟨-, hentries⟩ := h.shape
  have hch : WayChange p c cs w t (fun e => { e with state := .modified, data := d }) :=
    { next := fun _ => rfl
      prev := fun _ => rfl
      only := h.onlyIn_of_find hf
      tag := fun e' he' => by
        obtain rfl : e' = e := Option.some.inj (he'.symm.trans he)
        exact htag
      bits := fun e' he' => (hentries e' (List.mem_of_getElem? he')).2
      data := fun _ _ => hd }
  exact ⟨(hch.setOkBut h).touch ht,
    CacheSet.lineReplaced.touch (hch.lineReplaced fun _ _ _ => ⟨rfl, rfl⟩) ht⟩

/-- The fill of a way with a line the set does not hold, with its touch (R126, R130). -/
theorem SetOk.fill (h : SetOk p c cs) (hf : cs.find t = none) {d : List Byte} (hd : d.length = p.lineSize)
    (hbits : t.toNat < 2 ^ c.tagBits p.lineSize) (ht : (cs.fill w t d).touch w = some ds) :
    SetOk p c ds ∧ cs.lineReplaced ds t fun st d' => st = .shared ∧ d' = d := by
  have hch : WayChange p c cs w t (fun e => { e with state := .shared, tag := t, data := d }) :=
    { next := fun _ => rfl
      prev := fun _ => rfl
      only := fun v e he hh => absurd ⟨v, e, he, hh, rfl, rfl⟩ (not_hasCopy_of_find_none hf e.state e.data)
      tag := fun _ _ => rfl
      bits := fun _ _ => hbits
      data := fun _ _ => hd }
  exact ⟨(hch.setOkBut h).touch ht,
    CacheSet.lineReplaced.touch (hch.lineReplaced fun _ _ _ => ⟨rfl, rfl⟩) ht⟩

end

end Sys2Proof.Machine

/-! PROOFS. The copies of a line in the block and its coherence (spec/10_state.md R42, R45), and the well-formedness of
a block from that of its sets. -/

namespace Sys2Proof.Machine

/-! ### Lines and where an address selects them (spec/40_geometry.md R94, R95, R102) -/

/-- Two addresses of one line: they differ in their offset bits only. -/
def sameLine (lineSize : Nat) (a b : Addr) : Prop := a >>> offBits lineSize = b >>> offBits lineSize

section
variable {p : Params} {c : CacheCfg} {a b : Addr}

theorem index_of_sameLine {L : Nat} (c : CacheCfg) (h : sameLine L a b) : c.index L a = c.index L b :=
  congrArg (fun x : Addr => x.toNat % c.setCount L) h

theorem tag_of_sameLine {L : Nat} (c : CacheCfg) (h : sameLine L a b) : c.tag L a = c.tag L b := by
  simp only [CacheCfg.tag, BitVec.shiftRight_add]
  exact congrArg (fun x : Addr => x >>> c.idxBits L) h

theorem lineSize_of_geometryLegal (h : geometryLegal p c = true) : 0 < p.lineSize := by
  simp only [geometryLegal, isPowerOfTwo, Bool.and_eq_true, decide_eq_true_eq] at h
  omega

theorem setCount_of_geometryLegal (h : geometryLegal p c = true) :
    2 ^ c.idxBits p.lineSize = c.setCount p.lineSize := by
  simp only [geometryLegal, isPowerOfTwo, Bool.and_eq_true, decide_eq_true_eq] at h
  exact h.2.2

/-- Tag and set of an address determine its line. -/
theorem sameLine_of_slot (h : geometryLegal p c = true) (htag : c.tag p.lineSize a = c.tag p.lineSize b)
    (hindex : c.index p.lineSize a = c.index p.lineSize b) : sameLine p.lineSize a b := by
  simp only [CacheCfg.tag, BitVec.shiftRight_add] at htag
  simp only [CacheCfg.index, ← setCount_of_geometryLegal h] at hindex
  have hdiv := congrArg BitVec.toNat htag
  rw [BitVec.toNat_ushiftRight (a >>> _), BitVec.toNat_ushiftRight (b >>> _), Nat.shiftRight_eq_div_pow,
    Nat.shiftRight_eq_div_pow] at hdiv
  apply BitVec.eq_of_toNat_eq
  rw [← Nat.div_add_mod (a >>> offBits p.lineSize).toNat (2 ^ c.idxBits p.lineSize), hdiv, hindex, Nat.div_add_mod]

/-- A tag has TAG_BITS bits (R93, R94). -/
theorem tag_lt (c : CacheCfg) (L : Nat) (a : Addr) : (c.tag L a).toNat < 2 ^ c.tagBits L := by
  rw [CacheCfg.tag, CacheCfg.tagBits, BitVec.toNat_ushiftRight, Nat.shiftRight_eq_div_pow, Nat.sub_sub]
  by_cases hle : offBits L + c.idxBits L ≤ 64
  · rw [Nat.div_lt_iff_lt_mul (Nat.two_pow_pos _), ← Nat.pow_add, Nat.sub_add_cancel hle]
    exact a.isLt
  · have hbig : a.toNat < 2 ^ (offBits L + c.idxBits L) :=
      lt_of_lt_of_le a.isLt (Nat.pow_le_pow_right (by decide) (by omega))
    rw [Nat.div_eq_of_lt hbig]
    exact Nat.two_pow_pos _

end

/-! ### Copies of a line in the block -/

/-- Cache k holds, valid, the line of a in state st with data d. -/
def State.hasCopy (s : State) (k : Nat) (a : Addr) (st : Coh) (d : List Byte) : Prop :=
  ∃ c cs, s.locate k a = some (c, cs) ∧ cs.hasCopy (c.tag s.params.lineSize a) st d

/-- Cache k may hold the line of a in state st with data d beside the copies the other caches hold (R42, R45). -/
def State.compatible (s : State) (k : Nat) (a : Addr) (st : Coh) (d : List Byte) : Prop :=
  ∀ j, j ≠ k → ∀ st' d', s.hasCopy j a st' d' → st ≠ .modified ∧ st' ≠ .modified ∧ d' = d

/-- Every copy is compatible with the others. -/
def State.coherent (s : State) : Prop := ∀ k a st d, s.hasCopy k a st d → s.compatible k a st d

/-- The copies of t are those of s, but those of the line of a in cache k meet P. -/
def State.lineReplaced (s t : State) (k : Nat) (a : Addr) (P : Coh → List Byte → Prop) : Prop :=
  (∀ st d, t.hasCopy k a st d → P st d) ∧
    ∀ j b st d, ¬ (j = k ∧ sameLine s.params.lineSize b a) → t.hasCopy j b st d → s.hasCopy j b st d

section
variable {s t : State} {k i : Nat} {a b : Addr} {c : CacheCfg} {cs ds : CacheSet} {st st' : Coh} {d d' : List Byte}

theorem hasCopy_congr (hp : t.params = s.params) (ha : t.arrays = s.arrays) :
    t.hasCopy k a st d ↔ s.hasCopy k a st d := by
  simp only [State.hasCopy, locate_congr hp ha, hp]

theorem hasCopy_of_sameLine (h : sameLine s.params.lineSize a b) (hc : s.hasCopy k a st d) : s.hasCopy k b st d := by
  obtain ⟨c, cs, hl, hcopy⟩ := hc
  obtain ⟨hcfg, hset⟩ := locate_eq_some.1 hl
  exact ⟨c, cs, locate_eq_some.2 ⟨hcfg, index_of_sameLine c h ▸ hset⟩, tag_of_sameLine c h ▸ hcopy⟩

theorem hasCopy_locate (hl : s.locate k a = some (c, cs)) :
    s.hasCopy k a st d ↔ cs.hasCopy (c.tag s.params.lineSize a) st d := by
  constructor
  · rintro ⟨c', cs', hl', hcopy⟩
    obtain ⟨rfl, rfl⟩ := Prod.mk.inj (Option.some.inj (hl'.symm.trans hl))
    exact hcopy
  · exact fun hcopy => ⟨c, cs, hl, hcopy⟩

theorem not_hasCopy_of_lookup_none (h : s.lookup k a = none) : ¬ s.hasCopy k a st d := by
  rintro ⟨c, cs, hl, hcopy⟩
  simp only [State.lookup, hl] at h
  exact not_hasCopy_of_find_none h _ _ hcopy

theorem State.lineReplaced.congr {u : State} {P : Coh → List Byte → Prop} (h : s.lineReplaced t k a P)
    (hp : u.params = s.params) (ha : u.arrays = s.arrays) : u.lineReplaced t k a P :=
  ⟨h.1, fun j b st d hne hc => (hasCopy_congr hp ha).2 (h.2 j b st d (hp ▸ hne) hc)⟩

/-- Where the line of a is replaced in cache k by copies that fit beside the others, coherence is kept. -/
theorem State.coherent.lineReplaced {P : Coh → List Byte → Prop} (h : s.coherent) (hr : s.lineReplaced t k a P)
    (hp : t.params = s.params) (hP : ∀ st d, P st d → s.compatible k a st d) : t.coherent := by
  have hnew : ∀ {b st d}, sameLine s.params.lineSize b a → t.hasCopy k b st d → s.compatible k a st d :=
    fun hb hc => hP _ _ (hr.1 _ _ (hasCopy_of_sameLine (by rwa [hp]) hc))
  intro j b st d hj l hl st' d' hc
  by_cases hjk : j = k ∧ sameLine s.params.lineSize b a
  · obtain ⟨rfl, hb⟩ := hjk
    exact hnew hb hj l hl st' d' (hasCopy_of_sameLine hb (hr.2 l b st' d' (fun hlk => hl hlk.1) hc))
  have hjold := hr.2 j b st d hjk hj
  by_cases hlk : l = k ∧ sameLine s.params.lineSize b a
  · obtain ⟨rfl, hb⟩ := hlk
    obtain ⟨h1, h2, h3⟩ := hnew hb hc j (Ne.symm hl) st d (hasCopy_of_sameLine hb hjold)
    exact ⟨h2, h1, h3.symm⟩
  · exact h j b st d hjold l hl st' d' (hr.2 l b st' d' hlk hc)

/-- Writing back a set in which the line of a was replaced replaces that line of the block. -/
theorem putSet_lineReplaced {P : Coh → List Byte → Prop} (hg : geometryLegal s.params c = true)
    (hl : s.locate k a = some (c, cs)) (h : cs.lineReplaced ds (c.tag s.params.lineSize a) P) :
    s.lineReplaced (s.putSet k (c.index s.params.lineSize a) ds) k a P := by
  obtain ⟨hcfg, hset⟩ := locate_eq_some.1 hl
  refine ⟨fun st d hc => ?_, fun j b st d hne hc => ?_⟩
  · have hl' : (s.putSet k (c.index s.params.lineSize a) ds).locate k a = some (c, ds) :=
      locate_eq_some.2 ⟨hcfg, getSet_putSet_same hset⟩
    exact h.1 st d ((hasCopy_locate hl').1 hc)
  · obtain ⟨cb, csb, hlb, hcopy⟩ := hc
    obtain ⟨hcb, hsb⟩ := locate_eq_some.1 hlb
    rw [putSet_params] at hcb hsb hcopy
    by_cases hslot : j = k ∧ cb.index s.params.lineSize b = c.index s.params.lineSize a
    · obtain ⟨rfl, hindex⟩ := hslot
      obtain rfl : cb = c := Option.some.inj (hcb.symm.trans hcfg)
      rw [hindex, getSet_putSet_same hset] at hsb
      obtain rfl : ds = csb := Option.some.inj hsb
      have htag : cb.tag s.params.lineSize b ≠ cb.tag s.params.lineSize a :=
        fun htag => hne ⟨rfl, sameLine_of_slot hg htag hindex⟩
      exact ⟨cb, cs, locate_eq_some.2 ⟨hcfg, hindex ▸ hset⟩, h.2 _ htag st d hcopy⟩
    · rw [getSet_putSet_other ds hslot] at hsb
      exact ⟨cb, csb, locate_eq_some.2 ⟨hcb, hsb⟩, hcopy⟩

/-! ### Copies and the state of a line -/

/-- The entry an address finds in a cache: that of the way the lookup hits (R107). -/
theorem lineEntry_eq_some {e : Entry} (h : s.lineEntry k a = some e) :
    ∃ c cs w, s.locate k a = some (c, cs) ∧ cs.find (c.tag s.params.lineSize a) = some w ∧
      cs.ways[w]? = some e := by
  simp only [State.lineEntry] at h
  split at h
  · cases h
  · rename_i c cs hl
    obtain ⟨w, hf, he⟩ := Option.bind_eq_some_iff.1 h
    exact ⟨c, cs, w, hl, hf, he⟩

theorem hasCopy_of_cohAt (h : s.cohAt k a ≠ .invalid) : s.hasCopy k a (s.cohAt k a) (s.dataAt k a) := by
  cases hentry : s.lineEntry k a with
  | none => simp [State.cohAt, hentry] at h
  | some e =>
    obtain ⟨c, cs, w, hl, hf, he⟩ := lineEntry_eq_some hentry
    obtain ⟨e', he', hh⟩ := find_holds hf
    obtain rfl : e' = e := Option.some.inj (he'.symm.trans he)
    exact ⟨c, cs, hl, w, e', he, hh, by simp [State.cohAt, hentry], by simp [State.dataAt, hentry]⟩

theorem hasCopy_cohAt (hset : ∀ c cs, s.locate k a = some (c, cs) → cs.tagsUnique) (h : s.hasCopy k a st d) :
    s.cohAt k a = st ∧ s.dataAt k a = d := by
  obtain ⟨c, cs, hl, v, e, he, hh, rfl, rfl⟩ := h
  have hf := find_of_holds he hh (tagsUnique_iff.1 (hset c cs hl) _ v e he hh)
  have hentry : s.lineEntry k a = some e := by simp [State.lineEntry, hl, hf, he]
  simp [State.cohAt, State.dataAt, hentry]

end

/-! ### A well-formed block and its sets -/

section
variable {s t : State} {k i : Nat} {a b : Addr} {c : CacheCfg} {cs ds : CacheSet} {st st' : Coh} {d d' : List Byte}

/-- What REG, the arrays and their sets are in a well-formed block, set by set. -/
structure SetsOk (s : State) : Prop where
  reg    : s.reg = List.range s.params.nCaches
  caches : s.arrays.length = s.params.nCaches
  count  : ∀ (k : Nat) (c : CacheCfg) (x : CacheArray), s.params.caches[k]? = some c → s.arrays[k]? = some x →
    x.length = c.setCount s.params.lineSize
  sets   : ∀ (k : Nat) (c : CacheCfg) (x : CacheArray) (cs : CacheSet), s.params.caches[k]? = some c →
    s.arrays[k]? = some x → cs ∈ x → SetOk s.params c cs

theorem lt_nCaches (h : s.params.caches[k]? = some c) : k < s.params.nCaches :=
  (List.getElem?_eq_some_iff.1 h).1

theorem everySet_iff {P : CacheCfg → CacheSet → Prop} :
    s.everySet P ↔ ∀ (k : Nat) (c : CacheCfg) (x : CacheArray) (cs : CacheSet), s.params.caches[k]? = some c →
      s.arrays[k]? = some x → cs ∈ x → P c cs :=
  ⟨fun h k c x cs hc hx hcs => h k (lt_nCaches hc) c hc x hx cs hcs,
    fun h k _ c hc x hx cs hcs => h k c x cs hc hx hcs⟩

theorem Inv.setsOk (h : Inv s) : SetsOk s := by
  obtain ⟨hreg, hlen, hcount, hshape⟩ := h.shape
  refine ⟨hreg, hlen, fun k c x hc hx => hcount k (lt_nCaches hc) c hc x hx, fun k c x cs hc hx hcs => ?_⟩
  exact ⟨everySet_iff.1 hshape k c x cs hc hx hcs, everySet_iff.1 h.rings k c x cs hc hx hcs,
    everySet_iff.1 h.recency k c x cs hc hx hcs, everySet_iff.1 h.tags k c x cs hc hx hcs⟩

theorem SetsOk.locate (h : SetsOk s) (hl : s.locate k a = some (c, cs)) : SetOk s.params c cs := by
  obtain ⟨hc, hset⟩ := locate_eq_some.1 hl
  obtain ⟨x, hx, hi⟩ := Option.bind_eq_some_iff.1 hset
  exact h.sets k c x cs hc hx (List.mem_of_getElem? hi)

theorem hasCopy_mem_reg (h : SetsOk s) (hc : s.hasCopy k a st d) : k ∈ s.reg := by
  obtain ⟨c, cs, hl, -⟩ := hc
  rw [h.reg, List.mem_range]
  exact lt_nCaches (locate_eq_some.1 hl).1

theorem SetsOk.cohAt_of_hasCopy (h : SetsOk s) (hc : s.hasCopy k a st d) : s.cohAt k a = st ∧ s.dataAt k a = d :=
  hasCopy_cohAt (fun _ _ hl => (h.locate hl).tags) hc

theorem hasCopy_ne_invalid (hc : s.hasCopy k a st d) : st ≠ .invalid := by
  obtain ⟨_, _, -, hcopy⟩ := hc
  exact isValid_iff.1 (hasCopy_isValid hcopy)

/-- R42 and R45 together are the coherence of all copies. -/
theorem coherent_iff (h : SetsOk s) : s.coherent ↔ s.singleWriter ∧ s.copiesAgree := by
  constructor
  · intro hco
    refine ⟨fun a j _ k _ hjk hm => ?_, fun a j _ k _ hj hk => ?_⟩
    · by_contra hk
      have hj : s.cohAt j a ≠ .invalid := by rw [hm]; decide
      exact (hco j a _ _ (hasCopy_of_cohAt hj) k (Ne.symm hjk) _ _ (hasCopy_of_cohAt hk)).1 hm
    · by_cases hjk : k = j
      · rw [hjk]
      · exact (hco j a _ _ (hasCopy_of_cohAt hj) k hjk _ _ (hasCopy_of_cohAt hk)).2.2.symm
  · rintro ⟨hsw, hagree⟩ j a st d hj k hkj st' d' hk
    have hjr := hasCopy_mem_reg h hj
    have hkr := hasCopy_mem_reg h hk
    have hj0 := hasCopy_ne_invalid hj
    have hk0 := hasCopy_ne_invalid hk
    obtain ⟨rfl, rfl⟩ := h.cohAt_of_hasCopy hj
    obtain ⟨rfl, rfl⟩ := h.cohAt_of_hasCopy hk
    exact ⟨fun hm => hk0 (hsw a j hjr k hkr (Ne.symm hkj) hm), fun hm => hj0 (hsw a k hkr j hjr hkj hm),
      hagree a k hkr j hjr hk0 hj0⟩

/-- A block is well-formed when its parameters, its sets, its MEM and FAULT are and its copies are coherent. -/
theorem SetsOk.inv (h : SetsOk s) (hlegal : paramsLegal s.params) (hrange : s.params.inRange = true)
    (hco : s.coherent) (hmem : Memory.wf s.params.storeSize s.mem = true) (hfault : s.fault.ok) : Inv s where
  legal := hlegal
  range := hrange
  shape := ⟨h.reg, h.caches, fun k _ c hc x hx => h.count k c x hc hx,
    everySet_iff.2 fun k c x cs hc hx hcs => (h.sets k c x cs hc hx hcs).shape⟩
  rings := everySet_iff.2 fun k c x cs hc hx hcs => (h.sets k c x cs hc hx hcs).ring
  recency := everySet_iff.2 fun k c x cs hc hx hcs => (h.sets k c x cs hc hx hcs).recency
  tags := everySet_iff.2 fun k c x cs hc hx hcs => (h.sets k c x cs hc hx hcs).tags
  singleWriter := ((coherent_iff h).1 hco).1
  agree := ((coherent_iff h).1 hco).2
  mem := hmem
  fault := hfault

theorem Inv.coherent (h : Inv s) : s.coherent := (coherent_iff h.setsOk).2 ⟨h.singleWriter, h.agree⟩

theorem Inv.setOk (h : Inv s) (hl : s.locate k a = some (c, cs)) : SetOk s.params c cs := h.setsOk.locate hl

theorem Inv.geometry (h : Inv s) (hc : s.params.caches[k]? = some c) : geometryLegal s.params c = true := by
  obtain ⟨hcaches, -, -⟩ := h.legal
  exact (hcaches c (List.mem_of_getElem? hc)).2.1

theorem Inv.storeSize_pos (h : Inv s) (hc : s.params.caches[k]? = some c) : 0 < s.params.storeSize := by
  obtain ⟨-, hstore, -⟩ := h.legal
  simp only [storeLegal, Bool.and_eq_true, decide_eq_true_eq] at hstore
  exact lt_of_lt_of_le (lineSize_of_geometryLegal (h.geometry hc)) hstore.1

/-- `Inv` speaks of the parameters, the arrays, REG, MEM and FAULT alone. -/
theorem Inv.congr (h : Inv s) (hp : t.params = s.params) (ha : t.arrays = s.arrays) (hr : t.reg = s.reg)
    (hm : Memory.wf t.params.storeSize t.mem = true) (hf : t.fault.ok) : Inv t := by
  obtain ⟨hreg, hlen, hcount, hsets⟩ := h.setsOk
  refine SetsOk.inv ⟨by rw [hr, hp, hreg], by rw [ha, hp, hlen], by rwa [ha, hp], by rwa [ha, hp]⟩
    (hp ▸ h.legal) (hp ▸ h.range) (fun k a st d hc j hj st' d' hc' => ?_) hm hf
  exact h.coherent k a st d ((hasCopy_congr hp ha).1 hc) j hj st' d' ((hasCopy_congr hp ha).1 hc')

/-- A change of MEM or of the draws that keeps MEM canonical. -/
theorem Inv.sameArrays (h : Inv s) (f : SameFrame s t) (ha : t.arrays = s.arrays)
    (hm : Memory.wf s.params.storeSize t.mem = true) : Inv t :=
  h.congr f.params ha f.reg (by rw [f.params]; exact hm) (by rw [f.fault]; exact h.fault)

/-- The arrays after a set was written: the same sets, but for the one written (R23). -/
theorem putSet_array_cases {j : Nat} {x : CacheArray} (h : (s.putSet k i ds).arrays[j]? = some x) :
    ∃ y, s.arrays[j]? = some y ∧ x.length = y.length ∧ ∀ cs ∈ x, cs ∈ y ∨ (j = k ∧ cs = ds) := by
  simp only [State.putSet, List.getElem?_modify] at h
  obtain ⟨y, hy, rfl⟩ := Option.map_eq_some_iff.1 h
  refine ⟨y, hy, ?_⟩
  split
  · rename_i hkj
    exact ⟨List.length_set .., fun cs hcs => (List.mem_or_eq_of_mem_set hcs).imp_right fun h => ⟨hkj.symm, h⟩⟩
  · exact ⟨rfl, fun cs hcs => .inl hcs⟩

theorem SetsOk.putSet (h : SetsOk s) (hc : s.params.caches[k]? = some c) (hds : SetOk s.params c ds) :
    SetsOk (s.putSet k i ds) := by
  refine ⟨h.reg, (putSet_arrays_length ..).trans h.caches, fun j cj x hcj hx => ?_, fun j cj x cs hcj hx hcs => ?_⟩
  · obtain ⟨y, hy, hlen, -⟩ := putSet_array_cases hx
    exact hlen.trans (h.count j cj y hcj hy)
  · obtain ⟨y, hy, -, hmem⟩ := putSet_array_cases hx
    rcases hmem cs hcs with hold | ⟨rfl, rfl⟩
    · exact h.sets j cj y cs hcj hy hold
    · obtain rfl : cj = c := Option.some.inj (hcj.symm.trans hc)
      exact hds

/-- Writing back a well-formed set in which the line of a was replaced by copies that fit beside the others. -/
theorem Inv.putSet {P : Coh → List Byte → Prop} (h : Inv s) (hl : s.locate k a = some (c, cs))
    (hds : SetOk s.params c ds ∧ cs.lineReplaced ds (c.tag s.params.lineSize a) P)
    (hP : ∀ st d, P st d → s.compatible k a st d) :
    Inv (s.putSet k (c.index s.params.lineSize a) ds) ∧
      s.lineReplaced (s.putSet k (c.index s.params.lineSize a) ds) k a P := by
  obtain ⟨hok, hrep⟩ := hds
  obtain ⟨hcfg, -⟩ := locate_eq_some.1 hl
  have hlines := putSet_lineReplaced (h.geometry hcfg) hl hrep
  have hco := h.coherent.lineReplaced hlines rfl hP
  exact ⟨(h.setsOk.putSet hcfg hok).inv h.legal h.range hco h.mem h.fault, hlines⟩

end

end Sys2Proof.Machine

/-! PROOFS. Every operation keeps the block well-formed (spec/10_state.md R41 to R45): write-back, the read path, the
write path, the accessors, and the step. -/

namespace Sys2Proof.Machine

section
variable {s t : State} {k j : Nat} {a : Addr} {d d' : List Byte}

/-! ### What the caches hold of one line -/

/-- No cache holds the line of a. -/
def State.uncached (s : State) (a : Addr) : Prop := ∀ k st d, ¬ s.hasCopy k a st d

/-- Every copy of the line of a is Shared, with data d. -/
def State.sharedAs (s : State) (a : Addr) (d : List Byte) : Prop :=
  ∀ k st d', s.hasCopy k a st d' → st = .shared ∧ d' = d

theorem State.uncached.sharedAs (h : s.uncached a) (d : List Byte) : s.sharedAs a d :=
  fun k st d' hc => absurd hc (h k st d')

theorem State.sharedAs.compatible (h : s.sharedAs a d) (k : Nat) : s.compatible k a .shared d := by
  intro j _ st' d' hc
  obtain ⟨rfl, rfl⟩ := h j st' d' hc
  exact ⟨by decide, by decide, rfl⟩

/-- Where a lookup hits, the cache holds a copy. -/
theorem lookup_hasCopy {w : Nat} (h : s.lookup k a = some w) : ∃ st d, s.hasCopy k a st d := by
  obtain ⟨c, cs, hl, hf⟩ := lookup_eq_some.1 h
  obtain ⟨e, he, hh⟩ := find_holds hf
  exact ⟨e.state, e.data, c, cs, hl, w, e, he, hh, rfl, rfl⟩

/-- A lookup misses exactly where the cache holds no copy (R107). -/
theorem lookup_eq_none_iff : s.lookup k a = none ↔ ∀ st d, ¬ s.hasCopy k a st d := by
  refine ⟨fun h _ _ => not_hasCopy_of_lookup_none h, fun h => ?_⟩
  cases hl : s.lookup k a with
  | none => rfl
  | some w =>
    obtain ⟨st, d, hc⟩ := lookup_hasCopy hl
    exact absurd hc (h st d)

/-- After a miss without a sibling no cache holds the line (R122). -/
theorem uncached_of_miss (h : Inv s) (hl : s.lookup k a = none) (hn : findSibling s k a = none) : s.uncached a := by
  intro j st d hc
  by_cases hjk : j = k
  · exact not_hasCopy_of_lookup_none hl (hjk ▸ hc)
  · exact not_hasCopy_of_lookup_none (findSibling_none.1 hn j (hasCopy_mem_reg h.setsOk hc) hjk) hc

theorem shared_of_valid {st : Coh} (hvalid : st ≠ .invalid) (hclean : st ≠ .modified) : st = .shared := by
  cases st with
  | invalid => exact absurd rfl hvalid
  | shared => rfl
  | modified => exact absurd rfl hclean

/-- Filling another cache with a line that none held leaves every copy of it Shared with the fill's data. -/
theorem State.uncached.sharedAs_of_fill (h : s.uncached a)
    (hr : s.lineReplaced t k a fun st x => st = .shared ∧ x = d) : t.sharedAs a d := by
  intro j st d' hc
  by_cases hjk : j = k
  · exact hr.1 st d' (hjk ▸ hc)
  · exact absurd (hr.2 j a st d' (fun hx => hjk hx.1) hc) (h j st d')

/-! ### Write-back -/

theorem writeBack_inv {i w : Nat} {u : Unit} (h : Inv s) (hw : writeBack k i w s = .ok u t) : Inv t := by
  obtain ⟨c, e, -, hc, -, -, rfl⟩ := writeBack_ok hw
  exact h.sameArrays (SameFrame.memWrite ..) rfl (memWrite_wf (h.storeSize_pos hc) h.mem)

theorem evict_inv {i v : Nat} {u : Unit} (h : Inv s) (he : evict k i v s = .ok u t) : Inv t := by
  obtain ⟨e, -, ⟨-, hw⟩ | ⟨-, rfl⟩⟩ := evict_ok he
  · exact writeBack_inv h hw
  · exact h

/-! ### The read path -/

/-- A local hit reorders its set and returns L bytes (R121). -/
theorem localHit_inv {w : Nat} (h : Inv s) (hh : localHit k a w s = .ok d t) :
    Inv t ∧ d.length = s.params.lineSize := by
  obtain ⟨c, cs, e, ds, hl, he, ht, rfl, rfl⟩ := localHit_ok hh
  have hok := h.setOk hl
  have hold : ∀ st d, cs.hasCopy (c.tag s.params.lineSize a) st d → s.compatible k a st d :=
    fun st d hc => h.coherent k a st d ((hasCopy_locate hl).2 hc)
  exact ⟨(h.putSet hl (hok.touch ht _) hold).1, (hok.shape.2 e (List.mem_of_getElem? he)).1⟩

/-- A fill with a line that the cache lacks and that every other cache holds Shared with the same data (R126, R130). -/
theorem place_inv (h : Inv s) (hmiss : s.lookup k a = none) (hshared : s.sharedAs a d)
    (hd : d.length = s.params.lineSize) (hp : place k a d s = .ok d' t) :
    Inv t ∧ d' = d ∧ s.lineReplaced t k a fun st x => st = .shared ∧ x = d := by
  obtain ⟨c, cs, v, s1, ds, hl, -, he, ht, rfl, rfl⟩ := place_ok hp
  obtain ⟨hframe, -, harrays, -⟩ := evict_frame he
  have hinv1 := evict_inv h he
  have hl1 : s1.locate k a = some (c, cs) := (locate_congr hframe.params harrays k a).trans hl
  have hfind : cs.find (c.tag s.params.lineSize a) = none := by simpa [State.lookup, hl] using hmiss
  have hcompat : ∀ st x, st = .shared ∧ x = d' → s1.compatible k a st x := by
    rintro st x ⟨rfl, rfl⟩
    exact State.sharedAs.compatible
      (fun j st x hc => hshared j st x ((hasCopy_congr hframe.params harrays).1 hc)) k
  rw [← hframe.params] at hfind ht hd ⊢
  have hput := hinv1.putSet hl1 ((hinv1.setOk hl1).fill hfind hd (tag_lt ..) ht) hcompat
  exact ⟨hput.1, rfl, hput.2.congr hframe.params.symm harrays.symm⟩

/-- The store answers a read with as many bytes as asked (R51, R53). -/
theorem memRead_length (a : Addr) (n : Nat) (s : State) : (memRead a n s).1.length = n := by
  simp only [memRead, List.length_append, Memory.readBytes_length, freeBytes_length, fitting]
  omega

/-- A fill from the backing store of a line that no cache holds (R129). -/
theorem placeFromStore_inv (h : Inv s) (hun : s.uncached a)
    (hp : place k a (memRead (lineBase s.params.lineSize a) s.params.lineSize s).1
      (memRead (lineBase s.params.lineSize a) s.params.lineSize s).2 = .ok d t) :
    Inv t ∧ d.length = s.params.lineSize ∧ s.lineReplaced t k a fun st x => st = .shared ∧ x = d := by
  have hd := memRead_length (lineBase s.params.lineSize a) s.params.lineSize s
  have hinv := h.sameArrays (SameFrame.memRead s (lineBase s.params.lineSize a) s.params.lineSize) rfl h.mem
  have hun' : State.uncached (memRead (lineBase s.params.lineSize a) s.params.lineSize s).2 a := hun
  obtain ⟨hinv', rfl, hrep⟩ := place_inv hinv (lookup_eq_none_iff.2 (hun' k)) (hun'.sharedAs _) hd hp
  exact ⟨hinv', hd, hrep⟩

/-- A sibling's copy becomes Shared if it was Modified, and is then, with its data, what every cache holds of the line
(R124, R127). -/
theorem siblingCopy_inv (h : Inv s) (hc : siblingCopy j a s = .ok d t) :
    Inv t ∧ d.length = s.params.lineSize ∧ t.sharedAs a d ∧
      ∀ k st x, k ≠ j → t.hasCopy k a st x → s.hasCopy k a st x := by
  obtain ⟨c, cs, w, e, hl, hf, he, rfl, hcase⟩ := siblingCopy_ok hc
  have hok := h.setOk hl
  obtain ⟨e', he', hh⟩ := find_holds hf
  obtain rfl : e' = e := Option.some.inj (he'.symm.trans he)
  have hcopy : s.hasCopy j a e'.state e'.data := ⟨c, cs, hl, w, e', he, hh, rfl, rfl⟩
  have hd : e'.data.length = s.params.lineSize := (hok.shape.2 e' (List.mem_of_getElem? he)).1
  have hothers := h.coherent j a _ _ hcopy
  rcases hcase with ⟨hm, s1, hw, rfl⟩ | ⟨hm, rfl⟩
  · obtain ⟨hframe, -, harrays, -⟩ := writeBack_frame hw
    have hinv1 := writeBack_inv h hw
    have hl1 : s1.locate j a = some (c, cs) := (locate_congr hframe.params harrays j a).trans hl
    have halone : ∀ k st x, k ≠ j → ¬ s1.hasCopy k a st x := fun k st x hk hx =>
      (hothers k hk st x ((hasCopy_congr hframe.params harrays).1 hx)).1 hm
    rw [← hframe.params] at hf hd ⊢
    obtain ⟨hinv, hrep⟩ := hinv1.putSet hl1 ((hinv1.setOk hl1).setCoh hf .shared)
      fun st x _ k hk st' x' hx => absurd hx (halone k st' x' hk)
    have hgone : ∀ k st x, k ≠ j →
        ¬ State.hasCopy (s1.putSet j (c.index s1.params.lineSize a) (cs.setCoh w .shared)) k a st x := fun k st x hk hx => halone k st x hk (hrep.2 k a st x (fun hkj => hk hkj.1) hx)
    refine ⟨hinv, hd, fun k st x hx => ?_, fun k st x hk hx => absurd hx (hgone k st x hk)⟩
    by_cases hk : k = j
    · obtain ⟨hst, -, f, hfw, rfl⟩ := hrep.1 st x (hk ▸ hx)
      obtain rfl : f = e' := Option.some.inj (hfw.symm.trans he)
      exact ⟨hst, rfl⟩
    · exact absurd hx (hgone k st x hk)
  · refine ⟨h, hd, fun k st x hx => ?_, fun _ _ _ _ hx => hx⟩
    have hne := hasCopy_ne_invalid hx
    by_cases hk : k = j
    · subst hk
      obtain ⟨rfl, rfl⟩ := hok.hasCopy_unique ((hasCopy_locate hl).1 hcopy) ((hasCopy_locate hl).1 hx)
      exact ⟨shared_of_valid hne hm, rfl⟩
    · obtain ⟨-, hnm, hx'⟩ := hothers k hk st x hx
      exact ⟨shared_of_valid hne hnm, hx'⟩

/-- A read from the next level of a line that no cache holds: that level is terminal and fills it from the store. -/
theorem readNext_inv {m : Nat} (h : Inv s) (hun : s.uncached a) (hr : readLineN 1 m a s = .ok d t) :
    Inv t ∧ d.length = s.params.lineSize ∧ (s.lineReplaced t m a fun st x => st = .shared ∧ x = d) ∧
      ∃ c, s.params.caches[m]? = some c ∧ c.next = .terminal := by
  have hmiss : ∀ j w, s.lookup j a ≠ some w := fun j w hl => by
    obtain ⟨st, x, hx⟩ := lookup_hasCopy hl
    exact hun j st x hx
  rcases readLineN_ok hr with ⟨w, hl, -⟩ | ⟨-, j, _, _, hj, -, -⟩ |
    ⟨-, -, c, hc, ⟨_, _, _, -, hloop, -⟩ | ⟨ht, hp⟩⟩
  · exact absurd hl (hmiss m w)
  · obtain ⟨-, -, w, hl⟩ := findSibling_some hj
    exact absurd hl (hmiss j w)
  · simp [readLineN] at hloop
  · obtain ⟨hinv, hd, hrep⟩ := placeFromStore_inv h hun hp
    exact ⟨hinv, hd, hrep, c, hc, ht⟩

/-- read_line keeps the block well-formed and returns L bytes (R120). -/
theorem readLine_inv (h : Inv s) (hr : readLine k a s = .ok d t) : Inv t ∧ d.length = s.params.lineSize := by
  rcases readLineN_ok hr with ⟨w, -, hhit⟩ | ⟨hmiss, j, s1, d1, hj, hcopy, hp⟩ |
    ⟨hmiss, hn, c, hc, ⟨m, s1, d1, hm, hnext, hp⟩ | ⟨-, hp⟩⟩
  · exact localHit_inv h hhit
  · obtain ⟨hinv1, hd, hshared, hkept⟩ := siblingCopy_inv h hcopy
    have hparams := (siblingCopy_frame hcopy).1.params
    have hmiss1 : s1.lookup k a = none := lookup_eq_none_iff.2 fun st x hx =>
      not_hasCopy_of_lookup_none hmiss (hkept k st x (Ne.symm (findSibling_some hj).2.1) hx)
    obtain ⟨hinv, rfl, -⟩ := place_inv hinv1 hmiss1 hshared (hparams ▸ hd) hp
    exact ⟨hinv, hd⟩
  · have hun := uncached_of_miss h hmiss hn
    obtain ⟨hinv1, hd, hrep, cm, hcm, hterm⟩ := readNext_inv h hun hnext
    have hparams := (readLineN_frame hnext).1.params
    have hkm : k ≠ m := by
      rintro rfl
      obtain rfl : cm = c := Option.some.inj (hcm.symm.trans hc)
      simp [hterm] at hm
    have hmiss1 : s1.lookup k a = none := lookup_eq_none_iff.2 fun st x hx =>
      hun k st x (hrep.2 k a st x (fun hx => hkm hx.1) hx)
    obtain ⟨hinv, rfl, -⟩ := place_inv hinv1 hmiss1 (hun.sharedAs_of_fill hrep) (hparams ▸ hd) hp
    exact ⟨hinv, hd⟩
  · obtain ⟨hinv, hd, -⟩ := placeFromStore_inv h (uncached_of_miss h hmiss hn) hp
    exact ⟨hinv, hd⟩

/-! ### The write path -/

/-- The copy of the line of a in cache j is gone (R144). -/
theorem invalidateCopy_inv (h : Inv s) (j : Nat) (a : Addr) :
    Inv (invalidateCopy j a s) ∧ s.lineReplaced (invalidateCopy j a s) j a fun _ _ => False := by
  rcases invalidateCopy_cases j a s with ⟨hmiss, heq⟩ | ⟨c, cs, w, hl, hf, heq⟩
  · rw [heq]
    exact ⟨h, fun _ _ hc => not_hasCopy_of_lookup_none hmiss hc, fun _ _ _ _ _ hc => hc⟩
  · rw [heq]
    obtain ⟨hok, hrep⟩ := (h.setOk hl).setCoh hf .invalid
    have hnone : ∀ st x, (cs.setCoh w .invalid).hasCopy (c.tag s.params.lineSize a) st x → False :=
      fun st x hx => by simpa [Coh.isValid] using hrep.1 st x hx
    exact h.putSet hl ⟨hok, hnone, hrep.2⟩ fun _ _ hP => hP.elim

/-- An invalidation touches no other cache. -/
theorem invalidateCopy_locate (s : State) (a : Addr) (hkj : k ≠ j) :
    (invalidateCopy j a s).locate k a = s.locate k a := by
  rcases invalidateCopy_cases j a s with ⟨-, heq⟩ | ⟨c, cs, w, -, -, heq⟩
  · rw [heq]
  · simp only [heq, State.locate, putSet_params, getSet_putSet_other (cs.setCoh w .invalid) (fun h => hkj h.1)]

/-- Step 1 of write_line: the block stays well-formed, cache k keeps its set, and no other cache listed holds the line
(R142). -/
theorem invalidateOthers_inv (h : Inv s) (k : Nat) (a : Addr) (js : List Nat) :
    Inv (invalidateOthers k a js s) ∧ (invalidateOthers k a js s).locate k a = s.locate k a ∧
      ∀ j st x, (invalidateOthers k a js s).hasCopy j a st x → s.hasCopy j a st x ∧ (j ∈ js → j = k) := by
  induction js generalizing s with
  | nil => exact ⟨h, rfl, fun j st x hc => ⟨hc, fun hj => by cases hj⟩⟩
  | cons i js ih =>
    simp only [invalidateOthers]
    by_cases hik : i = k
    · obtain ⟨hinv, hset, hcopies⟩ := ih h
      rw [if_pos hik]
      refine ⟨hinv, hset, fun j st x hc => ?_⟩
      obtain ⟨hold, hjs⟩ := hcopies j st x hc
      exact ⟨hold, fun hj => (List.mem_cons.1 hj).elim (fun hji => hji.trans hik) hjs⟩
    · obtain ⟨hinv1, hgone, hrest⟩ := invalidateCopy_inv h i a
      obtain ⟨hinv, hset, hcopies⟩ := ih hinv1
      rw [if_neg hik]
      refine ⟨hinv, hset.trans (invalidateCopy_locate s a (Ne.symm hik)), fun j st x hc => ?_⟩
      obtain ⟨hold, hjs⟩ := hcopies j st x hc
      have hji : j ≠ i := by
        rintro rfl
        exact hgone st x hold
      exact ⟨hrest j a st x (fun hx => hji hx.1) hold, fun hj => hjs ((List.mem_cons.1 hj).resolve_left hji)⟩

/-- write_line leaves the writer the only holder of the line (R142, R143). -/
theorem writeLine_inv {u : Unit} (h : Inv s) (hd : d.length = s.params.lineSize) (hw : writeLine k a d s = .ok u t) :
    Inv t := by
  obtain ⟨c, cs, w, ds, hl, hf, ht, rfl⟩ := writeLine_ok hw
  obtain ⟨hinv, hset, hcopies⟩ := invalidateOthers_inv h k a s.reg
  have hparams := (invalidateOthers_frame k a s.reg s).1.params
  have halone : ∀ j st x, j ≠ k → ¬ (invalidateOthers k a s.reg s).hasCopy j a st x := fun j st x hjk hc => by
    obtain ⟨hold, hj⟩ := hcopies j st x hc
    exact hjk (hj (hasCopy_mem_reg h.setsOk hold))
  have hl' := hset.trans hl
  rw [← hparams] at hf hd ⊢
  exact (hinv.putSet hl' ((hinv.setOk hl').overwrite hf hd ht) fun _ _ _ j hj st x hc => absurd hc (halone j st x hj)).1

/-! ### The accessors -/

theorem getByte_inv {b : Byte} (h : Inv s) (hg : getByte k a s = .ok b t) : Inv t := by
  obtain ⟨buf, hr, -⟩ := getByte_ok hg
  exact (readLine_inv h hr).1

theorem getBytes_inv {n : Nat} {bs : List Byte} (h : Inv s) (hg : getBytes k a n s = .ok bs t) : Inv t := by
  induction n generalizing a bs s with
  | zero =>
    simp only [getBytes] at hg
    cases hg
    exact h
  | succ n ih =>
    obtain ⟨b, s1, bs1, hb, hrest, -⟩ := getBytes_ok hg
    exact ih (getByte_inv h hb) hrest

/-- The read-before-write sequence writes back the line it read, with one byte changed (R158). -/
theorem putByteCached_inv {b : Byte} {u : Unit} (h : Inv s) (hp : putByteCached k a b s = .ok u t) : Inv t := by
  obtain ⟨buf, s1, hr, hw⟩ := putByteCached_ok hp
  obtain ⟨hinv, hbuf⟩ := readLine_inv h hr
  refine writeLine_inv hinv ?_ hw
  rw [List.length_set, (readLineN_frame hr).1.params, hbuf]

theorem putByte_inv {b : Byte} {u : Unit} (h : Inv s) (hp : putByte k a b s = .ok u t) : Inv t := by
  rcases putByte_ok hp with ⟨d, -, rfl⟩ | ⟨-, hp⟩
  · exact h.sameArrays (SameFrame.devWrite ..) rfl h.mem
  · exact putByteCached_inv h hp

theorem putBytes_inv {bs : List Byte} {u : Unit} (h : Inv s) (hp : putBytes k a bs s = .ok u t) : Inv t := by
  induction bs generalizing a s with
  | nil =>
    simp only [putBytes] at hp
    cases hp
    exact h
  | cons b bs ih =>
    obtain ⟨s1, hb, hrest⟩ := putBytes_ok hp
    exact ih (putByte_inv h hb) hrest

/-! ### The step -/

/-- A raised fault has a code (R181). -/
theorem raised_ok {code : FaultCode} (h : code ≠ .none) (cache level addr) :
    (FaultReg.raised code cache level addr).ok :=
  ⟨nofun, fun _ => h⟩

theorem raiseFault_inv (h : Inv s) {code : FaultCode} (hcode : code ≠ .none) (cache level addr) :
    Inv (s.raiseFault code cache level addr) :=
  h.congr rfl rfl rfl h.mem (raised_ok hcode ..)

theorem respond_inv (h : Inv s) (r : Response) : Inv (s.respond r) := h.congr rfl rfl rfl h.mem h.fault

theorem accept_inv (h : Inv s) (r : Request) (rest : List Request) : Inv (s.accept r rest) :=
  h.congr rfl rfl rfl h.mem h.fault

/-- A reserved word changes FAULT and the responses alone (R79, R186). -/
theorem illegalRequest_inv (h : Inv s) : Inv s.illegalRequest :=
  respond_inv (raiseFault_inv h (by decide) ..) Response.faulted

/-- What a request performs keeps the block well-formed. -/
theorem Performed.inv (hp : Performed s t) (h : Inv s) : Inv t := by
  cases hp with
  | gotBytes hg => exact getBytes_inv h hg
  | gotLine hr => exact (readLine_inv h hr).1
  | putBytes hb => exact putBytes_inv h hb
  | wroteLine hd hw => exact writeLine_inv h hd hw
  | missedPut hb hr => exact raiseFault_inv (readLine_inv (putBytes_inv h hb) hr).1 (by decide) ..
  | missedWrite => exact raiseFault_inv h (by decide) ..

end

/-- Settles O17: an idle step changes nothing, a reserved word writes FAULT and the interface, and what a performed
request does keeps the invariant (`Performed.inv`). -/
theorem stepKeepsWellFormedness : Obligations.StepKeepsWellFormedness := by
  intro s t h hstep
  rcases step_next hstep with rfl | ⟨r, rest, -, rfl | ⟨u, v, hu, rfl⟩⟩
  · exact h
  · exact illegalRequest_inv (accept_inv h r rest)
  · exact respond_inv (hu.inv (accept_inv h r rest)) v

end Sys2Proof.Machine

/-! PROOFS. A construction without a fault leaves a well-formed block (spec/40_geometry.md R100 to R106;
spec/70_reset_and_hazards.md R201). -/

namespace Sys2Proof.Machine

/-! ### What passed checks say -/

/-- A cache that passes its checks has a legal record (R101, R102). -/
theorem cacheLegal_of_cacheFault_none {p : Params} {k : Nat} {c : CacheCfg} (h : cacheFault p k c = none) :
    cacheLegal p c := by
  simp only [cacheFault] at h
  split at h
  · cases h
  rename_i hlevel
  split at h
  · cases h
  rename_i hgeometry
  split at h
  · cases h
  rename_i htopology
  exact ⟨by omega, by simpa using hgeometry, by simpa using htopology⟩

/-- Device ranges that pass the walk are non-empty and disjoint from the earlier ones and from each other (R104). -/
theorem deviceFault_none {earlier ds : List DeviceRange} (h : deviceFault earlier ds = none) :
    (∀ d ∈ ds, d.start < d.stop) ∧ (∀ e ∈ earlier, ∀ d ∈ ds, rangesOverlap e d = false) ∧
      ds.Pairwise fun e d => rangesOverlap e d = false := by
  induction ds generalizing earlier with
  | nil => simp
  | cons d ds ih =>
    simp only [deviceFault] at h
    split at h
    · cases h
    rename_i hstart
    split at h
    · cases h
    rename_i hearlier
    obtain ⟨hne, hdisj, hpair⟩ := ih h
    have hd : ∀ e ∈ earlier, rangesOverlap e d = false := by simpa using hearlier
    refine ⟨List.forall_mem_cons.2 ⟨not_not.1 hstart, hne⟩,
      fun e he => List.forall_mem_cons.2 ⟨hd e he, fun f hf => ?_⟩, List.pairwise_cons.2 ⟨fun f hf => ?_, hpair⟩⟩
    · exact hdisj e (List.mem_append_left _ he) f hf
    · exact hdisj d (List.mem_append_right _ List.mem_cons_self) f hf

theorem rangesOverlap_eq_false {e d : DeviceRange} :
    rangesOverlap e d = false ↔ e.stop ≤ d.start ∨ d.stop ≤ e.start := by
  simp only [rangesOverlap, Bool.and_eq_false_iff, decide_eq_false_iff_not, BitVec.not_lt]
  exact Or.comm

/-- The checks after the caches pass for a legal store size and legal device ranges only (R103, R104). -/
theorem tailFault_none {p : Params} (h : tailFault p = none) : storeLegal p = true ∧ devicesLegal p := by
  simp only [tailFault] at h
  split at h
  · cases h
  rename_i hstore
  obtain ⟨hne, -, hpair⟩ := deviceFault_none h
  exact ⟨by simpa using hstore, hne, hpair.imp fun h => rangesOverlap_eq_false.1 h⟩

/-- Every fault a check of a cache reports is valid (R180). -/
theorem cacheFault_valid {p : Params} {k : Nat} {c : CacheCfg} {f : FaultReg} (h : cacheFault p k c = some f) :
    f.valid = true := by
  simp only [cacheFault] at h
  split at h
  · cases h; rfl
  split at h
  · cases h; rfl
  split at h
  · cases h; rfl
  split at h
  · cases h; rfl
  · cases h

theorem deviceFault_valid {earlier ds : List DeviceRange} {f : FaultReg} (h : deviceFault earlier ds = some f) :
    f.valid = true := by
  induction ds generalizing earlier with
  | nil => cases h
  | cons d ds ih =>
    simp only [deviceFault] at h
    split at h
    · cases h; rfl
    split at h
    · cases h; rfl
    · exact ih h

theorem tailFault_valid {p : Params} {f : FaultReg} (h : tailFault p = some f) : f.valid = true := by
  simp only [tailFault] at h
  split at h
  · cases h; rfl
  · exact deviceFault_valid h

/-! ### What construction leaves -/

/-- The loop of R100 without a fault: every check passed, every cache is allocated at reset and registered. -/
theorem buildFrom_clear {p : Params} {k : Nat} {cs : List CacheCfg} (h : (buildFrom p k cs).fault.valid = false) :
    (∀ c ∈ cs, cacheLegal p c) ∧ tailFault p = none ∧
      buildFrom p k cs =
        { arrays := cs.map (resetArray p.lineSize), reg := List.range' k cs.length, fault := .clear } := by
  induction cs generalizing k with
  | nil =>
    cases htail : tailFault p with
    | none => simp [buildFrom, htail]
    | some f => simp [buildFrom, htail, tailFault_valid htail] at h
  | cons c cs ih =>
    cases hc : cacheFault p k c with
    | some f => simp [buildFrom, hc, cacheFault_valid hc] at h
    | none =>
      simp only [buildFrom, hc] at h ⊢
      obtain ⟨hlegal, htail, heq⟩ := ih h
      exact ⟨List.forall_mem_cons.2 ⟨cacheLegal_of_cacheFault_none hc, hlegal⟩, htail, by
        simp [heq, List.range'_succ]⟩

/-- The parameters of a block constructed without a fault are legal, and its state is the reset state (R201). -/
theorem construct_clear {p : Params} {mem0 : List Host.Cell} (h : (State.construct p mem0).fault.valid = false) :
    paramsLegal p ∧ (State.construct p mem0).arrays = p.caches.map (resetArray p.lineSize) ∧
      (State.construct p mem0).reg = List.range p.nCaches ∧ (State.construct p mem0).fault = .clear := by
  obtain ⟨hcaches, htail, heq⟩ := buildFrom_clear (k := 0) (cs := p.caches) h
  refine ⟨⟨hcaches, tailFault_none htail⟩, congrArg Built.arrays heq, ?_, congrArg Built.fault heq⟩
  rw [Params.nCaches, List.range_eq_range']
  exact congrArg Built.reg heq

/-! ### The reset set -/

/-- Every way of a set at reset is the reset entry (R25 to R28). -/
theorem resetSet_getElem? {L w : Nat} {c : CacheCfg} {e : Entry} (h : (resetSet L c).ways[w]? = some e) :
    e = resetEntry L :=
  List.eq_of_mem_replicate (List.mem_of_getElem? h)

theorem resetSet_not_holds {L w : Nat} {c : CacheCfg} {e : Entry} {t : Addr}
    (h : (resetSet L c).ways[w]? = some e) : Entry.holds t e = false := by
  rw [resetSet_getElem? h]
  rfl

/-- A set at reset lists no way and links none (R29, R113). -/
theorem resetSet_isRing (L : Nat) (c : CacheCfg) : (resetSet L c).isRing [] := by
  refine ⟨rfl, List.nodup_nil, fun w hw => (List.not_mem_nil hw).elim, fun w _ e he => ?_⟩
  rw [resetSet_getElem? he]
  exact ⟨rfl, rfl⟩

theorem resetSet_setOk (p : Params) (c : CacheCfg) : SetOk p c (resetSet p.lineSize c) where
  shape := ⟨List.length_replicate .., fun e he => by
    obtain rfl : e = resetEntry p.lineSize := List.eq_of_mem_replicate he
    exact ⟨List.length_replicate .., Nat.two_pow_pos _⟩⟩
  ring := isRing_ringOk (resetSet_isRing ..)
  recency := fun w _ e he hv => by
    rw [resetSet_getElem? he] at hv
    cases hv
  tags := tagsUnique_iff.2 fun t w e he hh => by simp [resetSet_not_holds he] at hh

/-- A set at reset holds no line. -/
theorem resetSet_not_hasCopy {L : Nat} {c : CacheCfg} {t : Addr} {st : Coh} {d : List Byte} :
    ¬ (resetSet L c).hasCopy t st d := by
  rintro ⟨v, e, he, hh, -, -⟩
  simp [resetSet_not_holds he] at hh

/-! ### The reset block -/

section
variable {s : State}

/-- Where the arrays are those at reset, array k is the reset array of cache k. -/
theorem resetArrays_getElem? (ha : s.arrays = s.params.caches.map (resetArray s.params.lineSize)) {k : Nat}
    {c : CacheCfg} {x : CacheArray} (hc : s.params.caches[k]? = some c) (hx : s.arrays[k]? = some x) :
    x = resetArray s.params.lineSize c := by
  simpa [ha, hc] using hx.symm

theorem resetArrays_setsOk (ha : s.arrays = s.params.caches.map (resetArray s.params.lineSize))
    (hr : s.reg = List.range s.params.nCaches) : SetsOk s where
  reg := hr
  caches := by rw [ha, List.length_map, Params.nCaches]
  count := fun k c x hc hx => by
    rw [resetArrays_getElem? ha hc hx]
    exact List.length_replicate ..
  sets := fun k c x cs hc hx hcs => by
    rw [resetArrays_getElem? ha hc hx] at hcs
    rw [List.eq_of_mem_replicate hcs]
    exact resetSet_setOk ..

/-- No cache holds a line at reset (R106). -/
theorem resetArrays_uncached (ha : s.arrays = s.params.caches.map (resetArray s.params.lineSize)) (a : Addr) :
    s.uncached a := by
  rintro k st d ⟨c, cs, hl, hcopy⟩
  obtain ⟨hc, hset⟩ := locate_eq_some.1 hl
  obtain ⟨x, hx, hi⟩ := Option.bind_eq_some_iff.1 hset
  rw [resetArrays_getElem? ha hc hx] at hi
  rw [List.eq_of_mem_replicate (List.mem_of_getElem? hi)] at hcopy
  exact resetSet_not_hasCopy hcopy

end

/-- Settles O15: a construction without a fault leaves legal parameters, sets at reset, no copy of any line, MEM in
canonical form and a clear FAULT. -/
theorem legalConstructionIsWellFormed : Obligations.LegalConstructionIsWellFormed := by
  intro p mem0 hrange hfault
  obtain ⟨hlegal, harrays, hreg, hclear⟩ := construct_clear hfault
  have hco : (State.construct p mem0).coherent :=
    fun k a st d hc => absurd hc (resetArrays_uncached harrays a k st d)
  refine (resetArrays_setsOk harrays hreg).inv hlegal hrange hco (Memory.load_wf p.storeSize mem0) ?_
  rw [hclear]
  exact ⟨fun _ => rfl, nofun⟩

end Sys2Proof.Machine

/-! PROOFS. The backing store (spec/20_memory.md R51 to R54): reads and writes wrap and are truncated, and with legal
parameters no access to a line is. -/

namespace Sys2Proof.Machine

section
variable {p : Params} {s : State} {a : Addr}

/-! ### Reads and writes of the store -/

theorem memRead_getElem? {n j : Nat} (hj : j < n) (hfit : a.toNat % s.params.storeSize + j < s.params.storeSize) :
    (memRead a n s).1[j]? = some (Memory.read s.mem (a.toNat % s.params.storeSize + j)) := by
  have hlt : j < fitting s.params.storeSize (a.toNat % s.params.storeSize) n := by
    simp only [fitting]
    omega
  simp only [memRead]
  rw [List.getElem?_append_left (by simpa using hlt), Memory.readBytes_getElem? _ _ _ _ hlt]

/-- Settles O27: the bytes that fit are read in place (`memRead_getElem?`), and the free bytes make up the length. -/
theorem storeReadWrapsAndTruncates : Obligations.StoreReadWrapsAndTruncates :=
  fun s a n _ => ⟨memRead_length a n s, fun _ hj hfit => memRead_getElem? hj hfit, rfl⟩

theorem memWrite_read_same {bs : List Byte} {b : Byte} {j : Nat} (hm : Memory.wf s.params.storeSize s.mem = true)
    (hb : bs[j]? = some b) (hfit : a.toNat % s.params.storeSize + j < s.params.storeSize) :
    Memory.read (memWrite a bs s).mem (a.toNat % s.params.storeSize + j) = b := by
  obtain ⟨hj, -⟩ := List.getElem?_eq_some_iff.1 hb
  have hlt : j < fitting s.params.storeSize (a.toNat % s.params.storeSize) bs.length := by
    simp only [fitting]
    omega
  refine Memory.read_writeBytes hm ?_ ((List.getElem?_take_of_lt hlt).trans hb)
  simp only [List.length_take, fitting]
  omega

theorem memWrite_read_other {bs : List Byte} {i : Nat} (hS : 0 < s.params.storeSize)
    (h : i < a.toNat % s.params.storeSize ∨ a.toNat % s.params.storeSize + bs.length ≤ i ∨
      s.params.storeSize ≤ i) :
    Memory.read (memWrite a bs s).mem i = Memory.read s.mem i := by
  refine Memory.read_writeBytes_other _ _ ?_
  have hbase := Nat.mod_lt a.toNat hS
  simp only [List.length_take, fitting]
  omega

/-- Settles O28, by what a written list of bytes holds at and beside the indices written. -/
theorem storeWriteWrapsAndTruncates : Obligations.StoreWriteWrapsAndTruncates := by
  intro s a bytes hS hm
  exact ⟨fun j b hb hfit => memWrite_read_same hm hb hfit, fun x hx => memWrite_read_other hS hx, rfl⟩

/-! ### Lines of the store (R54, R97, R103) -/

/-- The base of a line as a number (R97): no subtraction wraps. -/
theorem lineBase_toNat (L : Nat) (a : Addr) : (lineBase L a).toNat = a.toNat - a.toNat % L := by
  have hle := Nat.mod_le a.toNat L
  have hlt := a.isLt
  have hoff : (BitVec.ofNat 64 (offset L a)).toNat = a.toNat % L := by
    rw [BitVec.toNat_ofNat, offset, Nat.mod_eq_of_lt (by omega)]
  rw [lineBase, BitVec.toNat_sub_of_le (BitVec.le_def.2 (hoff ▸ hle)), hoff]

theorem lineBase_mod (L : Nat) (a : Addr) : (lineBase L a).toNat % L = 0 := by
  rw [lineBase_toNat]
  exact Nat.sub_mod_eq_zero_of_mod_eq (Nat.mod_mod ..).symm

theorem lineBase_of_mod {L : Nat} (h : a.toNat % L = 0) : lineBase L a = a :=
  BitVec.eq_of_toNat_eq (by rw [lineBase_toNat, h, Nat.sub_zero])

/-- A line that starts at a multiple of L fits into the store wherever its base wraps to (R103). -/
theorem line_fits {n : Nat} (hS : storeLegal p = true) (hpos : 0 < p.lineSize) (hn : n % p.lineSize = 0) :
    n % p.storeSize + p.lineSize ≤ p.storeSize := by
  simp only [storeLegal, Bool.and_eq_true, decide_eq_true_eq] at hS
  obtain ⟨hle, hdvd⟩ := hS
  obtain ⟨m, hm⟩ := Nat.dvd_of_mod_eq_zero hdvd
  obtain ⟨q, hq⟩ : p.lineSize ∣ n % p.storeSize :=
    (Nat.dvd_mod_iff (Nat.dvd_of_mod_eq_zero hdvd)).2 (Nat.dvd_of_mod_eq_zero hn)
  have hlt : n % p.storeSize < p.storeSize := Nat.mod_lt _ (by omega)
  have hqm : q < m := Nat.lt_of_mul_lt_mul_left (a := p.lineSize) (by rwa [← hq, ← hm])
  calc n % p.storeSize + p.lineSize = p.lineSize * (q + 1) := by rw [hq, Nat.mul_succ]
    _ ≤ p.lineSize * m := Nat.mul_le_mul_left _ hqm
    _ = p.storeSize := hm.symm

/-- Settles O29: the base of a line is a multiple of L, and so is S. -/
theorem lineAccessIsNeverTruncated : Obligations.LineAccessIsNeverTruncated := by
  intro p a ⟨hcaches, hstore, _⟩ hne
  obtain ⟨c, hc⟩ := List.exists_mem_of_ne_nil _ hne
  have hfit := line_fits hstore (lineSize_of_geometryLegal (hcaches c hc).2.1) (lineBase_mod p.lineSize a)
  rw [fitting]
  omega

end

end Sys2Proof.Machine

/-! PROOFS. The bytes of a line and the address of an entry (spec/40_geometry.md R90 to R99), and where the lines of
one window of S bytes lie in the store (spec/70_reset_and_hazards.md R206). -/

namespace Sys2Proof.Machine

section
variable {p : Params} {c : CacheCfg} {a x y : Addr}

/-! ### Offsets and lines -/

theorem offset_lt (h : geometryLegal p c = true) (a : Addr) : offset p.lineSize a < p.lineSize :=
  Nat.mod_lt _ (lineSize_of_geometryLegal h)

theorem index_lt (h : geometryLegal p c = true) (a : Addr) : c.index p.lineSize a < c.setCount p.lineSize :=
  Nat.mod_lt _ (setCount_of_geometryLegal h ▸ Nat.two_pow_pos _)

theorem lineSize_eq_pow (h : geometryLegal p c = true) : 2 ^ offBits p.lineSize = p.lineSize := by
  simp only [geometryLegal, isPowerOfTwo, Bool.and_eq_true, decide_eq_true_eq] at h
  obtain ⟨⟨⟨⟨⟨-, hpow⟩, -⟩, -⟩, -⟩, -⟩ := h
  exact hpow

theorem sameLine_iff (h : geometryLegal p c = true) :
    sameLine p.lineSize x a ↔ x.toNat / p.lineSize = a.toNat / p.lineSize := by
  rw [sameLine, ← BitVec.toNat_inj, BitVec.toNat_ushiftRight, BitVec.toNat_ushiftRight, Nat.shiftRight_eq_div_pow,
    Nat.shiftRight_eq_div_pow, lineSize_eq_pow h]

theorem sameLine_refl (L : Nat) (a : Addr) : sameLine L a a := rfl

theorem sameLine_lineBase (h : geometryLegal p c = true) (a : Addr) :
    sameLine p.lineSize (lineBase p.lineSize a) a := by
  rw [sameLine_iff h, lineBase_toNat, Nat.div_eq_sub_mod_div, Nat.sub_mod_eq_zero_of_mod_eq (Nat.mod_mod ..).symm,
    Nat.sub_zero, ← Nat.div_eq_sub_mod_div]

theorem eq_of_sameLine_of_offset (h : geometryLegal p c = true) (hline : sameLine p.lineSize x a)
    (hoff : offset p.lineSize x = offset p.lineSize a) : x = a := by
  apply BitVec.eq_of_toNat_eq
  rw [← Nat.div_add_mod x.toNat p.lineSize, (sameLine_iff h).1 hline,
    show x.toNat % p.lineSize = a.toNat % p.lineSize from hoff, Nat.div_add_mod]

/-- Lines and their bases correspond (R97). -/
theorem lineBase_eq_iff (h : geometryLegal p c = true) :
    lineBase p.lineSize x = lineBase p.lineSize a ↔ sameLine p.lineSize x a := by
  constructor
  · intro heq
    exact (sameLine_lineBase h x).symm.trans (heq ▸ sameLine_lineBase h a)
  · intro hline
    refine eq_of_sameLine_of_offset h ((sameLine_lineBase h x).trans (hline.trans (sameLine_lineBase h a).symm)) ?_
    rw [offset, offset, lineBase_mod, lineBase_mod]

/-! ### The address of an entry -/

/-- A cache below 2^64 bytes leaves room for the tag above index and offset (R93). -/
theorem offBits_add_idxBits_le (h : geometryLegal p c = true) (hcap : c.cap < 2 ^ 64) :
    offBits p.lineSize + c.idxBits p.lineSize ≤ 64 := by
  have hle : 2 ^ (offBits p.lineSize + c.idxBits p.lineSize) ≤ c.cap := by
    rw [Nat.pow_add, lineSize_eq_pow h, setCount_of_geometryLegal h, CacheCfg.setCount]
    exact (Nat.mul_le_mul_left _ (Nat.div_le_self ..)).trans (Nat.mul_div_le ..)
  exact (Nat.pow_lt_pow_iff_right (a := 2) (by decide)).1 (lt_of_le_of_lt hle hcap) |>.le

/-- No bit of tag or index is lost in the address they make (R98). -/
theorem addressOf_toNat (h : geometryLegal p c = true) (hcap : c.cap < 2 ^ 64) {t : Addr} {i : Nat}
    (ht : t.toNat < 2 ^ c.tagBits p.lineSize) (hi : i < c.setCount p.lineSize) :
    (c.addressOf p.lineSize t i).toNat = (t.toNat * c.setCount p.lineSize + i) * p.lineSize := by
  have hbits := offBits_add_idxBits_le h hcap
  have hi' : i < 2 ^ c.idxBits p.lineSize := by rwa [setCount_of_geometryLegal h]
  have hlow : i <<< offBits p.lineSize < 2 ^ (offBits p.lineSize + c.idxBits p.lineSize) := by
    rw [Nat.shiftLeft_eq, Nat.add_comm, Nat.pow_add]
    exact Nat.mul_lt_mul_of_pos_right hi' (Nat.two_pow_pos _)
  have hhigh : t.toNat <<< (offBits p.lineSize + c.idxBits p.lineSize) < 2 ^ 64 := by
    calc t.toNat <<< (offBits p.lineSize + c.idxBits p.lineSize)
        < 2 ^ c.tagBits p.lineSize * 2 ^ (offBits p.lineSize + c.idxBits p.lineSize) := by
          rw [Nat.shiftLeft_eq]
          exact Nat.mul_lt_mul_of_pos_right ht (Nat.two_pow_pos _)
      _ = 2 ^ 64 := by rw [← Nat.pow_add, CacheCfg.tagBits, Nat.sub_sub, Nat.sub_add_cancel hbits]
  have hlow64 : i <<< offBits p.lineSize < 2 ^ 64 := hlow.trans_le (Nat.pow_le_pow_right (by decide) hbits)
  have hi64 : i < 2 ^ 64 := lt_of_le_of_lt (Nat.le_shiftLeft ..) hlow64
  rw [CacheCfg.addressOf, BitVec.toNat_or, BitVec.toNat_shiftLeft, BitVec.toNat_shiftLeft, BitVec.toNat_ofNat,
    Nat.mod_eq_of_lt hi64, Nat.mod_eq_of_lt hhigh, Nat.mod_eq_of_lt hlow64, ← Nat.shiftLeft_add_eq_or_of_lt hlow,
    Nat.shiftLeft_eq, Nat.shiftLeft_eq, Nat.pow_add, lineSize_eq_pow h, setCount_of_geometryLegal h]
  ring

/-- The address a line is written back to has the line's tag and set, and offset 0 (R98, R150). -/
theorem addressOf_slot (h : geometryLegal p c = true) (hcap : c.cap < 2 ^ 64) {t : Addr} {i : Nat}
    (ht : t.toNat < 2 ^ c.tagBits p.lineSize) (hi : i < c.setCount p.lineSize) :
    c.tag p.lineSize (c.addressOf p.lineSize t i) = t ∧ c.index p.lineSize (c.addressOf p.lineSize t i) = i ∧
      (c.addressOf p.lineSize t i).toNat % p.lineSize = 0 := by
  have hL := lineSize_of_geometryLegal h
  have hnum := addressOf_toNat h hcap ht hi
  refine ⟨BitVec.eq_of_toNat_eq ?_, ?_, ?_⟩
  · rw [CacheCfg.tag, BitVec.toNat_ushiftRight, Nat.shiftRight_eq_div_pow, hnum, Nat.pow_add, lineSize_eq_pow h,
      setCount_of_geometryLegal h, ← Nat.div_div_eq_div_mul, Nat.mul_div_cancel _ hL, Nat.mul_comm,
      Nat.mul_add_div (by omega), Nat.div_eq_of_lt hi, Nat.add_zero]
  · rw [CacheCfg.index, BitVec.toNat_ushiftRight, Nat.shiftRight_eq_div_pow, hnum, lineSize_eq_pow h,
      Nat.mul_div_cancel _ hL, Nat.mul_comm, Nat.mul_add_mod, Nat.mod_eq_of_lt hi]
  · rw [hnum, Nat.mul_mod_left]

/-! ### The bytes of a line -/

/-- The address space is whole lines: no line wraps at 2^64 (R102). -/
theorem lineBase_add_le (h : geometryLegal p c = true) (hcap : c.cap < 2 ^ 64) (a : Addr) :
    (lineBase p.lineSize a).toNat + p.lineSize ≤ 2 ^ 64 := by
  have hdvd : p.lineSize ∣ 2 ^ 64 := by
    rw [← lineSize_eq_pow h]
    exact Nat.pow_dvd_pow 2 ((Nat.le_add_right ..).trans (offBits_add_idxBits_le h hcap))
  obtain ⟨m, hm⟩ := hdvd
  obtain ⟨q, hq⟩ := Nat.dvd_of_mod_eq_zero (lineBase_mod p.lineSize a)
  have hlt := (lineBase p.lineSize a).isLt
  rw [hq, hm] at *
  have hqm : q < m := Nat.lt_of_mul_lt_mul_left hlt
  rw [← Nat.mul_succ]
  exact Nat.mul_le_mul_left _ hqm

theorem lineByte_toNat (h : geometryLegal p c = true) (hcap : c.cap < 2 ^ 64) (a : Addr) {j : Nat}
    (hj : j < p.lineSize) :
    (byteAddr (lineBase p.lineSize a) j).toNat = (lineBase p.lineSize a).toNat + j := by
  have hle := lineBase_add_le h hcap a
  rw [byteAddr, BitVec.toNat_add, BitVec.toNat_ofNat, Nat.mod_eq_of_lt (a := j) (by omega),
    Nat.mod_eq_of_lt (by omega)]

/-- Byte j of the line of a is at offset j of that line. -/
theorem lineByte_slot (h : geometryLegal p c = true) (hcap : c.cap < 2 ^ 64) (a : Addr) {j : Nat}
    (hj : j < p.lineSize) :
    sameLine p.lineSize (byteAddr (lineBase p.lineSize a) j) a ∧
      offset p.lineSize (byteAddr (lineBase p.lineSize a) j) = j := by
  have hnum := lineByte_toNat h hcap a hj
  obtain ⟨q, hq⟩ := Nat.dvd_of_mod_eq_zero (lineBase_mod p.lineSize a)
  refine ⟨Eq.trans ?_ (sameLine_lineBase h a), ?_⟩
  · refine (sameLine_iff h).2 ?_
    rw [hnum, hq, Nat.mul_add_div (lineSize_of_geometryLegal h), Nat.div_eq_of_lt hj,
      Nat.mul_div_cancel_left _ (lineSize_of_geometryLegal h), Nat.add_zero]
  · rw [offset, hnum, hq, Nat.mul_add_mod, Nat.mod_eq_of_lt hj]

/-! ### Lines of one window in the store (R57, R206) -/

/-- The byte at x is stored at its offset in its line (R54, R97). -/
theorem store_index_of_sameLine (h : geometryLegal p c = true) (hS : storeLegal p = true)
    (hline : sameLine p.lineSize x a) :
    x.toNat % p.storeSize = (lineBase p.lineSize a).toNat % p.storeSize + offset p.lineSize x := by
  have hfit := line_fits hS (lineSize_of_geometryLegal h) (lineBase_mod p.lineSize a)
  have hoff := offset_lt h x
  have hx : x.toNat = (lineBase p.lineSize a).toNat + offset p.lineSize x := by
    rw [← (lineBase_eq_iff h).2 hline, lineBase_toNat, offset, Nat.sub_add_cancel (Nat.mod_le ..)]
  rw [hx, Nat.add_mod, Nat.mod_eq_of_lt (a := offset p.lineSize x) (by omega), Nat.mod_eq_of_lt (by omega)]

/-- A window is whole lines. -/
theorem window_of_sameLine {b : Nat} (h : geometryLegal p c = true) (hS : storeLegal p = true)
    (hb : b % p.lineSize = 0) (hline : sameLine p.lineSize x a) (ha : b ≤ a.toNat ∧ a.toNat < b + p.storeSize) :
    b ≤ x.toNat ∧ x.toNat < b + p.storeSize := by
  simp only [storeLegal, Bool.and_eq_true, decide_eq_true_eq] at hS
  obtain ⟨q, rfl⟩ := Nat.dvd_of_mod_eq_zero hb
  obtain ⟨m, hm⟩ := Nat.dvd_of_mod_eq_zero hS.2
  have hL := lineSize_of_geometryLegal h
  have hdiv := (sameLine_iff h).1 hline
  rw [hm, ← Nat.mul_add] at ha ⊢
  have hlow : q ≤ a.toNat / p.lineSize := (Nat.le_div_iff_mul_le hL).2 (by rw [Nat.mul_comm]; exact ha.1)
  have hhigh : a.toNat / p.lineSize < q + m := (Nat.div_lt_iff_lt_mul hL).2 (by rw [Nat.mul_comm]; exact ha.2)
  rw [← hdiv] at hlow hhigh
  refine ⟨?_, ?_⟩
  · rw [Nat.mul_comm]
    exact (Nat.le_div_iff_mul_le hL).1 hlow
  · rw [Nat.mul_comm]
    exact (Nat.div_lt_iff_lt_mul hL).1 hhigh

/-- In a window no two addresses are stored at one index. -/
theorem eq_of_store_index {b S : Nat} (hx : b ≤ x.toNat ∧ x.toNat < b + S) (hy : b ≤ y.toNat ∧ y.toNat < b + S)
    (h : x.toNat % S = y.toNat % S) : x = y := by
  apply BitVec.eq_of_toNat_eq
  have hmod : x.toNat ≡ y.toNat [MOD S] := h
  rcases le_total x.toNat y.toNat with hle | hle
  · have hdvd := (Nat.modEq_iff_dvd' hle).1 hmod
    have := Nat.eq_zero_of_dvd_of_lt hdvd (by omega)
    omega
  · have hdvd := (Nat.modEq_iff_dvd' hle).1 hmod.symm
    have := Nat.eq_zero_of_dvd_of_lt hdvd (by omega)
    omega

/-- In a window only the bytes of a line are stored where that line is. -/
theorem sameLine_of_store_index {b : Nat} (h : geometryLegal p c = true) (hcap : c.cap < 2 ^ 64)
    (hS : storeLegal p = true) (hb : b % p.lineSize = 0) (ha : b ≤ a.toNat ∧ a.toNat < b + p.storeSize)
    (hx : b ≤ x.toNat ∧ x.toNat < b + p.storeSize)
    (hlow : (lineBase p.lineSize a).toNat % p.storeSize ≤ x.toNat % p.storeSize)
    (hhigh : x.toNat % p.storeSize < (lineBase p.lineSize a).toNat % p.storeSize + p.lineSize) :
    sameLine p.lineSize x a := by
  obtain ⟨j, hj⟩ := Nat.exists_eq_add_of_le hlow
  obtain ⟨hline, hoff⟩ := lineByte_slot h hcap a (j := j) (by omega)
  have hindex := store_index_of_sameLine h hS hline
  rw [hoff, ← hj] at hindex
  have hwindow := window_of_sameLine h hS hb hline ha
  exact eq_of_store_index hx hwindow hindex.symm ▸ hline

end

end Sys2Proof.Machine

/-! PROOFS. The operations of a well-formed block answer: no touch breaks a ring, every set has a victim, every walk
to the store ends, and so read_line completes, and write_line where the line is held (spec/41_lru.md R111, R117;
spec/42_read_path.md R120; spec/43_write_path.md R140; spec/44_write_back.md R151). -/

namespace Sys2Proof.Machine

/-! ### A ring can be touched -/

theorem tail_of_prevOf {cs : CacheSet} {x t : Nat} (h : cs.prevOf x = some t) (ht : t < cs.ways.length) :
    cs.tail x = some t := by
  have h' : (cs.ways[x]?).bind (fun e : Entry => e.prev) = some t := h
  simp only [CacheSet.tail, h', if_pos ht]

/-- A way of a ring that is linked has two neighbours in the set, so it can be unlinked (R111). -/
theorem unlink_completes {cs : CacheSet} {o : List Nat} {w : Nat} {e : Entry} (h : cs.isRing o)
    (he : cs.ways[w]? = some e) : ∃ cs1, cs.unlink e = some cs1 := by
  obtain ⟨-, -, hin, hlinks⟩ := isRing_iff.1 h
  obtain ⟨hnext, hprev⟩ := hlinks w
  rw [nextOf_eq he] at hnext
  rw [prevOf_eq he] at hprev
  by_cases hw : w ∈ o
  · rw [cyclicNext_of_mem hw] at hnext
    rw [cyclicPrev_of_mem hw] at hprev
    have hn := hin _ (List.next_mem o w hw)
    have hp := hin _ (List.prev_mem o w hw)
    exact ⟨_, by simp only [CacheSet.unlink, hnext, hprev, if_pos (And.intro hp hn)]; rfl⟩
  · rw [cyclicNext_of_notMem hw] at hnext
    exact ⟨cs, by simp only [CacheSet.unlink, hnext]⟩

/-- The head of a ring has a way before it, also when another way has been unlinked (R111, R115). -/
theorem tail_completes {cs : CacheSet} {o : List Nat} {w x : Nat} (h : cs.ringWithout o w) (hx : cs.head = some x) :
    ∃ t, cs.tail x = some t := by
  obtain ⟨hhead, hnd, hin, hlinks⟩ := h
  have hxo : x ∈ o := List.mem_of_mem_head? (by rw [← hhead, hx]; rfl)
  have hxw : x ≠ w := fun hxw => (List.nodup_cons.1 hnd).1 (hxw ▸ hxo)
  have hprev := (hlinks x hxw).2
  rw [cyclicPrev_of_mem hxo] at hprev
  exact ⟨_, tail_of_prevOf hprev (hin _ (List.prev_mem o x hxo))⟩

theorem touch_completes {cs : CacheSet} {w : Nat} (h : cs.ringOk) (hw : w < cs.ways.length) :
    ∃ ds, cs.touch w = some ds := by
  have he := List.getElem?_eq_getElem hw
  cases hhead : cs.head with
  | none => exact ⟨_, by simp only [CacheSet.touch, he, hhead]; rfl⟩
  | some x =>
    by_cases hxw : x = w
    · exact ⟨cs, by simp only [CacheSet.touch, he, hhead, if_pos hxw]⟩
    · obtain ⟨cs1, hu⟩ := unlink_completes h he
      have hfirst : cs.order.head? ≠ some w := by
        rw [← h.1, hhead]
        exact fun heq => hxw (Option.some.inj heq)
      obtain ⟨t, ht⟩ := tail_completes (unlink_ringWithout h he hfirst hu) ((unlink_head_length hu).1.trans hhead)
      exact ⟨_, by simp only [CacheSet.touch, he, hhead, if_neg hxw, hu, ht]; rfl⟩

/-! ### Every set has a victim -/

/-- A set whose ways are all linked or Invalid has a victim (R114, R115, R117). -/
theorem victim_completes {p : Params} {c : CacheCfg} {cs : CacheSet} (h : SetOk p c cs) (hways : 0 < cs.ways.length) :
    ∃ v e, cs.victim = some v ∧ cs.ways[v]? = some e := by
  cases hinv : cs.firstInvalid with
  | some v =>
    obtain ⟨hv, -⟩ := List.findIdx?_eq_some_iff_getElem.1 hinv
    exact ⟨v, _, by simp only [CacheSet.victim, hinv], List.getElem?_eq_getElem hv⟩
  | none =>
    have hvalid : ∀ w < cs.ways.length, w ∈ cs.order := fun w hw => by
      refine h.mem_order (List.getElem?_eq_getElem hw) (isValid_iff.2 ?_)
      simpa using List.findIdx?_eq_none_iff.1 hinv _ (List.getElem_mem hw)
    have hall : (List.range cs.ways.length).all (fun w => cs.order.contains w) = true := by
      simpa [List.all_eq_true] using hvalid
    obtain ⟨hhead, -, hin, hlinks⟩ := isRing_iff.1 h.ring
    have hne : cs.order ≠ [] := List.ne_nil_of_mem (hvalid 0 hways)
    rw [List.head?_eq_some_head hne] at hhead
    have hprev := (hlinks (cs.order.head hne)).2
    rw [cyclicPrev_head hne] at hprev
    have hv := hin _ (List.getLast_mem hne)
    refine ⟨_, _, ?_, List.getElem?_eq_getElem hv⟩
    simp only [CacheSet.victim, hinv, hall, if_true, hhead, Option.bind_some, tail_of_prevOf hprev hv]

/-! ### The operations of the read path -/

section
variable {s t : State} {k j : Nat} {a : Addr} {c : CacheCfg} {cs : CacheSet} {d : List Byte}

/-- In a well-formed block every address selects a set of every cache (R23, R95). -/
theorem Inv.locate_completes (h : Inv s) (hk : k < s.params.nCaches) (a : Addr) :
    ∃ c cs, s.locate k a = some (c, cs) := by
  have hc : s.params.caches[k]? = some s.params.caches[k] := List.getElem?_eq_getElem hk
  have hx : s.arrays[k]? = some (s.arrays[k]'(h.setsOk.caches ▸ hk)) := List.getElem?_eq_getElem _
  have hindex : s.params.caches[k].index s.params.lineSize a < (s.arrays[k]'(h.setsOk.caches ▸ hk)).length := by
    rw [h.setsOk.count k _ _ hc hx]
    exact index_lt (h.geometry hc) a
  have hset := List.getElem?_eq_getElem hindex
  exact ⟨_, _, locate_eq_some.2 ⟨hc, by simp only [State.getSet, hx, Option.bind_some, hset]; rfl⟩⟩

theorem Inv.ways_pos (h : Inv s) (hl : s.locate k a = some (c, cs)) : 0 < cs.ways.length := by
  have hg := h.geometry (locate_eq_some.1 hl).1
  simp only [geometryLegal, Bool.and_eq_true, decide_eq_true_eq] at hg
  obtain ⟨⟨⟨⟨-, hways⟩, -⟩, -⟩, -⟩ := hg
  rw [(h.setOk hl).shape.1]
  exact hways

/-- The next level of a cache is a terminal cache (R101). -/
theorem Inv.next_terminal (h : Inv s) (hc : s.params.caches[k]? = some c) {m : Nat} (hm : c.next = .nextLevel m) :
    ∃ cm, s.params.caches[m]? = some cm ∧ cm.next = .terminal := by
  obtain ⟨hcaches, -, -⟩ := h.legal
  have htop := (hcaches c (List.mem_of_getElem? hc)).2.2
  simp only [topologyLegal, hm, Bool.and_eq_true] at htop
  cases hcm : s.params.caches[m]? with
  | none => simp [hcm] at htop
  | some cm =>
    have hlevel : cm.level = 2 := by simpa [hcm] using htop.2
    refine ⟨cm, rfl, ?_⟩
    have htopm := (hcaches cm (List.mem_of_getElem? hcm)).2.2
    cases hnext : cm.next with
    | terminal => rfl
    | nextLevel i => simp [topologyLegal, hnext, hlevel] at htopm

/-- The walk of R151 ends within two levels. -/
theorem Inv.storeOwner_completes (h : Inv s) (hc : s.params.caches[k]? = some c) :
    ∃ o, storeOwner s.params levels k = some o := by
  cases hnext : c.next with
  | terminal => exact ⟨k, by simp only [levels, storeOwner, hc, hnext]⟩
  | nextLevel m =>
    obtain ⟨cm, hcm, hterm⟩ := h.next_terminal hc hnext
    exact ⟨m, by simp only [levels, storeOwner, hc, hnext, hcm, hterm]⟩

theorem writeBack_completes (h : Inv s) {i w : Nat} {e : Entry} (hc : s.params.caches[k]? = some c)
    (he : s.entry k i w = some e) :
    writeBack k i w s = .ok () (memWrite (c.addressOf s.params.lineSize e.tag i) e.data s) := by
  obtain ⟨o, ho⟩ := h.storeOwner_completes hc
  simp only [writeBack, hc, he, ho]

theorem entry_of_locate (hl : s.locate k a = some (c, cs)) (w : Nat) :
    s.entry k (c.index s.params.lineSize a) w = cs.ways[w]? := by
  simp only [State.entry, (locate_eq_some.1 hl).2, Option.bind_some]

theorem evict_completes (h : Inv s) {i v : Nat} {e : Entry} (hc : s.params.caches[k]? = some c)
    (he : s.entry k i v = some e) : ∃ t, evict k i v s = .ok () t := by
  by_cases hm : e.state = .modified
  · exact ⟨_, by simp only [evict, he, if_pos hm]; exact writeBack_completes h hc he⟩
  · exact ⟨s, by simp only [evict, he, if_neg hm]⟩

/-- A fill completes in every set of a well-formed block (R117, I-LRU). -/
theorem place_completes (h : Inv s) (hk : k < s.params.nCaches) (a : Addr) (d : List Byte) :
    ∃ t, place k a d s = .ok d t := by
  obtain ⟨c, cs, hl⟩ := h.locate_completes hk a
  have hok := h.setOk hl
  obtain ⟨v, e, hv, he⟩ := victim_completes hok (h.ways_pos hl)
  obtain ⟨s1, hevict⟩ := evict_completes h (locate_eq_some.1 hl).1 ((entry_of_locate hl v).trans he)
  have hring : (cs.fill v (c.tag s.params.lineSize a) d).isRing cs.order :=
    isRing_congr hok.ring rfl (fill_length ..) (nextOf_modifyWay fun _ => rfl) (prevOf_modifyWay fun _ => rfl)
  obtain ⟨ds, ht⟩ := touch_completes (isRing_ringOk hring) (w := v) (by
    rw [fill_length]
    exact (List.getElem?_eq_some_iff.1 he).1)
  exact ⟨_, by simp only [place, hl, hv, hevict, bind_ok, ht]; rfl⟩

theorem localHit_completes (h : Inv s) {w : Nat} (hw : s.lookup k a = some w) :
    ∃ d t, localHit k a w s = .ok d t := by
  obtain ⟨c, cs, hl, hf⟩ := lookup_eq_some.1 hw
  obtain ⟨e, he, -⟩ := find_holds hf
  obtain ⟨ds, ht⟩ := touch_completes (h.setOk hl).ring (List.getElem?_eq_some_iff.1 he).1
  exact ⟨_, _, by simp only [localHit, hl, he, ht]; rfl⟩

theorem siblingCopy_completes (h : Inv s) {w : Nat} (hw : s.lookup j a = some w) :
    ∃ d t, siblingCopy j a s = .ok d t := by
  obtain ⟨c, cs, hl, hf⟩ := lookup_eq_some.1 hw
  obtain ⟨e, he, -⟩ := find_holds hf
  have hwb := writeBack_completes h (locate_eq_some.1 hl).1 ((entry_of_locate hl w).trans he)
  by_cases hm : e.state = .modified
  · exact ⟨_, _, by simp only [siblingCopy, hl, hf, he, if_pos hm, hwb, bind_ok]; rfl⟩
  · exact ⟨_, _, by simp only [siblingCopy, hl, hf, he, if_neg hm]; rfl⟩

/-- read_line completes if the read from the next level does, where it comes to one (R120). -/
theorem readLineN_completes (h : Inv s) (hc : s.params.caches[k]? = some c) {n : Nat}
    (hnext : s.uncached a → ∀ m, c.next = .nextLevel m → ∃ d s1, readLineN n m a s = .ok d s1 ∧ Inv s1) :
    ∃ d t, readLineN (n + 1) k a s = .ok d t := by
  have hk := lt_nCaches hc
  cases hw : s.lookup k a with
  | some w =>
    obtain ⟨d, t, hhit⟩ := localHit_completes h hw
    exact ⟨d, t, by simp only [readLineN, hw, hhit]⟩
  | none =>
    cases hj : findSibling s k a with
    | some j =>
      obtain ⟨-, -, w, hjw⟩ := findSibling_some hj
      obtain ⟨d, s1, hcopy⟩ := siblingCopy_completes h hjw
      have hframe := (siblingCopy_frame hcopy).1
      obtain ⟨t, hp⟩ := place_completes (siblingCopy_inv h hcopy).1 (hframe.params ▸ hk) a d
      exact ⟨d, t, by simp only [readLineN, hw, hj, hcopy, bind_ok, hp]⟩
    | none =>
      cases hn : c.next with
      | nextLevel m =>
        obtain ⟨d, s1, hread, hinv⟩ := hnext (uncached_of_miss h hw hj) m hn
        have hframe := (readLineN_frame hread).1
        obtain ⟨t, hp⟩ := place_completes hinv (hframe.params ▸ hk) a d
        exact ⟨d, t, by simp only [readLineN, hw, hj, hc, hn, hread, bind_ok, hp]⟩
      | terminal =>
        have hinv := h.sameArrays (SameFrame.memRead s (lineBase s.params.lineSize a) s.params.lineSize) rfl h.mem
        obtain ⟨t, hp⟩ := place_completes hinv hk a (memRead (lineBase s.params.lineSize a) s.params.lineSize s).1
        exact ⟨_, t, by simp only [readLineN, hw, hj, hc, hn]; exact hp⟩

/-- read_line completes in every well-formed block, at every address (R120, R184): two levels are enough. -/
theorem readLine_completes (h : Inv s) (hk : k < s.params.nCaches) (a : Addr) : ∃ d t, readLine k a s = .ok d t := by
  refine readLineN_completes h (List.getElem?_eq_getElem hk) fun hun m hm => ?_
  obtain ⟨cm, hcm, hterm⟩ := h.next_terminal (List.getElem?_eq_getElem hk) hm
  obtain ⟨d, s1, hread⟩ := readLineN_completes (n := 0) h hcm fun _ i hi => by simp [hterm] at hi
  exact ⟨d, s1, hread, (readNext_inv h hun hread).1⟩

/-! ### The write path -/

/-- write_line completes where the line is held (R141). -/
theorem writeLine_completes (h : Inv s) {w : Nat} (hw : s.lookup k a = some w) (d : List Byte) :
    ∃ t, writeLine k a d s = .ok () t := by
  obtain ⟨c, cs, hl, hf⟩ := lookup_eq_some.1 hw
  obtain ⟨e, he, -⟩ := find_holds hf
  have hring : (cs.overwrite w d).isRing cs.order :=
    isRing_congr (h.setOk hl).ring rfl (overwrite_length ..) (nextOf_modifyWay fun _ => rfl)
      (prevOf_modifyWay fun _ => rfl)
  obtain ⟨ds, ht⟩ := touch_completes (isRing_ringOk hring) (w := w) (by
    rw [overwrite_length]
    exact (List.getElem?_eq_some_iff.1 he).1)
  exact ⟨_, by simp only [writeLine, hl, hf, ht]; rfl⟩

end

end Sys2Proof.Machine

/-! PROOFS. The copies an operation keeps (spec/10_state.md R23; spec/41_lru.md R111; spec/43_write_path.md R144):
all but that of the way it reuses. With `lineReplaced`, which bounds the copies it makes, this is what an operation
does to the lines the caches hold. -/

namespace Sys2Proof.Machine

/-! ### In a set -/

/-- Way w of the set holds, valid, the line of tag t in state st with data d. -/
def CacheSet.wayHolds (cs : CacheSet) (w : Nat) (t : Addr) (st : Coh) (d : List Byte) : Prop :=
  ∃ e, cs.ways[w]? = some e ∧ Entry.holds t e = true ∧ e.state = st ∧ e.data = d

/-- The copies of the set are kept, but that of way w. -/
def CacheSet.keepsBut (cs ds : CacheSet) (w : Nat) : Prop :=
  ∀ t st d, cs.hasCopy t st d → ds.hasCopy t st d ∨ cs.wayHolds w t st d

section
variable {cs ds : CacheSet} {w : Nat} {t : Addr} {st : Coh} {d : List Byte}

theorem hasCopy_touch (h : cs.touch w = some ds) (hc : cs.hasCopy t st d) : ds.hasCopy t st d := by
  obtain ⟨v, e, he, hh, rfl, rfl⟩ := hc
  have hkeep := (touch_keeps h).2 v
  rw [he] at hkeep
  obtain ⟨f, hf, hcontent⟩ := Option.map_eq_some_iff.1 hkeep
  simp only [Prod.mk.injEq] at hcontent
  obtain ⟨hst, htag, hdata⟩ := hcontent
  exact ⟨v, f, hf, by simpa only [Entry.holds, hst, htag] using hh, hst, hdata⟩

theorem modifyWay_keepsBut (cs : CacheSet) (w : Nat) (f : Entry → Entry) : cs.keepsBut (cs.modifyWay w f) w := by
  rintro t st d ⟨v, e, he, hh, rfl, rfl⟩
  by_cases hvw : w = v
  · subst hvw
    exact .inr ⟨e, he, hh, rfl, rfl⟩
  · exact .inl ⟨v, e, by rw [modifyWay_getElem?, he, Option.map_some, if_neg hvw], hh, rfl, rfl⟩

theorem CacheSet.keepsBut.touch {xs : CacheSet} (h : cs.keepsBut xs w) (ht : xs.touch w = some ds) :
    cs.keepsBut ds w :=
  fun t st d hc => (h t st d hc).imp_left (hasCopy_touch ht)

/-- The changed way holds the line the change gave it. -/
theorem hasCopy_modifyWay {f : Entry → Entry} {e : Entry} (he : cs.ways[w]? = some e)
    (hh : Entry.holds t (f e) = true) : (cs.modifyWay w f).hasCopy t (f e).state (f e).data :=
  ⟨w, f e, by rw [modifyWay_getElem?, he, Option.map_some, if_pos rfl], hh, rfl, rfl⟩

end

/-! ### In the block -/

section
variable {s t : State} {j k : Nat} {a b : Addr} {c : CacheCfg} {cs ds : CacheSet} {w : Nat} {st : Coh} {d : List Byte}

/-- Writing one set keeps every copy of the block but those the set loses. -/
theorem putSet_hasCopy {lost : Addr → Prop} (hl : s.locate k a = some (c, cs))
    (hkeep : ∀ u, cs.hasCopy u st d → ds.hasCopy u st d ∨ lost u) (hc : s.hasCopy j b st d) :
    (s.putSet k (c.index s.params.lineSize a) ds).hasCopy j b st d ∨
      (j = k ∧ c.index s.params.lineSize b = c.index s.params.lineSize a ∧ lost (c.tag s.params.lineSize b)) := by
  obtain ⟨hcfg, hset⟩ := locate_eq_some.1 hl
  obtain ⟨cb, csb, hlb, hcopy⟩ := hc
  obtain ⟨hcb, hsb⟩ := locate_eq_some.1 hlb
  by_cases hslot : j = k ∧ cb.index s.params.lineSize b = c.index s.params.lineSize a
  · obtain ⟨rfl, hindex⟩ := hslot
    obtain rfl : cb = c := Option.some.inj (hcb.symm.trans hcfg)
    obtain rfl : cs = csb := Option.some.inj (hset.symm.trans (hindex ▸ hsb))
    refine (hkeep _ hcopy).imp (fun hnew => ⟨cb, ds, locate_eq_some.2 ⟨hcb, ?_⟩, hnew⟩)
      fun hlost => ⟨rfl, hindex, hlost⟩
    rw [putSet_params, hindex]
    exact getSet_putSet_same hset
  · exact .inl ⟨cb, csb, locate_eq_some.2 ⟨hcb, (getSet_putSet_other ds hslot).trans hsb⟩, hcopy⟩

theorem putSet_hasCopy_same (hl : s.locate k a = some (c, cs)) (hc : ds.hasCopy (c.tag s.params.lineSize a) st d) :
    (s.putSet k (c.index s.params.lineSize a) ds).hasCopy k a st d := by
  obtain ⟨hcfg, hset⟩ := locate_eq_some.1 hl
  exact ⟨c, ds, locate_eq_some.2 ⟨hcfg, getSet_putSet_same hset⟩, hc⟩

/-- Writing the set of a, with only the way changed that holds the line of a, keeps every other line. -/
theorem putSet_keepsLine (hg : geometryLegal s.params c = true) (hl : s.locate k a = some (c, cs))
    (hf : cs.find (c.tag s.params.lineSize a) = some w) (hkeep : cs.keepsBut ds w)
    (hne : ¬ sameLine s.params.lineSize b a) (hc : s.hasCopy j b st d) :
    (s.putSet k (c.index s.params.lineSize a) ds).hasCopy j b st d := by
  refine (putSet_hasCopy hl (fun u => hkeep u st d) hc).resolve_right ?_
  rintro ⟨-, hindex, e, he, hh, -⟩
  obtain ⟨e', he', hh'⟩ := find_holds hf
  obtain rfl : e' = e := Option.some.inj (he'.symm.trans he)
  exact hne (sameLine_of_slot hg ((holds_iff.1 hh).2.symm.trans (holds_iff.1 hh').2) hindex)

/-- An invalidation makes no copy and keeps every other line (R144). -/
theorem invalidateCopy_hasCopy (h : Inv s) (i : Nat) (a : Addr) :
    (∀ j b st d, (invalidateCopy i a s).hasCopy j b st d → s.hasCopy j b st d) ∧
      ∀ j b st d, ¬ sameLine s.params.lineSize b a → s.hasCopy j b st d →
        (invalidateCopy i a s).hasCopy j b st d := by
  have hparams := (invalidateCopy_frame i a s).1.params
  refine ⟨fun j b st d hc => ?_, fun j b st d hne hc => ?_⟩
  · obtain ⟨-, hgone, hrest⟩ := invalidateCopy_inv h i a
    refine hrest j b st d (fun hslot => ?_) hc
    obtain ⟨rfl, hline⟩ := hslot
    exact hgone st d (hasCopy_of_sameLine (by rwa [hparams]) hc)
  · rcases invalidateCopy_cases i a s with ⟨-, heq⟩ | ⟨c, cs, w, hl, hf, heq⟩
    · rwa [heq]
    · rw [heq]
      exact putSet_keepsLine (h.geometry (locate_eq_some.1 hl).1) hl hf (modifyWay_keepsBut cs w _) hne hc

/-- Step 1 of write_line makes no copy and keeps every other line (R142). -/
theorem invalidateOthers_hasCopy (h : Inv s) (k : Nat) (a : Addr) (js : List Nat) :
    (∀ j b st d, (invalidateOthers k a js s).hasCopy j b st d → s.hasCopy j b st d) ∧
      ∀ j b st d, ¬ sameLine s.params.lineSize b a → s.hasCopy j b st d →
        (invalidateOthers k a js s).hasCopy j b st d := by
  induction js generalizing s with
  | nil => exact ⟨fun _ _ _ _ hc => hc, fun _ _ _ _ _ hc => hc⟩
  | cons i js ih =>
    simp only [invalidateOthers]
    by_cases hik : i = k
    · rw [if_pos hik]
      exact ih h
    · rw [if_neg hik]
      obtain ⟨hmade, hkept⟩ := invalidateCopy_hasCopy h i a
      obtain ⟨hmade', hkept'⟩ := ih (invalidateCopy_inv h i a).1
      rw [(invalidateCopy_frame i a s).1.params] at hkept'
      exact ⟨fun j b st d hc => hmade j b st d (hmade' j b st d hc),
        fun j b st d hne hc => hkept' j b st d hne (hkept j b st d hne hc)⟩

end

end Sys2Proof.Machine

/-! PROOFS. The flat memory a well-formed block stands for while it is free of aliasing (spec/10_state.md R46;
spec/20_memory.md R57, R63; spec/70_reset_and_hazards.md R206): what it means that the block represents a flat
memory, and that this is `AliasFree` with `VIEW` as the memory. -/

namespace Sys2Proof.Machine

/-- MEM holds the byte of the flat memory f at a. -/
def State.stored (s : State) (f : Addr → Byte) (a : Addr) : Prop :=
  Memory.read s.mem (a.toNat % s.params.storeSize) = f a

/-- The block holds the flat memory f of the window at b: its valid lines lie in the window with the bytes of f, and
where no cache has a byte Modified, MEM holds it. -/
structure Represents (s : State) (b : Nat) (f : Addr → Byte) : Prop where
  inv     : Inv s
  aligned : b % s.params.lineSize = 0
  inside  : ∀ k a st d, s.hasCopy k a st d → s.inWindow b a
  copies  : ∀ k a st d, s.hasCopy k a st d → d[offset s.params.lineSize a]? = some (f a)
  store   : ∀ a, s.inWindow b a → (∀ k d, ¬ s.hasCopy k a .modified d) → s.stored f a

/-- The list d is the line of a of the flat memory f. -/
def isLineOf (L : Nat) (f : Addr → Byte) (a : Addr) (d : List Byte) : Prop :=
  ∀ x, sameLine L x a → d[offset L x]? = some (f x)

section
variable {s t : State} {k b : Nat} {f g : Addr → Byte} {a x : Addr} {st : Coh} {d : List Byte}

/-! ### What a well-formed block gives -/

theorem Inv.storeLegal (h : Inv s) : storeLegal s.params = true := by
  obtain ⟨-, hstore, -⟩ := h.legal
  exact hstore

theorem Inv.capacity (h : Inv s) {c : CacheCfg} (hc : c ∈ s.params.caches) : c.cap < 2 ^ 64 := by
  have hrange := h.range
  simp only [Params.inRange, Bool.and_eq_true, List.all_eq_true, decide_eq_true_eq] at hrange
  obtain ⟨-, hcaps⟩ := hrange
  exact hcaps c hc

/-- A block has a cache, whose record fixes the geometry of its lines (R7, R102). -/
theorem Inv.exists_geometry (h : Inv s) : ∃ c, geometryLegal s.params c = true ∧ c.cap < 2 ^ 64 := by
  have hrange := h.range
  simp only [Params.inRange, Bool.and_eq_true, decide_eq_true_eq] at hrange
  obtain ⟨⟨hpos, -⟩, -⟩ := hrange
  exact ⟨s.params.caches[0], h.geometry (List.getElem?_eq_getElem hpos), h.capacity (List.getElem_mem hpos)⟩

theorem Inv.data_length (h : Inv s) (hc : s.hasCopy k a st d) : d.length = s.params.lineSize := by
  obtain ⟨c, cs, hl, v, e, he, -, -, rfl⟩ := hc
  exact ((h.setOk hl).shape.2 e (List.mem_of_getElem? he)).1

/-- VIEW is the byte of a copy of the line, or that of MEM where there is none (R46). -/
theorem Inv.view_cases (h : Inv s) (a : Addr) :
    (∃ k st d, s.hasCopy k a st d ∧ d[offset s.params.lineSize a]? = some (s.view a)) ∨
      (s.uncached a ∧ s.view a = Memory.read s.mem (a.toNat % s.params.storeSize)) := by
  cases hfind : s.reg.find? (fun k => (s.lookup k a).isSome) with
  | some k =>
    obtain ⟨c, hg, -⟩ := h.exists_geometry
    have hhit := List.find?_some hfind
    obtain ⟨w, hw⟩ := Option.isSome_iff_exists.1 hhit
    obtain ⟨st, d, hc⟩ := lookup_hasCopy hw
    have hlt : offset s.params.lineSize a < d.length := h.data_length hc ▸ offset_lt hg a
    refine .inl ⟨k, st, d, hc, ?_⟩
    simp only [State.view, hfind, (h.setsOk.cohAt_of_hasCopy hc).2, List.getElem?_eq_getElem hlt, Option.getD_some]
  | none =>
    refine .inr ⟨fun k st d hc => ?_, by simp only [State.view, hfind]⟩
    have hmiss := List.find?_eq_none.1 hfind k (hasCopy_mem_reg h.setsOk hc)
    exact not_hasCopy_of_lookup_none (by simpa using hmiss) hc

/-- Copies of one line hold the same data (R45). -/
theorem Inv.data_eq (h : Inv s) {j : Nat} {st' : Coh} {d' : List Byte} (hc : s.hasCopy k a st d)
    (hc' : s.hasCopy j a st' d') : d' = d := by
  by_cases hjk : j = k
  · subst hjk
    exact (h.setsOk.cohAt_of_hasCopy hc').2.symm.trans (h.setsOk.cohAt_of_hasCopy hc).2
  · exact (h.coherent k a st d hc j hjk st' d' hc').2.2

/-! ### Freedom from aliasing -/

/-- A block free of aliasing represents its VIEW (R57, R206). -/
theorem AliasFree.represents (h : Inv s) (ha : AliasFree s b) : Represents s b s.view where
  inv := h
  aligned := ha.aligned
  inside := fun k a st d hc => by
    refine ha.inside k (hasCopy_mem_reg h.setsOk hc) a ?_
    rw [(h.setsOk.cohAt_of_hasCopy hc).1]
    exact hasCopy_ne_invalid hc
  copies := fun k a st d hc => by
    rcases h.view_cases a with ⟨j, st', d', hc', hview⟩ | ⟨hun, -⟩
    · rw [← hview, h.data_eq hc hc']
    · exact absurd hc (hun k st d)
  store := fun a _ hclean => by
    rcases h.view_cases a with ⟨j, st, d, hc, hview⟩ | ⟨-, hview⟩
    · obtain rfl : st = .shared := shared_of_valid (hasCopy_ne_invalid hc) fun hm => hclean j d (hm ▸ hc)
      obtain ⟨hst, hdata⟩ := h.setsOk.cohAt_of_hasCopy hc
      have hmem := ha.clean j (hasCopy_mem_reg h.setsOk hc) a hst
      rw [hdata, hview] at hmem
      exact (Option.some.inj hmem).symm
    · exact hview.symm

theorem Represents.aliasFree (h : Represents s b f) : AliasFree s b where
  aligned := h.aligned
  inside := fun k _ a hc => h.inside k a _ _ (hasCopy_of_cohAt hc)
  clean := fun k _ a hst => by
    have hc := hasCopy_of_cohAt (s := s) (k := k) (a := a) (by rw [hst]; decide)
    rw [hst] at hc
    have hclean : ∀ j d, ¬ s.hasCopy j a .modified d := fun j d hm => by
      by_cases hjk : j = k
      · subst hjk
        have hst' := (h.inv.setsOk.cohAt_of_hasCopy hm).1
        rw [hst] at hst'
        cases hst'
      · exact (h.inv.coherent k a _ _ hc j hjk _ _ hm).2.1 rfl
    rw [h.copies k a _ _ hc, h.store a (h.inside k a _ _ hc) hclean]

/-- In the window VIEW is the memory represented. -/
theorem Represents.view_eq (h : Represents s b f) (hx : s.inWindow b x) : s.view x = f x := by
  rcases h.inv.view_cases x with ⟨k, st, d, hc, hview⟩ | ⟨hun, hview⟩
  · exact Option.some.inj (hview.symm.trans (h.copies k x st d hc))
  · rw [hview, h.store x hx fun k d => hun k _ d]

/-! ### Changes of the block -/

/-- The memory g is represented after a change if the copies then hold its bytes, and MEM those that no cache has
Modified. -/
theorem Represents.of_copies (h : Represents s b f) (hinv : Inv t) (hp : t.params = s.params)
    (hcopies : ∀ j y st d, t.hasCopy j y st d → s.inWindow b y ∧ d[offset s.params.lineSize y]? = some (g y))
    (hstore : ∀ y, s.inWindow b y → (∀ j d, ¬ t.hasCopy j y .modified d) → t.stored g y) : Represents t b g where
  inv := hinv
  aligned := hp ▸ h.aligned
  inside := fun j y st d hc => by
    rw [State.inWindow, hp]
    exact (hcopies j y st d hc).1
  copies := fun j y st d hc => by
    rw [hp]
    exact (hcopies j y st d hc).2
  store := fun y hy hclean => hstore y (by rwa [State.inWindow, hp] at hy) hclean

/-- A change that makes no copy of other bytes, keeps the bytes of f in MEM, and leaves in MEM every Modified line it
does away with, keeps the memory represented. -/
theorem Represents.of_kept (h : Represents s b f) (hinv : Inv t) (hp : t.params = s.params)
    (hcopies : ∀ j y st d, t.hasCopy j y st d → s.inWindow b y ∧ d[offset s.params.lineSize y]? = some (f y))
    (hmem : ∀ y, s.inWindow b y → s.stored f y → t.stored f y)
    (hdirty : ∀ j y d, s.inWindow b y → s.hasCopy j y .modified d → t.hasCopy j y .modified d ∨ t.stored f y) :
    Represents t b f := by
  refine h.of_copies hinv hp hcopies fun y hy hclean => ?_
  by_cases hd : ∃ j d, s.hasCopy j y .modified d
  · obtain ⟨j, d, hc⟩ := hd
    exact (hdirty j y d hy hc).resolve_left (hclean j d)
  · exact hmem y hy (h.store y hy fun j d hc => hd ⟨j, d, hc⟩)

theorem Represents.copy (h : Represents s b f) (hc : s.hasCopy k a st d) :
    s.inWindow b a ∧ d[offset s.params.lineSize a]? = some (f a) :=
  ⟨h.inside k a st d hc, h.copies k a st d hc⟩

/-- `Represents` speaks of the parameters, the arrays, REG, MEM and FAULT alone. -/
theorem Represents.congr (h : Represents s b f) (hinv : Inv t) (hp : t.params = s.params) (ha : t.arrays = s.arrays)
    (hm : ∀ y, s.inWindow b y → s.stored f y → t.stored f y) : Represents t b f :=
  h.of_kept hinv hp (fun _ _ _ _ hc => h.copy ((hasCopy_congr hp ha).1 hc)) hm
    fun _ _ _ _ hc => .inl ((hasCopy_congr hp ha).2 hc)

theorem Represents.of_respond (h : Represents s b f) (r : Response) : Represents (s.respond r) b f :=
  h.congr (respond_inv h.inv r) rfl rfl fun _ _ hm => hm

theorem Represents.of_accept (h : Represents s b f) (r : Request) (rest : List Request) :
    Represents (s.accept r rest) b f :=
  h.congr (accept_inv h.inv r rest) rfl rfl fun _ _ hm => hm

theorem Represents.of_devWrite (h : Represents s b f) (n : Nat) (a : Addr) (x : Byte) :
    Represents (devWrite n a x s) b f :=
  h.congr (h.inv.sameArrays (SameFrame.devWrite ..) rfl h.inv.mem) rfl rfl fun _ _ hm => hm

/-! ### Lines -/

theorem isLineOf_congr {L : Nat} {a a' : Addr} (h : sameLine L a a') (hd : isLineOf L f a d) : isLineOf L f a' d :=
  fun x hx => hd x (hx.trans h.symm)

/-- Every copy is the line of the memory represented. -/
theorem Represents.isLineOf_copy (h : Represents s b f) (hc : s.hasCopy k a st d) :
    isLineOf s.params.lineSize f a d :=
  fun x hx => h.copies k x st d (hasCopy_of_sameLine hx.symm hc)

theorem Represents.window_line (h : Represents s b f) (hline : sameLine s.params.lineSize x a)
    (ha : s.inWindow b a) : s.inWindow b x := by
  obtain ⟨c, hg, -⟩ := h.inv.exists_geometry
  exact window_of_sameLine hg h.inv.storeLegal h.aligned hline ha

/-- L bytes that are the line of a are what an RDLINE of a answers (R78). -/
theorem Represents.flatLine_eq (h : Represents s b f) (hlen : d.length = s.params.lineSize)
    (hd : isLineOf s.params.lineSize f a d) : d = flatLine s.params f a := by
  obtain ⟨c, hg, hcap⟩ := h.inv.exists_geometry
  refine List.ext_getElem? fun j => ?_
  by_cases hj : j < s.params.lineSize
  · obtain ⟨hline, hoff⟩ := lineByte_slot hg hcap a hj
    have hbyte := hd _ hline
    rw [hoff] at hbyte
    simp [flatLine, hj, hbyte]
  · rw [List.getElem?_eq_none (by omega), List.getElem?_eq_none (by simp [flatLine]; omega)]

/-- The line of a in MEM, where no cache holds it, is the line of the memory represented (R129). -/
theorem Represents.isLineOf_memRead (h : Represents s b f) (ha : s.inWindow b a) (hun : s.uncached a) :
    isLineOf s.params.lineSize f a (memRead (lineBase s.params.lineSize a) s.params.lineSize s).1 := by
  obtain ⟨c, hg, -⟩ := h.inv.exists_geometry
  intro x hx
  have hfit := line_fits h.inv.storeLegal (lineSize_of_geometryLegal hg) (lineBase_mod s.params.lineSize a)
  have hoff := offset_lt hg x
  rw [memRead_getElem? hoff (by omega), ← store_index_of_sameLine hg h.inv.storeLegal hx]
  exact congrArg some (h.store x (h.window_line hx ha) fun k d hc => hun k _ d (hasCopy_of_sameLine hx hc))

end

end Sys2Proof.Machine

/-! PROOFS. What read_line and write_line do to the flat memory a block represents: a read keeps it and returns the
line, a write replaces the line (spec/42_read_path.md R120 to R130; spec/43_write_path.md R140 to R144;
spec/44_write_back.md R150). -/

namespace Sys2Proof.Machine

section
variable {s t : State} {j k b : Nat} {f : Addr → Byte} {a x y : Addr} {c : CacheCfg} {cs ds : CacheSet} {st : Coh}
  {d d' : List Byte}

/-! ### Write-back -/

theorem Represents.stored_memWrite_same (h : Represents s b f) (hd : isLineOf s.params.lineSize f a d)
    (hbase : a.toNat % s.params.lineSize = 0) (hline : sameLine s.params.lineSize y a) :
    (memWrite a d s).stored f y := by
  obtain ⟨c, hg, -⟩ := h.inv.exists_geometry
  have hfit := line_fits h.inv.storeLegal (lineSize_of_geometryLegal hg) hbase
  have hoff := offset_lt hg y
  have hindex := store_index_of_sameLine hg h.inv.storeLegal hline
  rw [lineBase_of_mod hbase] at hindex
  rw [State.stored, memWrite_params, hindex]
  exact memWrite_read_same h.inv.mem (hd y hline) (by omega)

/-- Free of aliasing, writing a line leaves every other line of the window in MEM as it was (R57). -/
theorem Represents.stored_memWrite_other (h : Represents s b f) (hlen : d.length = s.params.lineSize)
    (ha : s.inWindow b a) (hbase : a.toNat % s.params.lineSize = 0) (hy : s.inWindow b y)
    (hne : ¬ sameLine s.params.lineSize y a) (hstored : s.stored f y) : (memWrite a d s).stored f y := by
  obtain ⟨c, hg, hcap⟩ := h.inv.exists_geometry
  have hfit := line_fits h.inv.storeLegal (lineSize_of_geometryLegal hg) hbase
  have hpos := lineSize_of_geometryLegal hg
  have hout : ¬ (a.toNat % s.params.storeSize ≤ y.toNat % s.params.storeSize ∧
      y.toNat % s.params.storeSize < a.toNat % s.params.storeSize + s.params.lineSize) := fun ⟨hlow, hhigh⟩ => by
    rw [← lineBase_of_mod hbase] at hlow hhigh
    exact hne (sameLine_of_store_index hg hcap h.inv.storeLegal h.aligned ha hy hlow hhigh)
  rw [State.stored, memWrite_params, memWrite_read_other (by omega) (by omega)]
  exact hstored

/-- Writing back a line a cache holds keeps the memory represented, and MEM holds the line afterwards (R150). -/
theorem Represents.of_writeBack (h : Represents s b f) (hc : s.hasCopy k a st d)
    (hbase : a.toNat % s.params.lineSize = 0) :
    Represents (memWrite a d s) b f ∧
      ∀ y, s.inWindow b y → s.stored f y ∨ sameLine s.params.lineSize y a → (memWrite a d s).stored f y := by
  have hstored : ∀ y, s.inWindow b y → s.stored f y ∨ sameLine s.params.lineSize y a →
      (memWrite a d s).stored f y := fun y hy hor => by
    by_cases hline : sameLine s.params.lineSize y a
    · exact h.stored_memWrite_same (h.isLineOf_copy hc) hbase hline
    · exact h.stored_memWrite_other (h.inv.data_length hc) (h.inside k a st d hc) hbase hy hline
        (hor.resolve_right hline)
  obtain ⟨cfg, _, hl, -⟩ := hc
  have hS := h.inv.storeSize_pos (locate_eq_some.1 hl).1
  exact ⟨h.congr (h.inv.sameArrays (SameFrame.memWrite ..) rfl (memWrite_wf hS h.inv.mem)) rfl rfl
    fun y hy hm => hstored y hy (.inl hm), hstored⟩

/-- The address an entry is written back to is the base of the line the entry holds (R98, R99, R150). -/
theorem Inv.addressOf_entry (h : Inv s) (hl : s.locate k a = some (c, cs)) {v : Nat} {e : Entry}
    (he : cs.ways[v]? = some e) (hvalid : e.state.isValid = true) :
    let a0 := c.addressOf s.params.lineSize e.tag (c.index s.params.lineSize a)
    s.hasCopy k a0 e.state e.data ∧ a0.toNat % s.params.lineSize = 0 ∧
      ∀ y, c.tag s.params.lineSize y = e.tag → c.index s.params.lineSize y = c.index s.params.lineSize a →
        sameLine s.params.lineSize y a0 := by
  obtain ⟨hcfg, hset⟩ := locate_eq_some.1 hl
  have hg := h.geometry hcfg
  have htag := ((h.setOk hl).shape.2 e (List.mem_of_getElem? he)).2
  obtain ⟨htag0, hindex0, hbase⟩ := addressOf_slot hg (h.capacity (List.mem_of_getElem? hcfg)) htag (index_lt hg a)
  refine ⟨⟨c, cs, locate_eq_some.2 ⟨hcfg, by rwa [hindex0]⟩, v, e, he, ?_, rfl, rfl⟩, hbase, fun y hy hi => ?_⟩
  · exact holds_iff.2 ⟨hvalid, htag0.symm⟩
  · exact sameLine_of_slot hg (hy.trans htag0.symm) (hi.trans hindex0.symm)

/-- An eviction keeps the memory represented; a Modified line of the way evicted is in MEM afterwards (R125, R154). -/
theorem Represents.of_evict (h : Represents s b f) {v : Nat} {u : Unit} (hl : s.locate k a = some (c, cs))
    (he : evict k (c.index s.params.lineSize a) v s = .ok u t) :
    Represents t b f ∧ (∀ y, s.inWindow b y → s.stored f y → t.stored f y) ∧
      ∀ y d, s.inWindow b y → c.index s.params.lineSize y = c.index s.params.lineSize a →
        cs.wayHolds v (c.tag s.params.lineSize y) .modified d → t.stored f y := by
  obtain ⟨e, hentry, hcase⟩ := evict_ok he
  rw [entry_of_locate hl] at hentry
  have hway : ∀ y d, cs.wayHolds v (c.tag s.params.lineSize y) .modified d →
      e.state = .modified ∧ c.tag s.params.lineSize y = e.tag := by
    rintro y d ⟨e', he', hh, hst, -⟩
    obtain rfl : e' = e := Option.some.inj (he'.symm.trans hentry)
    exact ⟨hst, (holds_iff.1 hh).2.symm⟩
  rcases hcase with ⟨hm, hw⟩ | ⟨hm, rfl⟩
  · rw [writeBack_completes h.inv (locate_eq_some.1 hl).1 ((entry_of_locate hl v).trans hentry)] at hw
    cases hw
    obtain ⟨hc, hbase, hline⟩ := h.inv.addressOf_entry hl hentry (by rw [hm]; rfl)
    obtain ⟨hrep, hstored⟩ := h.of_writeBack hc hbase
    exact ⟨hrep, fun y hy hs => hstored y hy (.inl hs),
      fun y d hy hi hh => hstored y hy (.inr (hline y (hway y d hh).2 hi))⟩
  · exact ⟨h, fun _ _ hs => hs, fun y d _ _ hh => absurd (hway y d hh).1 hm⟩

/-! ### The read path -/

/-- A local hit keeps every copy and MEM (R121). -/
theorem Represents.of_localHit (h : Represents s b f) {w : Nat} (hw : s.lookup k a = some w)
    (hh : localHit k a w s = .ok d t) :
    Represents t b f ∧ isLineOf s.params.lineSize f a d ∧ ∃ st, t.hasCopy k a st d := by
  obtain ⟨c, cs, e, ds, hl, he, ht, rfl, rfl⟩ := localHit_ok hh
  obtain ⟨c', cs', hl', hf⟩ := lookup_eq_some.1 hw
  obtain ⟨rfl, rfl⟩ := Prod.mk.inj (Option.some.inj (hl'.symm.trans hl))
  obtain ⟨e', he', hholds⟩ := find_holds hf
  obtain rfl : e' = e := Option.some.inj (he'.symm.trans he)
  have hc : s.hasCopy k a e'.state e'.data := ⟨c', cs', hl, w, e', he, hholds, rfl, rfl⟩
  obtain ⟨hinv, hmade, hrest⟩ := h.inv.putSet hl ((h.inv.setOk hl).touch ht _)
    fun st d hcopy => h.inv.coherent k a st d ((hasCopy_locate hl).2 hcopy)
  have hkept : ∀ j y st d, s.hasCopy j y st d →
      (s.putSet k (c'.index s.params.lineSize a) ds).hasCopy j y st d := fun j y st d hcopy =>
    (putSet_hasCopy (lost := fun _ => False) hl (fun u hu => .inl (hasCopy_touch ht hu)) hcopy).resolve_right
      fun hlost => hlost.2.2
  have hold : ∀ j y st d, (s.putSet k (c'.index s.params.lineSize a) ds).hasCopy j y st d → s.hasCopy j y st d := by
    intro j y st d hcopy
    by_cases hslot : j = k ∧ sameLine s.params.lineSize y a
    · obtain ⟨rfl, hline⟩ := hslot
      have hset := hmade st d (hasCopy_of_sameLine hline hcopy)
      exact hasCopy_of_sameLine hline.symm ((hasCopy_locate hl).2 hset)
    · exact hrest j y st d hslot hcopy
  exact ⟨h.of_kept hinv rfl (fun j y st d hcopy => h.copy (hold j y st d hcopy)) (fun _ _ hs => hs)
      fun j y d _ hcopy => .inl (hkept j y _ d hcopy), h.isLineOf_copy hc, _, hkept k a _ _ hc⟩

/-- What a fill does to the copies: it makes one of the line of a, and only the way it reuses loses its own (R126,
R130). -/
theorem place_hasCopy (hp : place k a d s = .ok d' t) :
    t.hasCopy k a .shared d ∧ ∃ c cs v s1, s.locate k a = some (c, cs) ∧
      evict k (c.index s.params.lineSize a) v s = .ok () s1 ∧ t.mem = s1.mem ∧ t.params = s1.params ∧
      ∀ j y st x, s.hasCopy j y st x → t.hasCopy j y st x ∨
        (c.index s.params.lineSize y = c.index s.params.lineSize a ∧
          cs.wayHolds v (c.tag s.params.lineSize y) st x) := by
  obtain ⟨c, cs, v, s1, ds, hl, -, he, ht, -, rfl⟩ := place_ok hp
  obtain ⟨hframe, -, harrays, -⟩ := evict_frame he
  obtain ⟨e, hentry, -⟩ := evict_ok he
  rw [entry_of_locate hl] at hentry
  have hl1 : s1.locate k a = some (c, cs) := (locate_congr hframe.params harrays k a).trans hl
  have hkeep : cs.keepsBut ds v := CacheSet.keepsBut.touch (modifyWay_keepsBut cs v _) ht
  have hnew : ds.hasCopy (c.tag s.params.lineSize a) .shared d :=
    hasCopy_touch ht (hasCopy_modifyWay hentry (holds_iff.2 ⟨rfl, rfl⟩))
  have hmade := putSet_hasCopy_same (ds := ds) (st := .shared) (d := d) hl1
  have hkept := fun j y st x => putSet_hasCopy (j := j) (b := y) hl1 fun u => hkeep u st x
  rw [hframe.params] at hmade
  simp only [hframe.params] at hkept
  exact ⟨hmade hnew, c, cs, v, s1, hl, he, rfl, rfl, fun j y st x hc =>
    (hkept j y st x ((hasCopy_congr hframe.params harrays).2 hc)).imp_right And.right⟩

/-- A fill with the line of a keeps the memory represented: what it displaces is in MEM (R125, R126, R129, R130). -/
theorem Represents.of_place (h : Represents s b f) (ha : s.inWindow b a) (hmiss : s.lookup k a = none)
    (hshared : s.sharedAs a d) (hlen : d.length = s.params.lineSize) (hd : isLineOf s.params.lineSize f a d)
    (hp : place k a d s = .ok d' t) : Represents t b f ∧ d' = d ∧ ∃ st, t.hasCopy k a st d := by
  obtain ⟨hinv, rfl, hmade, hrest⟩ := place_inv h.inv hmiss hshared hlen hp
  obtain ⟨hnew, c, cs, v, s1, hl, he, hmem, hparams, hkept⟩ := place_hasCopy hp
  obtain ⟨-, hstored, hvictim⟩ := h.of_evict hl he
  have hp' : t.params = s.params := (place_frame hp).1.params
  have hst : ∀ y, s1.stored f y → t.stored f y := fun y hy => by rwa [State.stored, hmem, hparams]
  refine ⟨h.of_kept hinv hp' (fun j y st x hc => ?_) (fun y hy hs => hst y (hstored y hy hs))
    (fun j y x hy hc => ?_), rfl, _, hnew⟩
  · by_cases hslot : j = k ∧ sameLine s.params.lineSize y a
    · obtain ⟨rfl, hline⟩ := hslot
      obtain ⟨-, rfl⟩ := hmade st x (hasCopy_of_sameLine (hp' ▸ hline) hc)
      exact ⟨h.window_line hline ha, hd y hline⟩
    · exact h.copy (hrest j y st x hslot hc)
  · exact (hkept j y _ x hc).imp_right fun hlost => hst y (hvictim y x hy hlost.1 hlost.2)

/-- A sibling that hands out its copy keeps the memory represented: a Modified one is in MEM afterwards (R124). -/
theorem Represents.of_siblingCopy (h : Represents s b f) (hs : siblingCopy j a s = .ok d t) :
    Represents t b f ∧ isLineOf s.params.lineSize f a d := by
  obtain ⟨c, cs, w, e, hl, hf, he, rfl, hcase⟩ := siblingCopy_ok hs
  obtain ⟨e', he', hh⟩ := find_holds hf
  obtain rfl : e' = e := Option.some.inj (he'.symm.trans he)
  have hcopy : s.hasCopy j a e'.state e'.data := ⟨c, cs, hl, w, e', he, hh, rfl, rfl⟩
  refine ⟨?_, h.isLineOf_copy hcopy⟩
  rcases hcase with ⟨hm, s1, hw, rfl⟩ | ⟨-, rfl⟩
  · obtain ⟨hvalid, htag⟩ := holds_iff.1 hh
    obtain ⟨hc0, hbase, hline⟩ := h.inv.addressOf_entry hl he hvalid
    have hcfg := (locate_eq_some.1 hl).1
    rw [writeBack_completes h.inv hcfg ((entry_of_locate hl w).trans he)] at hw
    cases hw
    obtain ⟨h1, hstored⟩ := h.of_writeBack hc0 hbase
    have hline0 := hline a htag.symm rfl
    have hrep := putSet_lineReplaced (h.inv.geometry hcfg) hl ((h.inv.setOk hl).setCoh hf .shared).2
    refine h.of_kept (siblingCopy_inv h.inv hs).1 rfl (fun i y st x hc => ?_) (fun y hy hst => hstored y hy (.inl hst))
      fun i y x hy hc => ?_
    · by_cases hslot : i = j ∧ sameLine s.params.lineSize y a
      · obtain ⟨rfl, hy⟩ := hslot
        obtain ⟨-, -, e, he0, rfl⟩ := hrep.1 st x (hasCopy_of_sameLine hy hc)
        obtain rfl : e' = e := Option.some.inj (he.symm.trans he0)
        exact h.copy (hasCopy_of_sameLine hy.symm hcopy)
      · exact h.copy (hrep.2 i y st x hslot hc)
    · by_cases hy' : sameLine s.params.lineSize y a
      · exact .inr (hstored y hy (.inr (hy'.trans hline0)))
      · exact .inl (putSet_keepsLine (h.inv.geometry hcfg) hl hf (modifyWay_keepsBut cs w _) hy' hc)
  · exact h

/-- A fill from MEM of a line that no cache holds (R129). -/
theorem Represents.of_placeFromStore (h : Represents s b f) (ha : s.inWindow b a) (hun : s.uncached a)
    (hp : place k a (memRead (lineBase s.params.lineSize a) s.params.lineSize s).1
      (memRead (lineBase s.params.lineSize a) s.params.lineSize s).2 = .ok d t) :
    Represents t b f ∧ isLineOf s.params.lineSize f a d ∧ ∃ st, t.hasCopy k a st d := by
  have hd := h.isLineOf_memRead ha hun
  have hlen := memRead_length (lineBase s.params.lineSize a) s.params.lineSize s
  have h1 : Represents (memRead (lineBase s.params.lineSize a) s.params.lineSize s).2 b f :=
    h.congr (h.inv.sameArrays (SameFrame.memRead ..) rfl h.inv.mem) rfl rfl fun _ _ hs => hs
  have hun1 : State.uncached (memRead (lineBase s.params.lineSize a) s.params.lineSize s).2 a := hun
  obtain ⟨hrep, rfl, hnew⟩ := h1.of_place ha (lookup_eq_none_iff.2 (hun1 k)) (hun1.sharedAs _) hlen hd hp
  exact ⟨hrep, hd, hnew⟩

/-- A read from the next level of a line that no cache holds (R128). -/
theorem Represents.of_readNext (h : Represents s b f) (ha : s.inWindow b a) (hun : s.uncached a)
    (hr : readLineN 1 k a s = .ok d t) : Represents t b f ∧ isLineOf s.params.lineSize f a d := by
  rcases readLineN_ok hr with ⟨w, hw, -⟩ | ⟨-, j, _, _, hj, -, -⟩ |
    ⟨-, -, c, -, ⟨_, _, _, -, hloop, -⟩ | ⟨-, hp⟩⟩
  · obtain ⟨st, x, hc⟩ := lookup_hasCopy hw
    exact absurd hc (hun k st x)
  · obtain ⟨-, -, w, hw⟩ := findSibling_some hj
    obtain ⟨st, x, hc⟩ := lookup_hasCopy hw
    exact absurd hc (hun j st x)
  · simp [readLineN] at hloop
  · obtain ⟨hrep, hd, -⟩ := h.of_placeFromStore ha hun hp
    exact ⟨hrep, hd⟩

/-- read_line in the window keeps the memory represented and answers its line, which the cache then holds (R46,
R120). -/
theorem Represents.of_readLine (h : Represents s b f) (ha : s.inWindow b a) (hr : readLine k a s = .ok d t) :
    Represents t b f ∧ isLineOf s.params.lineSize f a d ∧ ∃ st, t.hasCopy k a st d := by
  rcases readLineN_ok hr with ⟨w, hw, hhit⟩ | ⟨hmiss, j, s1, d1, hj, hcopy, hp⟩ |
    ⟨hmiss, hn, c, hc, ⟨m, s1, d1, hm, hnext, hp⟩ | ⟨-, hp⟩⟩
  · exact h.of_localHit hw hhit
  · obtain ⟨-, hlen, hshared, hkept⟩ := siblingCopy_inv h.inv hcopy
    obtain ⟨h1, hd⟩ := h.of_siblingCopy hcopy
    have hparams := (siblingCopy_frame hcopy).1.params
    have hmiss1 : s1.lookup k a = none := lookup_eq_none_iff.2 fun st x hx =>
      not_hasCopy_of_lookup_none hmiss (hkept k st x (Ne.symm (findSibling_some hj).2.1) hx)
    rw [← hparams] at hlen hd ⊢
    obtain ⟨hrep, rfl, hnew⟩ := h1.of_place (by rwa [State.inWindow, hparams]) hmiss1 hshared hlen hd hp
    exact ⟨hrep, hd, hnew⟩
  · have hun := uncached_of_miss h.inv hmiss hn
    obtain ⟨h1, hd⟩ := h.of_readNext ha hun hnext
    obtain ⟨-, hlen, hmade, cm, hcm, hterm⟩ := readNext_inv h.inv hun hnext
    have hparams := (readLineN_frame hnext).1.params
    have hkm : k ≠ m := by
      rintro rfl
      obtain rfl : cm = c := Option.some.inj (hcm.symm.trans hc)
      simp [hterm] at hm
    have hmiss1 : s1.lookup k a = none := lookup_eq_none_iff.2 fun st x hx =>
      hun k st x (hmade.2 k a st x (fun hx => hkm hx.1) hx)
    have hshared := hun.sharedAs_of_fill hmade
    rw [← hparams] at hlen hd ⊢
    obtain ⟨hrep, rfl, hnew⟩ := h1.of_place (by rwa [State.inWindow, hparams]) hmiss1 hshared hlen hd hp
    exact ⟨hrep, hd, hnew⟩
  · exact h.of_placeFromStore ha (uncached_of_miss h.inv hmiss hn) hp

/-! ### The write path -/

/-- What write_line does to the copies: the only one of the line of a is the writer's, Modified with the new data, and
those of every other line stay (R142, R143). -/
theorem writeLine_hasCopy (h : Inv s) (hlen : d.length = s.params.lineSize) {u : Unit}
    (hw : writeLine k a d s = .ok u t) :
    (∃ st x, s.hasCopy k a st x) ∧ (∀ y, sameLine s.params.lineSize y a → t.hasCopy k y .modified d) ∧
      ∀ j y st x, ¬ sameLine s.params.lineSize y a → (t.hasCopy j y st x ↔ s.hasCopy j y st x) := by
  obtain ⟨c, cs, w, ds, hl, hf, ht, rfl⟩ := writeLine_ok hw
  obtain ⟨e, he, hh⟩ := find_holds hf
  have hg := h.geometry (locate_eq_some.1 hl).1
  obtain ⟨hinv1, hset, -⟩ := invalidateOthers_inv h k a s.reg
  obtain ⟨hmade, hkept⟩ := invalidateOthers_hasCopy h k a s.reg
  have hparams := (invalidateOthers_frame k a s.reg s).1.params
  have hl1 := hset.trans hl
  have hkeep : cs.keepsBut ds w := CacheSet.keepsBut.touch (modifyWay_keepsBut cs w _) ht
  have hnew : ds.hasCopy (c.tag s.params.lineSize a) .modified d :=
    hasCopy_touch ht (hasCopy_modifyWay he (holds_iff.2 ⟨rfl, (holds_iff.1 hh).2⟩))
  rw [← hparams] at hg hf hlen hnew ⊢
  have hrep := putSet_lineReplaced hg hl1 ((hinv1.setOk hl1).overwrite hf hlen ht).2
  refine ⟨⟨e.state, e.data, c, cs, hl, w, e, he, hh, rfl, rfl⟩,
    fun y hy => hasCopy_of_sameLine hy.symm (putSet_hasCopy_same hl1 hnew),
    fun j y st x hne => ⟨fun hc => ?_, fun hc => ?_⟩⟩
  · exact hmade j y st x (hrep.2 j y st x (fun hslot => hne hslot.2) hc)
  · exact putSet_keepsLine hg hl1 hf hkeep hne (hkept j y st x (hparams ▸ hne) hc)

/-- write_line replaces the line in the memory represented (R143). -/
theorem Represents.of_writeLine (h : Represents s b f) (hlen : d.length = s.params.lineSize) {u : Unit}
    (hw : writeLine k a d s = .ok u t) : Represents t b (flatLineWrite s.params f a d) := by
  have hinv := writeLine_inv h.inv hlen hw
  obtain ⟨⟨st, x, hold⟩, hnew, hother⟩ := writeLine_hasCopy h.inv hlen hw
  obtain ⟨hframe, -, hmem, -⟩ := writeLine_frame hw
  obtain ⟨c, hg, -⟩ := h.inv.exists_geometry
  have hin : ∀ y, sameLine s.params.lineSize y a →
      d[offset s.params.lineSize y]? = some (flatLineWrite s.params f a d y) := fun y hy => by
    have hlt : offset s.params.lineSize y < d.length := hlen ▸ offset_lt hg y
    rw [flatLineWrite, if_pos ((lineBase_eq_iff hg).2 hy), List.getElem?_eq_getElem hlt, Option.getD_some]
  have hout : ∀ y, ¬ sameLine s.params.lineSize y a → flatLineWrite s.params f a d y = f y := fun y hy =>
    if_neg (mt (lineBase_eq_iff hg).1 hy)
  refine h.of_copies hinv hframe.params (fun j y st' x' hc => ?_) fun y hy hclean => ?_
  · by_cases hline : sameLine s.params.lineSize y a
    · have hd := hinv.data_eq (hnew y hline) hc
      exact ⟨h.window_line hline (h.inside k a st x hold), hd ▸ hin y hline⟩
    · rw [hout y hline]
      exact h.copy ((hother j y st' x' hline).1 hc)
  · have hline : ¬ sameLine s.params.lineSize y a := fun hline => hclean k d (hnew y hline)
    rw [State.stored, hmem, hframe.params, hout y hline]
    exact h.store y hy fun j x' hc => hclean j x' ((hother j y _ x' hline).2 hc)

end

end Sys2Proof.Machine

/-! PROOFS. The byte accessors and the requests in the flat memory (spec/20_memory.md R55, R63; spec/45_accessors.md
R155 to R159; spec/70_reset_and_hazards.md R206, R207): free of aliasing a GET reads it and a PUT writes it. -/

namespace Sys2Proof.Machine

/-! ### The bytes of an access (R59) -/

theorem accessBytes_succ (a : Addr) (n : Nat) : accessBytes a (n + 1) = a :: accessBytes (a + 1) n := by
  have hnext : byteAddr a ∘ Nat.succ = byteAddr (a + 1) := by
    funext j
    simp only [Function.comp, byteAddr, Nat.succ_eq_add_one, BitVec.ofNat_add]
    ac_rfl
  rw [accessBytes, List.range_succ_eq_map, List.map_cons, List.map_map, hnext, byteAddr, BitVec.add_zero, accessBytes]

section
variable {s t : State} {k b : Nat} {f : Addr → Byte} {a : Addr} {d : List Byte}

theorem SameFrame.inWindow_iff (h : SameFrame s t) {x : Addr} : t.inWindow b x ↔ s.inWindow b x := by
  rw [State.inWindow, h.params, State.inWindow]

/-! ### The accessors -/

/-- The line a byte access reads (R155). -/
theorem Represents.readLine_base (h : Represents s b f) (hk : k < s.params.nCaches) (ha : s.inWindow b a) :
    ∃ d t, readLine k (lineBase s.params.lineSize a) s = .ok d t ∧ SameFrame s t ∧ Represents t b f ∧
      d.length = s.params.lineSize ∧ isLineOf s.params.lineSize f a d ∧
      ∃ st, t.hasCopy k (lineBase s.params.lineSize a) st d := by
  obtain ⟨c, hg, -⟩ := h.inv.exists_geometry
  have hbase := sameLine_lineBase hg a
  obtain ⟨d, t, hr⟩ := readLine_completes h.inv hk (lineBase s.params.lineSize a)
  obtain ⟨hrep, hd, hnew⟩ := h.of_readLine (h.window_line hbase ha) hr
  exact ⟨d, t, hr, (readLineN_frame hr).1, hrep, (readLine_inv h.inv hr).2, isLineOf_congr hbase hd, hnew⟩

theorem Represents.getByte_reads (h : Represents s b f) (hk : k < s.params.nCaches) (ha : s.inWindow b a) :
    ∃ t, getByte k a s = .ok (f a) t ∧ SameFrame s t ∧ Represents t b f := by
  obtain ⟨d, t, hr, hframe, hrep, -, hd, -⟩ := h.readLine_base hk ha
  exact ⟨t, by simp only [getByte, hr, bind_ok, hd a (sameLine_refl ..)], hframe, hrep⟩

/-- n get_byte calls read n bytes of the memory represented (R156). -/
theorem Represents.getBytes_reads (h : Represents s b f) (hk : k < s.params.nCaches) {n : Nat}
    (hin : ∀ x ∈ accessBytes a n, s.inWindow b x) :
    ∃ t, getBytes k a n s = .ok ((accessBytes a n).map f) t ∧ Represents t b f := by
  induction n generalizing a s with
  | zero => exact ⟨s, rfl, h⟩
  | succ n ih =>
    rw [accessBytes_succ, List.forall_mem_cons] at hin
    obtain ⟨ha, hrest⟩ := hin
    obtain ⟨s1, hbyte, hframe, h1⟩ := h.getByte_reads hk ha
    obtain ⟨t, hbytes, ht⟩ := ih h1 (hframe.params ▸ hk) fun x hx => hframe.inWindow_iff.2 (hrest x hx)
    exact ⟨t, by simp only [getBytes, hbyte, hbytes, bind_ok, accessBytes_succ, List.map_cons], ht⟩

/-- put_byte through the cache writes one byte of the memory represented (R158): it replaces the line by itself with
the byte set. -/
theorem Represents.putByteCached_writes (h : Represents s b f) (hk : k < s.params.nCaches) (ha : s.inWindow b a)
    (v : Byte) : ∃ t, putByteCached k a v s = .ok () t ∧ Represents t b fun x => if x = a then v else f x := by
  obtain ⟨c, hg, -⟩ := h.inv.exists_geometry
  obtain ⟨buf, s1, hr, hframe, h1, hlen, hd, st, hcopy⟩ := h.readLine_base hk ha
  obtain ⟨w, hw⟩ := Option.ne_none_iff_exists'.1 fun hmiss => not_hasCopy_of_lookup_none hmiss hcopy
  obtain ⟨t, hwrite⟩ := writeLine_completes h1.inv hw (buf.set (offset s.params.lineSize a) v)
  refine ⟨t, by simp only [putByteCached, hr, bind_ok, hwrite], ?_⟩
  have hrep := h1.of_writeLine (by rw [List.length_set, hlen, hframe.params]) hwrite
  rw [hframe.params] at hrep
  have hsame : flatLineWrite s.params f (lineBase s.params.lineSize a) (buf.set (offset s.params.lineSize a) v) =
      fun x => if x = a then v else f x := by
    funext x
    rw [flatLineWrite]
    by_cases hline : sameLine s.params.lineSize x a
    · rw [if_pos ((lineBase_eq_iff hg).2 (hline.trans (sameLine_lineBase hg a).symm)), List.getElem?_set]
      by_cases hoff : offset s.params.lineSize a = offset s.params.lineSize x
      · rw [if_pos hoff, if_pos (hlen ▸ offset_lt hg a), if_pos (eq_of_sameLine_of_offset hg hline hoff.symm),
          Option.getD_some]
      · rw [if_neg hoff, if_neg (fun hxa => hoff (by rw [hxa])), hd x hline, Option.getD_some]
    · rw [if_neg (fun hbase => hline (((lineBase_eq_iff hg).1 hbase).trans (sameLine_lineBase hg a))),
        if_neg (fun hxa => hline (by rw [hxa]; rfl))]
  rwa [hsame] at hrep

/-- put_byte writes its byte to the memory represented, or calls the handler that takes it (R157). -/
theorem Represents.putByte_writes (h : Represents s b f) (hk : k < s.params.nCaches) (ha : s.inWindow b a) (v : Byte) :
    ∃ t, putByte k a v s = .ok () t ∧ Represents t b (flatWrite s.params f a [v]) := by
  cases hdev : writeHandler s.params a with
  | some n =>
    have ht := h.of_devWrite n a v
    exact ⟨devWrite n a v s, by simp only [putByte, hdev], by simpa only [flatWrite, hdev] using ht⟩
  | none =>
    obtain ⟨t, hput, ht⟩ := h.putByteCached_writes hk ha v
    exact ⟨t, by simp only [putByte, hdev, hput], by simpa only [flatWrite, hdev] using ht⟩

/-- put_byte of each byte writes them in turn, but for those a device takes (R159). -/
theorem Represents.putBytes_writes (h : Represents s b f) (hk : k < s.params.nCaches) {bs : List Byte}
    (hin : ∀ x ∈ accessBytes a bs.length, s.inWindow b x) :
    ∃ t, putBytes k a bs s = .ok () t ∧ Represents t b (flatWrite s.params f a bs) := by
  induction bs generalizing a s f with
  | nil => exact ⟨s, rfl, h⟩
  | cons v bs ih =>
    rw [List.length_cons, accessBytes_succ, List.forall_mem_cons] at hin
    obtain ⟨ha, hrest⟩ := hin
    obtain ⟨s1, hput, h1⟩ := h.putByte_writes hk ha v
    have hframe := putByte_frame hput
    obtain ⟨t, hputs, ht⟩ := ih h1 (hframe.params ▸ hk) fun x hx => hframe.inWindow_iff.2 (hrest x hx)
    rw [hframe.params] at ht
    exact ⟨t, by simp only [putBytes, hput, bind_ok, hputs], ht⟩

end

end Sys2Proof.Machine

/-! PROOFS. Each request in the flat memory (spec/20_memory.md R63; spec/45_accessors.md R156, R159;
spec/42_read_path.md R134; spec/43_write_path.md R145): it gives the response of the flat memory it finds
represented, and leaves the next one. -/

namespace Sys2Proof.Machine

section
variable {s : State} {i : Instr} {n b : Nat} {f : Addr → Byte}

/-! ### The requests by kind (R73) -/

/-- A request is a GET, a PUT, an RDLINE or a WRLINE. -/
theorem instr_kinds (i : Instr) :
    (∃ n, getWidth i = some n) ∨ (∃ n, putWidth i = some n) ∨ (∃ c, i = .rdline c) ∨ ∃ c, i = .wrline c := by
  cases i <;> simp [getWidth, putWidth]

theorem exec_of_getWidth (h : getWidth i = some n) (s : State) :
    exec i s = (getN i.cid.toNat s.req.addr n s).finish := by
  cases i <;> cases h <;> rfl

theorem exec_of_putWidth (h : putWidth i = some n) (s : State) :
    exec i s = (putN i.cid.toNat s.req.addr n s).finish := by
  cases i <;> cases h <;> rfl

theorem touchedBytes_of_width (h : getWidth i = some n ∨ putWidth i = some n) (r : Request) :
    touchedBytes i r = accessBytes r.addr n := by
  rcases h with h | h
  · cases i <;> cases h <;> rfl
  · cases i <;> cases h <;> rfl

theorem flat_of_getWidth (h : getWidth i = some n) (p : Params) (f : Addr → Byte) (r : Request) :
    flatResponse p f i r = Response.read (flatRead f r.addr n) ∧ flatNext p f i r = f := by
  cases i <;> cases h <;> exact ⟨rfl, rfl⟩

theorem flat_of_putWidth (h : putWidth i = some n) (p : Params) (f : Addr → Byte) (r : Request) :
    flatResponse p f i r = Response.done ∧ flatNext p f i r = flatWrite p f r.addr (r.putData n) := by
  cases i <;> cases h <;> exact ⟨rfl, rfl⟩

theorem toNat_lt_of_wellFormed (h : i.wellFormed n = true) : i.cid.toNat < n := of_decide_eq_true h

/-! ### Performing a request -/

/-- The request answers r and leaves u, which represents g: its response aside, the block's interface is as it was. -/
def State.answers (s : State) (i : Instr) (b : Nat) (r : Response) (g : Addr → Byte) : Prop :=
  ∃ u, exec i s = .next (u.respond r) ∧ SameFrame s u ∧ Represents u b g

theorem Represents.exec_get (h : Represents s b f) (hi : getWidth i = some n) (hk : i.cid.toNat < s.params.nCaches)
    (hin : ∀ x ∈ accessBytes s.req.addr n, s.inWindow b x) :
    s.answers i b (Response.read (flatRead f s.req.addr n)) f := by
  obtain ⟨u, hget, hu⟩ := h.getBytes_reads hk hin
  exact ⟨u, by simp only [exec_of_getWidth hi, getN, hget, bind_ok, Res.finish, flatRead], (getBytes_frame hget).1, hu⟩

theorem Represents.exec_put (h : Represents s b f) (hi : putWidth i = some n) (hk : i.cid.toNat < s.params.nCaches)
    (hin : ∀ x ∈ accessBytes s.req.addr n, s.inWindow b x) :
    s.answers i b Response.done (flatWrite s.params f s.req.addr (s.req.putData n)) := by
  obtain ⟨u, hput, hu⟩ := h.putBytes_writes hk (bs := s.req.putData n) (by rwa [putData_length])
  exact ⟨u, by simp only [exec_of_putWidth hi, putN, hput, bind_ok, Res.finish], putBytes_frame hput, hu⟩

theorem Represents.exec_rdline (h : Represents s b f) {c : Cid} (hk : c.toNat < s.params.nCaches)
    (ha : s.inWindow b s.req.addr) :
    s.answers (.rdline c) b (Response.line (flatLine s.params f s.req.addr)) f := by
  obtain ⟨d, u, hr⟩ := readLine_completes h.inv hk s.req.addr
  obtain ⟨hu, hd, -⟩ := h.of_readLine ha hr
  rw [← h.flatLine_eq (readLine_inv h.inv hr).2 hd]
  exact ⟨u, by simp only [exec, execRdline, hr, bind_ok, Res.finish], (readLineN_frame hr).1, hu⟩

theorem Represents.exec_wrline (h : Represents s b f) {c : Cid} (hlen : s.req.lineIn.length = s.params.lineSize)
    (hhit : s.lookup c.toNat s.req.addr ≠ none) :
    s.answers (.wrline c) b Response.done (flatLineWrite s.params f s.req.addr s.req.lineIn) := by
  obtain ⟨w, hw⟩ := Option.ne_none_iff_exists'.1 hhit
  obtain ⟨u, hwrite⟩ := writeLine_completes h.inv hw s.req.lineIn
  exact ⟨u, by simp only [exec, execWrline, if_pos hlen, hwrite, bind_ok, Res.finish], (writeLine_frame hwrite).1,
    h.of_writeLine hlen hwrite⟩

/-- A request in the window, but for a WRLINE that misses, does to the block what it does to the flat memory the block
represents. -/
theorem Represents.exec_flat (h : Represents s b f) (hi : i.wellFormed s.params.nCaches = true)
    (hin : ∀ x ∈ touchedBytes i s.req, s.inWindow b x)
    (hline : ∀ c, i = .wrline c → s.req.lineIn.length = s.params.lineSize ∧ s.lookup c.toNat s.req.addr ≠ none) :
    s.answers i b (flatResponse s.params f i s.req) (flatNext s.params f i s.req) := by
  have hk := toNat_lt_of_wellFormed hi
  rcases instr_kinds i with ⟨n, hget⟩ | ⟨n, hput⟩ | ⟨c, rfl⟩ | ⟨c, rfl⟩
  · obtain ⟨hresp, hnext⟩ := flat_of_getWidth hget s.params f s.req
    rw [touchedBytes_of_width (.inl hget)] at hin
    rw [hresp, hnext]
    exact h.exec_get hget hk hin
  · obtain ⟨hresp, hnext⟩ := flat_of_putWidth hput s.params f s.req
    rw [touchedBytes_of_width (.inr hput)] at hin
    rw [hresp, hnext]
    exact h.exec_put hput hk hin
  · exact h.exec_rdline hk (hin _ List.mem_cons_self)
  · obtain ⟨hlen, hhit⟩ := hline c rfl
    exact h.exec_wrline hlen hhit

/-! ### The obligations on GET and PUT -/

/-- What the flat memory says of an answer in terms of VIEW and freedom from aliasing. -/
theorem State.answers.spec {r : Response} {g : Addr → Byte} (h : s.answers i b r g) :
    ∃ t, exec i s = .next t ∧ t.responses = s.responses ++ [r] ∧ AliasFree t b ∧
      ∀ x, s.inWindow b x → t.view x = g x := by
  obtain ⟨u, hexec, hframe, hu⟩ := h
  have ht := hu.of_respond r
  exact ⟨_, hexec, by rw [respond_responses, hframe.responses], ht.aliasFree,
    fun x hx => ht.view_eq (hframe.inWindow_iff.2 hx)⟩

/-- Settles O40: a well-formed block free of aliasing represents its VIEW, and a GET reads the memory represented. -/
theorem getReadsTheFlatMemory : Obligations.GetReadsTheFlatMemory := by
  intro s i n b hi hready ha hin
  exact ((ha.represents hready.inv).exec_get hi (toNat_lt_of_wellFormed hready.cache) hin).spec

/-- Settles O46: a well-formed block free of aliasing represents its VIEW, and a PUT writes the memory represented. -/
theorem putUpdatesTheFlatMemory : Obligations.PutUpdatesTheFlatMemory := by
  intro s i n b hi hready ha hin
  obtain ⟨t, hexec, -, hfree, hview⟩ :=
    ((ha.represents hready.inv).exec_put hi (toNat_lt_of_wellFormed hready.cache) hin).spec
  exact ⟨t, hexec, hfree, hview⟩

end

end Sys2Proof.Machine

/-! PROOFS. Runs of requests in the flat memory (spec/20_memory.md R63, R66; spec/60_exceptions.md R180, R184;
spec/70_reset_and_hazards.md R204, R206): by induction on the queue, a run behaves as the flat memory or goes wrong,
and it goes wrong only by a WRLINE that misses. -/

namespace Sys2Proof.Machine

section
variable {s t : State} {i : Instr} {b n : Nat} {f : Addr → Byte} {r : Request} {rs : List Request} {p : Params}

/-! ### Decoding -/

theorem selectRequest_cid {op : BitVec 4} {sz : BitVec 2} {c : Cid} (h : selectRequest op sz c = .ok i) :
    i.cid = c := by
  simp only [selectRequest] at h
  split at h <;> cases h <;> rfl

/-- A word that decodes names a cache of the block (R74, R79). -/
theorem wellFormed_of_decode {w : ReqWord} (h : decode n w = .ok i) : i.wellFormed n = true := by
  simp only [decode] at h
  split at h
  · cases h
  · split at h
    · cases h
    · rename_i hsel
      split at h
      · rename_i hlt
        cases h
        rw [Instr.wellFormed, selectRequest_cid hsel]
        exact decide_eq_true hlt
      · cases h

/-! ### Runs that go wrong -/

theorem run_succ_refused {e : Refusal} (h : step s = .refused e) :
    Sys2Proof.core.run (n + 1) s = .refused e := by
  have h' : Sys2Proof.core.step s = .refused e := h
  simp only [Host.Core.run, h']

/-- A block in the fault state goes wrong whatever follows (R180, R183). -/
theorem runVerdict_of_faulted (h : s.fault.valid = true) (n : Nat) : runVerdict n s = .wrong := by
  induction n with
  | zero => exact verdict_eq_wrong.2 (.inl ⟨s, rfl, h⟩)
  | succ n ih =>
    rcases fetch_cases s with ⟨-, hf⟩ | ⟨r, rest, hq, -⟩
    · have hidle : step s = .next s := by simp only [step, hf]
      rw [runVerdict, run_succ_next hidle]
      exact ih
    · have hrefused := step_of_faulted h (hq ▸ List.cons_ne_nil r rest)
      rw [runVerdict, run_succ_refused hrefused]
      exact verdict_eq_wrong.2 (.inr (.inr rfl))

/-- A WRLINE of a line not valid in its cache leaves the fault state (R141). -/
theorem exec_wrline_miss (h : Inv s) {c : Cid} (hk : c.toNat < s.params.nCaches)
    (hlen : s.req.lineIn.length = s.params.lineSize) (hmiss : s.lookup c.toNat s.req.addr = none) :
    ∃ t, exec (.wrline c) s = .next t ∧ t.fault.valid = true := by
  obtain ⟨cfg, cs, hl⟩ := h.locate_completes hk s.req.addr
  have hf : cs.find (cfg.tag s.params.lineSize s.req.addr) = none := by simpa only [State.lookup, hl] using hmiss
  exact ⟨_, by simp only [exec, execWrline, if_pos hlen, writeLine, hl, hf, bind_raised, Res.finish]; rfl, rfl⟩

/-! ### The run of a queue -/

theorem flatRequest_congr (hp : t.params = s.params) : t.flatRequest b r ↔ s.flatRequest b r := by
  simp only [State.flatRequest, State.inWindow, hp]

/-- A plain request is a request the flat memory answers, and no WRLINE. -/
theorem State.plainRequest.flat (h : s.plainRequest b r) :
    s.flatRequest b r ∧ ∀ c, decode s.params.nCaches r.word ≠ .ok (.wrline c) := by
  obtain ⟨i, hdec, hne, hin⟩ := h
  refine ⟨⟨i, hdec, hin, fun c hi => absurd hi (hne c)⟩, fun c hc => hne c ?_⟩
  exact Except.ok.inj (hdec.symm.trans hc)

/-- The end t of a run of the requests rs from s, in a block that represented f: no request is left, none has raised a
fault, and responses and memory are those of the flat memory. -/
structure RanFlat (s t : State) (b : Nat) (f : Addr → Byte) (rs : List Request) : Prop where
  queue      : t.queue = []
  fault      : t.fault.valid = false
  params     : t.params = s.params
  responses  : t.responses = s.responses ++ (flatRun s.params rs f).1
  represents : Represents t b (flatRun s.params rs f).2

theorem flatRun_cons (hdec : decode p.nCaches r.word = .ok i) :
    flatRun p (r :: rs) f = (flatResponse p f i r :: (flatRun p rs (flatNext p f i r)).1,
      (flatRun p rs (flatNext p f i r)).2) := by
  simp only [flatRun, hdec]

/-- The first request of a run, and then the rest. -/
theorem RanFlat.cons {u : State} (hdec : decode s.params.nCaches r.word = .ok i) (hp : u.params = s.params)
    (hresp : u.responses = s.responses ++ [flatResponse s.params f i r])
    (h : RanFlat u t b (flatNext s.params f i r) rs) : RanFlat s t b f (r :: rs) where
  queue := h.queue
  fault := h.fault
  params := h.params.trans hp
  responses := by
    rw [h.responses, hresp, flatRun_cons hdec, hp, List.append_assoc, List.singleton_append]
  represents := by
    rw [flatRun_cons hdec, ← hp]
    exact hp ▸ h.represents

/-- One step in the flat memory: the oldest request is answered as the flat memory answers it, or it is a WRLINE that
misses and leaves the fault state. -/
theorem Represents.step_flat (h : Represents s b f) (hclear : s.fault.valid = false) (hqueue : s.queue = r :: rs)
    (hdec : decode s.params.nCaches r.word = .ok i) (hin : ∀ x ∈ touchedBytes i r, s.inWindow b x)
    (hlen : ∀ c, i = .wrline c → r.lineIn.length = s.params.lineSize) :
    (∃ u, step s = .next u ∧ u.queue = rs ∧ u.fault.valid = false ∧ u.params = s.params ∧
      u.responses = s.responses ++ [flatResponse s.params f i r] ∧ Represents u b (flatNext s.params f i r)) ∨
    ∃ u c, step s = .next u ∧ u.fault.valid = true ∧ i = .wrline c := by
  have hstep : step s = exec i (s.accept r rs) := step_of_fetch_request (fetch_of_decode_ok hqueue hclear hdec)
  have hwf := wellFormed_of_decode hdec
  have h1 := h.of_accept r rs
  by_cases hmiss : ∃ c, i = .wrline c ∧ s.lookup c.toNat r.addr = none
  · obtain ⟨c, rfl, hmiss⟩ := hmiss
    obtain ⟨u, hexec, hfault⟩ := exec_wrline_miss h1.inv (toNat_lt_of_wellFormed hwf) (hlen c rfl) hmiss
    exact .inr ⟨u, c, hstep.trans hexec, hfault, rfl⟩
  · obtain ⟨u, hexec, hframe, hu⟩ := h1.exec_flat hwf hin
      fun c hc => ⟨hlen c hc, fun hnone => hmiss ⟨c, hc, hnone⟩⟩
    refine .inl ⟨_, hstep.trans hexec, hframe.queue, ?_, hframe.params, ?_, hu.of_respond _⟩
    · rw [respond_fault, hframe.fault]
      exact hclear
    · rw [respond_responses, hframe.responses]
      rfl

/-- A run of requests in the window behaves as the flat memory, or a WRLINE has made it go wrong (R63, R184). -/
theorem Represents.run_flat (h : Represents s b f) (hclear : s.fault.valid = false) (hqueue : s.queue = rs)
    (hrs : ∀ r ∈ rs, s.flatRequest b r) :
    (∃ t, Sys2Proof.core.run rs.length s = .next t ∧ RanFlat s t b f rs) ∨
      (runVerdict rs.length s = .wrong ∧ ∃ r ∈ rs, ∃ c, decode s.params.nCaches r.word = .ok (.wrline c)) := by
  induction rs generalizing s f with
  | nil => exact .inl ⟨s, rfl, hqueue, hclear, rfl, (List.append_nil _).symm, h⟩
  | cons r rs ih =>
    obtain ⟨⟨i, hdec, hin, hlen⟩, hrest⟩ := List.forall_mem_cons.1 hrs
    rw [List.length_cons, runVerdict]
    rcases h.step_flat hclear hqueue hdec hin hlen with
      ⟨u, hstep, hqueue', hclear', hp, hresp, hu⟩ | ⟨u, c, hstep, hfault, rfl⟩ <;> rw [run_succ_next hstep]
    · rcases ih hu hclear' hqueue' fun r' hr' => (flatRequest_congr hp).2 (hrest r' hr') with
        ⟨t, hrun, ht⟩ | ⟨hwrong, r', hr', c, hc⟩
      · exact .inl ⟨t, hrun, ht.cons hdec hp hresp⟩
      · exact .inr ⟨hwrong, r', List.mem_cons_of_mem r hr', c, hp ▸ hc⟩
    · exact .inr ⟨runVerdict_of_faulted hfault rs.length, r, List.mem_cons_self, c, hdec⟩

theorem RanFlat.view_eq (h : RanFlat s t b f rs) {x : Addr} (hx : s.inWindow b x) :
    t.view x = (flatRun s.params rs f).2 x :=
  h.represents.view_eq (by rwa [State.inWindow, h.params])

theorem RanFlat.verdict_well (h : RanFlat s t b f rs) : verdict (.next t) = .well := by
  simp [verdict, h.fault, h.queue]

/-! ### The obligations on runs -/

/-- A run of plain requests behaves as the flat memory VIEW is (R63): no WRLINE can make it go wrong. -/
theorem AliasFree.run_plain (ha : AliasFree s b) (h : Inv s) (hclear : s.fault.valid = false)
    (hplain : ∀ r ∈ s.queue, s.plainRequest b r) :
    ∃ t, Sys2Proof.core.run s.queue.length s = .next t ∧ RanFlat s t b s.view s.queue := by
  refine ((ha.represents h).run_flat hclear rfl fun r hr => (hplain r hr).flat.1).resolve_right ?_
  rintro ⟨-, r, hr, c, hc⟩
  exact (hplain r hr).flat.2 c hc

/-- Settles O52, by the run of plain requests. -/
theorem runOfRequestsIsAFlatMemory : Obligations.RunOfRequestsIsAFlatMemory := by
  intro s b h hclear ha hplain
  obtain ⟨t, hrun, ht⟩ := ha.run_plain h hclear hplain
  exact ⟨t, hrun, ht.queue, ht.represents.inv, ht.represents.aliasFree, ht.responses, fun x hx => ht.view_eq hx⟩

/-- Settles O58: a run that has not gone wrong behaves as the flat memory (`Represents.run_flat`). -/
theorem runWithLineWritesIsAFlatMemory : Obligations.RunWithLineWritesIsAFlatMemory := by
  intro s b h hclear ha hflat hright
  obtain ⟨t, hrun, ht⟩ := ((ha.represents h).run_flat hclear rfl hflat).resolve_right fun hwrong => hright hwrong.1
  exact ⟨t, hrun, ht.verdict_well, ht.represents.inv, ht.represents.aliasFree, ht.responses, fun x hx => ht.view_eq hx⟩

end

end Sys2Proof.Machine

/-! PROOFS. A store is seen by the next fetch (spec/20_memory.md R66; spec/70_reset_and_hazards.md R204): a flat
memory reads back the bytes written to it, as the low bits of the value stored. -/

namespace Sys2Proof.Machine

section
variable {p : Params} {f : Addr → Byte} {a x : Addr}

/-! ### Reading back from the flat memory -/

/-- An access of less than 2^64 bytes does not come back to the address before it (R59). -/
theorem notMem_accessBytes_succ {n : Nat} (hn : n < 2 ^ 64) (a : Addr) : a ∉ accessBytes (a + 1) n := by
  intro hmem
  obtain ⟨j, hj, heq⟩ := List.mem_map.1 hmem
  have hlt := List.mem_range.1 hj
  have hnum := congrArg BitVec.toNat heq
  simp only [byteAddr, BitVec.toNat_add, BitVec.toNat_ofNat, show (1 : Addr).toNat = 1 from rfl] at hnum
  omega

theorem flatWrite_other {bs : List Byte} (hx : x ∉ accessBytes a bs.length) : flatWrite p f a bs x = f x := by
  induction bs generalizing a f with
  | nil => rfl
  | cons v bs ih =>
    rw [List.length_cons, accessBytes_succ, List.mem_cons, not_or] at hx
    obtain ⟨hxa, hrest⟩ := hx
    rw [flatWrite, ih hrest]
    cases writeHandler p a with
    | some n => rfl
    | none => exact if_neg hxa

/-- The bytes of a PUT are read back where no write handler takes one (R63). -/
theorem flatWrite_readBack {bs : List Byte} (hlen : bs.length ≤ 2 ^ 64)
    (hdev : ∀ x ∈ accessBytes a bs.length, writeHandler p x = none) :
    (accessBytes a bs.length).map (flatWrite p f a bs) = bs := by
  induction bs generalizing a f with
  | nil => rfl
  | cons v bs ih =>
    rw [List.length_cons, accessBytes_succ] at hdev ⊢
    obtain ⟨ha, hrest⟩ := List.forall_mem_cons.1 hdev
    rw [List.length_cons] at hlen
    simp only [flatWrite, ha, List.map_cons]
    rw [flatWrite_other (notMem_accessBytes_succ hlen a), if_pos rfl, ih (by omega) hrest]

/-- The four bytes a PUT.W stores are the low 32 bits of WDATA (R55, R76, R77). -/
theorem littleEndian_putData_four (r : Request) :
    littleEndian (r.putData 4) = (r.wdata.setWidth 32).setWidth 64 := by
  have hbytes : r.putData 4 = [r.putByte 0, r.putByte 1, r.putByte 2, r.putByte 3] := rfl
  rw [hbytes]
  ext i hi
  simp only [littleEndian, Request.putByte, Nat.mul_zero, Nat.mul_one, Nat.reduceMul, BitVec.ofNat_eq_ofNat,
    BitVec.zero_shiftLeft, BitVec.or_zero, BitVec.getElem_or, BitVec.getElem_setWidth, BitVec.getLsbD_extractLsb',
    Nat.zero_add, BitVec.getElem_shiftLeft, BitVec.getLsbD_setWidth]
  grind

/-! ### Requests as the issuer makes them -/

/-- The word of a request that names a cache of the block decodes to it (R79, R81). -/
theorem decode_encode {n : Nat} {i : Instr} (h : i.wellFormed n = true) : decode n (encode i) = .ok i := by
  obtain ⟨hcid, hsz, hop, hrsvd⟩ : Laws.EncodedFields.Statement i := by
    cases i <;> exact Laws.encodedFields_of_parts ..
  have hsel : selectRequest i.opBits i.szBits i.cid = .ok i := by cases i <;> rfl
  simp only [decode, hcid, hsz, hop, hrsvd, hsel, if_pos (toNat_lt_of_wellFormed h)]
  rfl

/-- A GET.W of the address of a PUT.W reads the low 32 bits of the value put, where no write handler takes a byte. -/
theorem flatRead_flatWrite_word (r : Request) (hdev : ∀ x ∈ accessBytes a 4, writeHandler p x = none) :
    flatRead (flatWrite p f a (r.putData 4)) a 4 = (r.wdata.setWidth 32).setWidth 64 := by
  have hlen := putData_length r 4
  have hread : (accessBytes a (r.putData 4).length).map (flatWrite p f a (r.putData 4)) = r.putData 4 :=
    flatWrite_readBack (by omega) (by rwa [hlen])
  rw [hlen] at hread
  rw [flatRead, hread, littleEndian_putData_four]

/-- The responses of a flat memory to a PUT.W and a GET.W of the same address (R63). -/
theorem flatRun_putW_getW {kd ki : Cid} {put get : Request} (hput : decode p.nCaches put.word = .ok (.putW kd))
    (hget : decode p.nCaches get.word = .ok (.getW ki)) (haddr : get.addr = put.addr)
    (hdev : ∀ x ∈ accessBytes put.addr 4, writeHandler p x = none) :
    (flatRun p [put, get] f).1 = [Response.done, Response.read ((put.wdata.setWidth 32).setWidth 64)] := by
  rw [flatRun_cons hput, flatRun_cons hget, ← flatRead_flatWrite_word (f := f) put hdev]
  simp only [flatResponse, flatNext, flatRun, haddr]

/-- Settles O51: the two requests are a run of plain requests, and the flat memory reads back what was written. -/
theorem storeIsSeenByTheNextFetch : Obligations.StoreIsSeenByTheNextFetch := by
  intro s kd ki a v b h hclear hkd hki ha hin hqueue
  have hput : decode s.params.nCaches (Request.make (.putW kd) a v []).word = .ok (.putW kd) :=
    decode_encode (decide_eq_true hkd)
  have hget : decode s.params.nCaches (Request.make (.getW ki) a 0 []).word = .ok (.getW ki) :=
    decode_encode (decide_eq_true hki)
  have hwindow : ∀ x ∈ accessBytes a 4, s.inWindow b x := fun x hx => (hin x hx).1
  obtain ⟨t, hrun, ht⟩ := ha.run_plain h hclear fun r hr => by
    rw [hqueue] at hr
    simp only [List.mem_cons, List.not_mem_nil, or_false] at hr
    rcases hr with rfl | rfl
    · exact ⟨_, hput, nofun, hwindow⟩
    · exact ⟨_, hget, nofun, hwindow⟩
  rw [hqueue] at hrun ht
  refine ⟨t, hrun, ?_⟩
  rw [ht.responses, flatRun_putW_getW hput hget rfl fun x hx => (hin x hx).2]
  rfl

end

end Sys2Proof.Machine

/-! PROOFS. Decoding and encoding are inverse to each other (spec/30_encoding.md R71 to R74, R79, R81): when a word
decodes in terms of its four fields, the words that do not, and the opcode table under its mask. -/

namespace Sys2Proof.Machine

section
variable {n : Nat} {w : ReqWord} {i : Instr} {op : BitVec 4} {sz : BitVec 2} {c : Cid}

/-! ### Selecting a request by OP and SZ (R72, R73) -/

/-- OP, SZ and CID select the one request that has them. -/
theorem selectRequest_eq_ok_iff :
    selectRequest op sz c = .ok i ↔ i.cid = c ∧ i.opBits = op ∧ i.szBits = sz := by
  constructor
  · intro h
    refine ⟨selectRequest_cid h, ?_⟩
    have hsz := sz.isLt
    simp only [selectRequest] at h
    split at h <;> cases h <;> simp only [Instr.opBits, Instr.szBits, ← BitVec.toNat_inj] <;> grind
  · rintro ⟨rfl, rfl, rfl⟩
    cases i <;> rfl

/-- OP and SZ select no request exactly when OP is above 3 or a line request has a size. -/
theorem selectRequest_eq_error_iff :
    (∃ e, selectRequest op sz c = .error e) ↔
      3 < op.toNat ∨ ((op.toNat = 2 ∨ op.toNat = 3) ∧ sz ≠ 0) := by
  have hsz : sz ≠ 0 ↔ sz.toNat ≠ 0 := by simp [BitVec.toNat_eq]
  simp only [selectRequest, hsz]
  split <;> grind

/-! ### Decoding by fields (R79) -/

theorem decode_of_rsvd (h : rsvdField w ≠ 0) : decode n w = .error .reservedBits := if_pos h

theorem decode_of_select_error {e : DecodeError} (hrsvd : rsvdField w = 0)
    (hsel : selectRequest (opField w) (szField w) (cidField w) = .error e) : decode n w = .error e := by
  simp only [decode, hrsvd, hsel, ne_eq, not_true_eq_false, if_false]

theorem decode_of_select_ok (hrsvd : rsvdField w = 0)
    (hsel : selectRequest (opField w) (szField w) (cidField w) = .ok i) :
    decode n w = if (cidField w).toNat < n then .ok i else .error .noSuchCache := by
  simp only [decode, hrsvd, hsel, ne_eq, not_true_eq_false, if_false]

/-- A word that decodes has RSVD 0, and its OP and SZ select the request on the cache of its CID. -/
theorem fields_of_decode (h : decode n w = .ok i) :
    rsvdField w = 0 ∧ selectRequest (opField w) (szField w) (cidField w) = .ok i := by
  by_cases hrsvd : rsvdField w = 0
  · cases hsel : selectRequest (opField w) (szField w) (cidField w) with
    | error e => cases (decode_of_select_error hrsvd hsel).symm.trans h
    | ok j =>
      rw [decode_of_select_ok hrsvd hsel] at h
      split at h <;> cases h
      exact ⟨hrsvd, rfl⟩
  · cases (decode_of_rsvd hrsvd).symm.trans h

/-- The reserved words of R79 in a block of n caches. -/
def reservedWord (n : Nat) (w : ReqWord) : Prop :=
  rsvdField w ≠ 0 ∨ 3 < (opField w).toNat ∨
    (((opField w).toNat = 2 ∨ (opField w).toNat = 3) ∧ szField w ≠ 0) ∨ n ≤ (cidField w).toNat

/-- The reserved words are those that decode to no request. -/
theorem decode_eq_error_iff : (∃ e, decode n w = .error e) ↔ reservedWord n w := by
  have hselect := selectRequest_eq_error_iff (op := opField w) (sz := szField w) (c := cidField w)
  rw [reservedWord, ← or_assoc (a := 3 < _), ← hselect]
  by_cases hrsvd : rsvdField w = 0
  · cases hsel : selectRequest (opField w) (szField w) (cidField w) with
    | error e => exact iff_of_true ⟨e, decode_of_select_error hrsvd hsel⟩ (.inr (.inl ⟨e, rfl⟩))
    | ok j =>
      rw [decode_of_select_ok hrsvd hsel]
      split <;> simp [hrsvd] <;> omega
  · exact iff_of_true ⟨_, decode_of_rsvd hrsvd⟩ (.inl hrsvd)

/-! ### The word of a request (R71) -/

/-- A word is its four fields, from the most significant bit down. -/
theorem append_fields (w : ReqWord) : rsvdField w ++ cidField w ++ szField w ++ opField w = w := by
  ext j hj
  simp only [rsvdField, cidField, szField, opField, BitVec.getElem_append, BitVec.getElem_extractLsb']
  grind

/-- A word with RSVD 0 and the fields of a request is the request's word. -/
theorem encode_of_fields (hrsvd : rsvdField w = 0) (hcid : i.cid = cidField w) (hop : i.opBits = opField w)
    (hsz : i.szBits = szField w) : encode i = w := by
  rw [encode, hcid, hop, hsz, ← hrsvd]
  exact append_fields w

/-- A word that decodes is the word of the request it decodes to. -/
theorem encode_of_decode (h : decode n w = .ok i) : encode i = w := by
  obtain ⟨hrsvd, hsel⟩ := fields_of_decode h
  obtain ⟨hcid, hop, hsz⟩ := selectRequest_eq_ok_iff.1 hsel
  exact encode_of_fields hrsvd hcid hop hsz

/-- Decoding inverts encoding on the requests that are well-formed for the block. -/
theorem decode_eq_ok_iff_encode : decode n w = .ok i ↔ i.wellFormed n = true ∧ encode i = w := by
  constructor
  · exact fun h => ⟨wellFormed_of_decode h, encode_of_decode h⟩
  · rintro ⟨hwf, rfl⟩
    exact decode_encode hwf

/-! ### The opcode table (R81) -/

/-- The rows of R81: `match`, and the request of the row on a cache. -/
def opcodeRows : List (ReqWord × (Cid → Instr)) :=
  [(0x00000000, .getB), (0x00000010, .getH), (0x00000020, .getW), (0x00000030, .getD),
    (0x00000001, .putB), (0x00000011, .putH), (0x00000021, .putW), (0x00000031, .putD),
    (0x00000002, .rdline), (0x00000003, .wrline)]

/-- Every request stands in a row. -/
theorem exists_opcodeRow (i : Instr) : ∃ row ∈ opcodeRows, row.2 i.cid = i := by
  cases i <;> simp [opcodeRows, Instr.cid]

theorem opcodeRow_cid : ∀ row ∈ opcodeRows, ∀ k : Cid, (row.2 k).cid = k := by decide

/-- `match` leaves CID free: it has no bit outside the mask. -/
theorem opcodeRow_masked : ∀ row ∈ opcodeRows, row.1 &&& 0xFFFFFC3F = row.1 := by decide

/-- The word of a row for cache k is `match | (k << 6)`. -/
theorem encode_opcodeRow : ∀ row ∈ opcodeRows, ∀ k : Cid, encode (row.2 k) = row.1 ||| (k.setWidth 32 <<< 6) := by
  decide

/-- The mask clears CID and nothing else. -/
theorem cid_masked : ∀ k : Cid, (k.setWidth 32 <<< 6) &&& (0xFFFFFC3F : ReqWord) = 0 := by decide

theorem masked_or_cid (w : ReqWord) : (w &&& 0xFFFFFC3F) ||| ((cidField w).setWidth 32 <<< 6) = w := by
  ext j hj
  interval_cases j <;> simp [cidField]

theorem cidField_encode (i : Instr) : cidField (encode i) = i.cid := (Laws.encodedFields_of_parts ..).1

/-- A word is the word of a row's request exactly when it is the row's `match` under the mask and its CID is the
request's. -/
theorem encode_opcodeRow_eq_iff {row : ReqWord × (Cid → Instr)} (hrow : row ∈ opcodeRows) {k : Cid} :
    encode (row.2 k) = w ↔ w &&& 0xFFFFFC3F = row.1 ∧ cidField w = k := by
  constructor
  · rintro rfl
    refine ⟨?_, (cidField_encode _).trans (opcodeRow_cid row hrow k)⟩
    rw [encode_opcodeRow row hrow, BitVec.and_or_distrib_right, opcodeRow_masked row hrow, cid_masked]
    exact BitVec.or_zero
  · rintro ⟨hmask, rfl⟩
    rw [encode_opcodeRow row hrow, ← hmask]
    exact masked_or_cid w

/-- A word decodes to the request of the row it matches, on the cache its CID names. -/
theorem decode_eq_ok_iff_opcodeRow :
    decode n w = .ok i ↔
      ∃ row ∈ opcodeRows, w &&& 0xFFFFFC3F = row.1 ∧ (cidField w).toNat < n ∧ i = row.2 (cidField w) := by
  rw [decode_eq_ok_iff_encode]
  constructor
  · rintro ⟨hwf, henc⟩
    obtain ⟨row, hrow, hi⟩ := exists_opcodeRow i
    obtain ⟨hmask, hcid⟩ := (encode_opcodeRow_eq_iff hrow).1 (hi ▸ henc)
    rw [hcid]
    exact ⟨row, hrow, hmask, toNat_lt_of_wellFormed hwf, hi.symm⟩
  · rintro ⟨row, hrow, hmask, hlt, rfl⟩
    refine ⟨?_, (encode_opcodeRow_eq_iff hrow).2 ⟨hmask, rfl⟩⟩
    rw [Instr.wellFormed, opcodeRow_cid row hrow]
    exact decide_eq_true hlt

end

/-! ### The obligations on the encoding -/

/-- Settles O1: the fields of the encoded word are the request's own, and they select it. -/
theorem decodeOfEncodeIsTheRequest : Obligations.DecodeOfEncodeIsTheRequest :=
  fun _ _ hwf => decode_encode hwf

/-- Settles O2: the fields of a word that decodes are those of the request, and a word is its four fields. -/
theorem decodedWordIsItsEncoding : Obligations.DecodedWordIsItsEncoding :=
  fun _ _ _ hdecode => decode_eq_ok_iff_encode.1 hdecode

/-- Settles O3: the rows of the statement are `opcodeRows`. -/
theorem opcodeTableDecides : Obligations.OpcodeTableDecides :=
  ⟨fun _ _ _ => decode_eq_ok_iff_opcodeRow, encode_opcodeRow⟩

/-- Settles O4: the five legal words are the words of their requests, and each reserved word fails its own check. -/
theorem writtenOutWordsDecode : Obligations.WrittenOutWordsDecode :=
  ⟨decode_encode (i := .getW 0) rfl, decode_encode (i := .getB 1) rfl, decode_encode (i := .putD 1) rfl,
    decode_encode (i := .rdline 2) rfl, decode_encode (i := .wrline 1) rfl, rfl, rfl, rfl, rfl⟩

/-- Settles O53: the word of R83 is what `encode` computes for the request on its cache. -/
theorem pseudoRequestsAreTheirWords : Obligations.PseudoRequestsAreTheirWords :=
  fun _ _ => ⟨rfl, rfl, rfl, rfl, rfl, rfl, rfl, rfl, rfl, rfl, rfl, rfl⟩

end Sys2Proof.Machine

/-! PROOFS. The requests the block does not perform: reserved words (spec/30_encoding.md R79; spec/60_exceptions.md
R180, R184, R186) and a LINE_IN of the wrong length (spec/30_encoding.md R70). -/

namespace Sys2Proof.Machine

section
variable {s : State} {r : Request} {rest : List Request}

/-! ### The step on a reserved word -/

/-- Without a fault, a reserved word is taken and raises ILLEGAL_REQUEST. -/
theorem step_of_reservedWord (hqueue : s.queue = r :: rest) (hfault : s.fault.valid = false)
    (hres : reservedWord s.params.nCaches r.word) : step s = .next (s.accept r rest).illegalRequest := by
  obtain ⟨e, hdecode⟩ := decode_eq_error_iff.2 hres
  have hfetch : fetch s = .illegal (s.accept r rest) := by simp [fetch, hqueue, hfault, hdecode]
  simp only [step, hfetch]

/-- A reserved word whose CID names a cache: the fault records the cache and its level. -/
theorem illegalRequest_of_named {c : CacheCfg}
    (hc : s.params.caches[(cidField s.req.word).toNat]? = some c) :
    s.illegalRequest = (s.raiseFault .illegalRequest (some (cidField s.req.word).toNat) (some c.level)
      (some s.req.addr)).respond Response.faulted := by
  simp [State.illegalRequest, lt_nCaches hc, State.levelOf, hc]

/-- A reserved word whose CID names no cache: the fault records the address alone. -/
theorem illegalRequest_of_unnamed (hcid : s.params.nCaches ≤ (cidField s.req.word).toNat) :
    s.illegalRequest =
      (s.raiseFault .illegalRequest none none (some s.req.addr)).respond Response.faulted := by
  simp [State.illegalRequest, Nat.not_lt.2 hcid]

/-- Without a fault, a word that is not reserved is performed as the request that has its fields. -/
theorem step_of_not_reservedWord (hqueue : s.queue = r :: rest) (hfault : s.fault.valid = false)
    (hres : ¬ reservedWord s.params.nCaches r.word) :
    ∃ i : Instr, i.cid = cidField r.word ∧ i.opBits = opField r.word ∧ i.szBits = szField r.word ∧
      step s = exec i (s.accept r rest) := by
  cases hdecode : decode s.params.nCaches r.word with
  | error e => exact absurd (decode_eq_error_iff.1 ⟨e, hdecode⟩) hres
  | ok i =>
    obtain ⟨hcid, hop, hsz⟩ := selectRequest_eq_ok_iff.1 (fields_of_decode hdecode).2
    exact ⟨i, hcid, hop, hsz, step_of_fetch_request (fetch_of_decode_ok hqueue hfault hdecode)⟩

end

/-! ### The obligations on requests that are not performed -/

/-- Settles O6: `reserved` of the statement is `reservedWord`, and the two fault clauses are the two forms of
`illegalRequest` in the state that took the request. -/
theorem reservedWordRaisesIllegalRequest : Obligations.ReservedWordRaisesIllegalRequest := by
  intro s r rest hqueue hfault
  refine ⟨fun hres c hc => ?_, fun hres hcid => ?_, step_of_not_reservedWord hqueue hfault⟩
  · rw [step_of_reservedWord hqueue hfault hres, illegalRequest_of_named (s := s.accept r rest) hc]
    rfl
  · rw [step_of_reservedWord hqueue hfault hres, illegalRequest_of_unnamed (s := s.accept r rest) hcid]
    rfl

/-- Settles O49: WRLINE checks the length of LINE_IN before it does anything. -/
theorem malformedLineInIsRefused : Obligations.MalformedLineInIsRefused :=
  fun _ _ hlen => if_neg hlen

end Sys2Proof.Machine

/-! PROOFS. The checks of construction one by one and the loop that runs them (spec/40_geometry.md R100 to R106;
spec/60_exceptions.md R181, R185): which fault is reported, and what the caches that passed are left as. -/

namespace Sys2Proof.Machine

/-! ### The positions of a list before one -/

section
variable {α : Type} {xs : List α} {k : Nat}

theorem split_at_getElem? {x : α} (h : xs[k]? = some x) : xs = xs.take k ++ x :: xs.drop (k + 1) := by
  obtain ⟨hk, hget⟩ := List.getElem?_eq_some_iff.1 h
  rw [← hget, ← List.drop_eq_getElem_cons hk, List.take_append_drop]

/-- What is said of every position below k is said of every member of the first k. -/
theorem forall_mem_take {P : α → Prop} (h : ∀ j < k, ∀ x ∈ xs[j]?, P x) :
    ∀ x ∈ xs.take k, P x := by
  intro x hx
  obtain ⟨j, hj⟩ := List.mem_iff_getElem?.1 hx
  obtain ⟨hlt, hget⟩ := Option.ite_none_right_eq_some.1 (List.getElem?_take ▸ hj)
  exact h j hlt x hget

end

section
variable {p : Params} {k : Nat} {c : CacheCfg}

/-! ### The checks of one cache (R100, R101, R102, R105) -/

theorem cacheFault_of_level (h1 : c.level ≠ 1) (h2 : c.level ≠ 2) :
    cacheFault p k c = some (.raised .unsupportedLevel (some k) (some c.level) none) := if_pos ⟨h1, h2⟩

theorem cacheFault_of_config (hlevel : c.level = 1 ∨ c.level = 2)
    (hbad : geometryLegal p c = false ∨ topologyLegal p c = false) :
    cacheFault p k c = some (.raised .badConfig (some k) (some c.level) none) := by
  rw [cacheFault, if_neg (by omega)]
  rcases hbad with hgeometry | htopology
  · exact if_pos hgeometry
  · rw [if_pos htopology, ite_self]

/-- The checks of level, geometry and topology pass for a legal record; what is left is the allocation (R105). -/
theorem cacheFault_of_legal (h : cacheLegal p c) :
    cacheFault p k c =
      if p.allocFails then some (.raised .allocFailure (some k) (some c.level) none) else none := by
  obtain ⟨hlevel, hgeometry, htopology⟩ := h
  rw [cacheFault, if_neg (by omega), if_neg (by simp [hgeometry]), if_neg (by simp [htopology])]

/-! ### The device ranges (R104) -/

section
variable {earlier ds rest : List DeviceRange} {d : DeviceRange}

theorem deviceFault_cons_bad (h : d.stop ≤ d.start ∨ ∃ e ∈ earlier, rangesOverlap e d = true) :
    deviceFault earlier (d :: rest) = some (.raised .badConfig none none (some d.start)) := by
  rw [deviceFault]
  rcases h with hempty | hoverlap
  · exact if_pos (BitVec.not_lt.2 hempty)
  · rw [if_pos (List.any_eq_true.2 hoverlap), ite_self]

theorem deviceFault_cons_good (hne : d.start < d.stop) (hdisj : ∀ e ∈ earlier, rangesOverlap e d = false) :
    deviceFault earlier (d :: rest) = deviceFault (earlier ++ [d]) rest := by
  rw [deviceFault, if_neg (not_not.2 hne), if_neg (by simpa using hdisj)]

/-- The walk passes over ranges that are non-empty and disjoint. -/
theorem deviceFault_append (hne : ∀ d ∈ ds, d.start < d.stop)
    (hdisj : (earlier ++ ds).Pairwise fun e d => rangesOverlap e d = false) :
    deviceFault earlier (ds ++ rest) = deviceFault (earlier ++ ds) rest := by
  induction ds generalizing earlier with
  | nil => rw [List.nil_append, List.append_nil]
  | cons d ds ih =>
    obtain ⟨hd, hds⟩ := List.forall_mem_cons.1 hne
    have hearlier : ∀ e ∈ earlier, rangesOverlap e d = false := fun e he =>
      (List.pairwise_append.1 hdisj).2.2 e he d List.mem_cons_self
    rw [List.append_cons] at hdisj ⊢
    rw [List.cons_append, deviceFault_cons_good hd hearlier, ih hds hdisj]

/-- Legal device ranges in front of others are passed over (R104). -/
theorem deviceFault_of_devicesLegal (h : devicesLegal { p with devices := ds }) :
    deviceFault [] (ds ++ rest) = deviceFault ds rest :=
  deviceFault_append h.1 (h.2.imp fun hdisj => rangesOverlap_eq_false.2 hdisj)

end

theorem tailFault_of_storeIllegal (h : storeLegal p = false) :
    tailFault p = some (.raised .badConfig none none none) := if_pos h

theorem tailFault_of_storeLegal (h : storeLegal p = true) : tailFault p = deviceFault [] p.devices :=
  if_neg (by simp [h])

/-- The checks after the caches pass exactly for a legal store size and legal device ranges. -/
theorem tailFault_eq_none_iff : tailFault p = none ↔ storeLegal p = true ∧ devicesLegal p := by
  refine ⟨tailFault_none, fun ⟨hstore, hdevices⟩ => ?_⟩
  have hwalk := deviceFault_of_devicesLegal (rest := []) hdevices
  rw [List.append_nil] at hwalk
  rw [tailFault_of_storeLegal hstore, hwalk, deviceFault]

/-! ### The loop over the caches (R100) -/

section
variable {cs ds : List CacheCfg}

/-- The loop allocates and registers the caches in front that pass, then goes on with the others. -/
theorem buildFrom_append (h : ∀ c ∈ cs, cacheLegal p c ∧ p.allocFails = false) :
    buildFrom p k (cs ++ ds) =
      { arrays := cs.map (resetArray p.lineSize) ++ (buildFrom p (k + cs.length) ds).arrays
        reg := List.range' k cs.length ++ (buildFrom p (k + cs.length) ds).reg
        fault := (buildFrom p (k + cs.length) ds).fault } := by
  induction cs generalizing k with
  | nil => rfl
  | cons c cs ih =>
    obtain ⟨⟨hlegal, halloc⟩, hrest⟩ := List.forall_mem_cons.1 h
    have hpass : cacheFault p k c = none := by rw [cacheFault_of_legal hlegal, halloc]; rfl
    have hlen : k + (cs.length + 1) = k + 1 + cs.length := by omega
    simp [buildFrom, hpass, ih hrest, List.range'_succ, hlen]

theorem buildFrom_cons_fault {f : FaultReg} (h : cacheFault p k c = some f) :
    (buildFrom p k (c :: cs)).fault = f := by
  rw [buildFrom, h]

end

/-- The first cache that fails a check is the one FAULT reports. -/
theorem construct_fault_of_cacheFault {mem0 : List Host.Cell} {f : FaultReg} (hc : p.caches[k]? = some c)
    (hbefore : ∀ d ∈ p.caches.take k, cacheLegal p d ∧ p.allocFails = false)
    (hf : cacheFault p k c = some f) : (State.construct p mem0).fault = f := by
  obtain ⟨hk, -⟩ := List.getElem?_eq_some_iff.1 hc
  have hlen : 0 + (p.caches.take k).length = k := by rw [Nat.zero_add, List.length_take_of_le hk.le]
  change (buildFrom p 0 p.caches).fault = f
  rw [split_at_getElem? hc, buildFrom_append hbefore, hlen]
  exact buildFrom_cons_fault hf

/-- With every cache passed, FAULT is what the store size and the device ranges leave. -/
theorem construct_fault_of_caches {mem0 : List Host.Cell}
    (h : ∀ c ∈ p.caches, cacheLegal p c ∧ p.allocFails = false) :
    (State.construct p mem0).fault = (tailFault p).getD .clear := by
  have hloop := congrArg Built.fault (buildFrom_append (k := 0) (ds := []) h)
  rwa [List.append_nil] at hloop

end

/-! ### The obligations on construction -/

/-- Settles O11: the loop reaches cache k, whose checks raise in the order of `cacheFault`. -/
theorem firstFailingCacheIsReported : Obligations.FirstFailingCacheIsReported := by
  intro p mem0 k c hc hlegal halloc
  have hbefore : ∀ d ∈ p.caches.take k, cacheLegal p d ∧ p.allocFails = false :=
    forall_mem_take fun j hj d hd => ⟨hlegal j hj d hd, halloc (by omega)⟩
  refine ⟨fun h1 h2 => ?_, fun hlevel hbad => ?_, fun hpass hfails => ?_⟩
  · exact construct_fault_of_cacheFault hc hbefore (cacheFault_of_level h1 h2)
  · exact construct_fault_of_cacheFault hc hbefore (cacheFault_of_config hlevel hbad)
  · exact construct_fault_of_cacheFault hc hbefore (by rw [cacheFault_of_legal hpass, if_pos hfails])

/-- Settles O12: the caches passed, FAULT is that of `tailFault`, whose walk passes over the first j ranges. -/
theorem storeAndDeviceChecksAreReported : Obligations.StoreAndDeviceChecksAreReported := by
  intro p mem0 hlegal halloc
  rw [construct_fault_of_caches fun c hc => ⟨hlegal c hc, halloc⟩]
  refine ⟨fun hstore => by rw [tailFault_of_storeIllegal hstore]; rfl, fun hstore j d hd hbefore hbad => ?_⟩
  have hfault : deviceFault (p.devices.take j) (d :: p.devices.drop (j + 1)) =
      some (.raised .badConfig none none (some d.start)) :=
    deviceFault_cons_bad (by simpa [rangesOverlap] using hbad)
  rw [tailFault_of_storeLegal hstore, split_at_getElem? hd, deviceFault_of_devicesLegal hbefore, hfault]
  rfl

/-- Settles O10: a construction without a fault has passed every check (O11 at cache 0 rules out ALLOC_FAILS), and
legal parameters fail none. -/
theorem constructionFaultsExactlyWhenIllegal : Obligations.ConstructionFaultsExactlyWhenIllegal := by
  intro p mem0
  constructor
  · intro hclear
    obtain ⟨hlegal, -⟩ := construct_clear hclear
    refine ⟨hlegal, fun hfails => List.eq_nil_iff_forall_not_mem.2 fun _ hmem => ?_⟩
    have hpos := List.length_pos_of_mem hmem
    obtain ⟨-, -, halloc⟩ := firstFailingCacheIsReported p mem0 0 _ (List.getElem?_eq_getElem hpos)
      (fun j hj => absurd hj (Nat.not_lt_zero j)) (fun h => absurd h (Nat.not_lt_zero 0))
    rw [halloc (hlegal.1 _ (List.getElem_mem hpos)) hfails] at hclear
    cases hclear
  · rintro ⟨⟨hcaches, htail⟩, halloc⟩
    have hpass : ∀ c ∈ p.caches, cacheLegal p c ∧ p.allocFails = false := fun c hc =>
      ⟨hcaches c hc, Bool.eq_false_iff.2 fun hfails => List.ne_nil_of_mem hc (halloc hfails)⟩
    rw [construct_fault_of_caches hpass, tailFault_eq_none_iff.2 htail]
    rfl

/-- Settles O13: caches 0 to k are the ones in front that the loop allocates and registers. -/
theorem passedCacheIsAllocatedAtReset : Obligations.PassedCacheIsAllocatedAtReset := by
  intro p mem0 k c hc hlegal halloc
  obtain ⟨hk, -⟩ := List.getElem?_eq_some_iff.1 hc
  have hlen : (p.caches.take (k + 1)).length = k + 1 := List.length_take_of_le hk
  have hbuild := buildFrom_append (k := 0) (ds := p.caches.drop (k + 1)) (forall_mem_take (k := k + 1)
    fun j hj d hd => ⟨hlegal j (Nat.le_of_lt_succ hj) d hd, halloc⟩)
  rw [List.take_append_drop, hlen] at hbuild
  have hreg := congrArg (fun b : Built => b.reg[k]?) hbuild
  have harray := congrArg (fun b : Built => b.arrays[k]?) hbuild
  simp only [List.getElem?_append_left, List.length_range', List.length_map, hlen, Nat.lt_succ_self,
    List.getElem?_range', List.getElem?_map, List.getElem?_take_of_lt, hc] at hreg harray
  refine ⟨hreg.trans (by simp), resetArray p.lineSize c, harray, List.length_replicate .., fun cs hcs => ?_⟩
  rw [List.eq_of_mem_replicate hcs]
  refine ⟨rfl, List.length_replicate .., isRing_order (resetSet_isRing ..), fun e he => ?_⟩
  rw [show e = resetEntry p.lineSize from List.eq_of_mem_replicate he]
  exact ⟨rfl, rfl, rfl, rfl, rfl⟩

end Sys2Proof.Machine

/-! PROOFS. The fields of an address (spec/40_geometry.md R90 to R99): offset, index and tag partition its 64 bits, and
index and tag make up its line base again. -/

namespace Sys2Proof.Machine

/-! ### Splitting a word at a bit -/

/-- The bits from x up and the x bits below make up the word. -/
theorem highBits_or_lowBits (b : Addr) (x : Nat) : b >>> x <<< x ||| BitVec.ofNat 64 (b.toNat % 2 ^ x) = b := by
  apply BitVec.eq_of_toNat_eq
  have hhigh : b.toNat >>> x <<< x ≤ b.toNat := by
    rw [Nat.shiftLeft_eq, Nat.shiftRight_eq_div_pow]
    exact Nat.div_mul_le_self ..
  have hlow := Nat.mod_le b.toNat (2 ^ x)
  have hb := b.isLt
  rw [BitVec.toNat_or, BitVec.toNat_shiftLeft, BitVec.toNat_ushiftRight, BitVec.toNat_ofNat,
    Nat.mod_eq_of_lt (by omega), Nat.mod_eq_of_lt (by omega),
    ← Nat.shiftLeft_add_eq_or_of_lt (Nat.mod_lt _ (Nat.two_pow_pos x)), Nat.shiftLeft_eq, Nat.shiftRight_eq_div_pow,
    Nat.div_add_mod']

section
variable {p : Params} {c : CacheCfg}

/-- The line base is the address with its offset bits cleared (R97). -/
theorem lineBase_eq_clearOffset (h : geometryLegal p c = true) (a : Addr) :
    lineBase p.lineSize a = a >>> offBits p.lineSize <<< offBits p.lineSize := by
  apply BitVec.eq_of_toNat_eq
  have hclear : a.toNat / p.lineSize * p.lineSize = a.toNat - a.toNat % p.lineSize :=
    Nat.eq_sub_of_add_eq (Nat.div_add_mod' ..)
  rw [lineBase_toNat, BitVec.toNat_shiftLeft, BitVec.toNat_ushiftRight, Nat.shiftLeft_eq, Nat.shiftRight_eq_div_pow,
    lineSize_eq_pow h, hclear, Nat.mod_eq_of_lt (lt_of_le_of_lt (Nat.sub_le ..) a.isLt)]

/-! ### The widths of the fields (R93) -/

/-- One way of every set fits into the capacity (R91). -/
theorem lineSize_mul_setCount_le (L : Nat) (c : CacheCfg) : L * c.setCount L ≤ c.cap :=
  (Nat.mul_le_mul_left _ (Nat.div_le_self ..)).trans (Nat.mul_div_le ..)

/-- A cache below 2^64 bytes leaves at least one bit for the tag. -/
theorem offBits_add_idxBits_lt (h : geometryLegal p c = true) (hcap : c.cap < 2 ^ 64) :
    offBits p.lineSize + c.idxBits p.lineSize < 64 := by
  refine (Nat.pow_lt_pow_iff_right (a := 2) (by decide)).1 ?_
  rw [Nat.pow_add, lineSize_eq_pow h, setCount_of_geometryLegal h]
  exact lt_of_le_of_lt (lineSize_mul_setCount_le ..) hcap

end

/-! ### The obligations on addresses -/

/-- Settles O20: index and tag are the low and high bits of the address without its offset bits, also where the
capacity is 2^64 or more. -/
theorem addressOfTagAndIndexIsLineBase : Obligations.AddressOfTagAndIndexIsLineBase := by
  intro p c a h
  rw [CacheCfg.addressOf, CacheCfg.tag, CacheCfg.index, ← setCount_of_geometryLegal h, BitVec.shiftRight_add,
    Nat.add_comm, BitVec.shiftLeft_add, ← BitVec.shiftLeft_or_distrib, highBits_or_lowBits,
    lineBase_eq_clearOffset h]

/-- Settles O21: the widths add up because one way of every set is below 2^64 bytes. -/
theorem addressBitsArePartitioned : Obligations.AddressBitsArePartitioned := by
  intro p c h hcap
  have hbits := offBits_add_idxBits_lt h hcap
  have htag : c.tagBits p.lineSize = 64 - offBits p.lineSize - c.idxBits p.lineSize := rfl
  exact ⟨by omega, by omega, lineSize_eq_pow h, setCount_of_geometryLegal h,
    fun a => ⟨tag_lt c p.lineSize a, index_lt h a, offset_lt h a⟩⟩

end Sys2Proof.Machine

/-! PROOFS. The recency engine of one set (spec/41_lru.md R111 to R117): touches move ways to the front of ORDER, the
victim is the lowest Invalid way or the last of ORDER, and a full set with a way outside ORDER has none. -/

namespace Sys2Proof.Machine

section
variable {cs ds : CacheSet} {o ws : List Nat} {w n : Nat}

/-! ### Touch (R111, R112) -/

/-- Touch leaves the head where it is (R112). -/
theorem touch_of_head (hw : w < cs.ways.length) (hhead : cs.head = some w) : cs.touch w = some cs := by
  simp only [CacheSet.touch, List.getElem?_eq_getElem hw, hhead, if_true]

/-- Touch writes links and HEAD only (R111). -/
theorem touch_content (h : cs.touch w = some ds) : ds.ways.map Entry.content = cs.ways.map Entry.content := by
  refine List.ext_getElem? fun v => ?_
  rw [List.getElem?_map, List.getElem?_map]
  exact (touch_keeps h).2 v

/-- Way w first and the rest in their order: what touch makes of ORDER (R111). -/
def moveToFront (o : List Nat) (w : Nat) : List Nat := w :: o.erase w

/-- Touching ways of a ring one after another moves each to the front in turn. -/
theorem touches_complete (h : cs.isRing o) (hws : ∀ w ∈ ws, w < cs.ways.length) :
    ∃ ds, ws.foldlM CacheSet.touch cs = some ds ∧ ds.isRing (ws.foldl moveToFront o) ∧
      ds.ways.map Entry.content = cs.ways.map Entry.content := by
  induction ws generalizing cs o with
  | nil => exact ⟨cs, rfl, h, rfl⟩
  | cons w ws ih =>
    obtain ⟨hw, hrest⟩ := List.forall_mem_cons.1 hws
    obtain ⟨cs1, ht⟩ := touch_completes (isRing_ringOk h) hw
    obtain ⟨ds, hts, hring, hcontent⟩ := ih (touch_isRing h ht) fun v hv => (touch_keeps ht).1 ▸ hrest v hv
    exact ⟨ds, by rw [List.foldlM_cons, ht]; exact hts, hring, hcontent.trans (touch_content ht)⟩

/-- Different ways moved to the front stand there in reverse, before those that were not moved. -/
theorem foldl_moveToFront (hnd : ws.Nodup) : ws.foldl moveToFront o = ws.reverse ++ o.diff ws := by
  induction ws generalizing o with
  | nil => rfl
  | cons w ws ih =>
    obtain ⟨hw, hws⟩ := List.nodup_cons.1 hnd
    rw [List.foldl_cons, ih hws, moveToFront, List.cons_diff_of_not_mem hw, List.diff_cons, List.reverse_cons,
      List.append_assoc, List.singleton_append]

/-- Ways 0, 1, ..., n and then 0 again leave the order 0, n, ..., 1, whatever it was (R115). -/
theorem foldl_moveToFront_round (hnd : o.Nodup) (hin : ∀ w ∈ o, w < n + 1) :
    (List.range (n + 1) ++ [0]).foldl moveToFront o = 0 :: (List.range' 1 n).reverse := by
  have hnone : o.diff (List.range (n + 1)) = [] := List.eq_nil_iff_forall_not_mem.2 fun w hw => by
    obtain ⟨hmem, hout⟩ := hnd.mem_sdiff_iff.1 hw
    exact hout (List.mem_range.2 (hin w hmem))
  have hzero : 0 ∉ (List.range' 1 n).reverse := by simp
  rw [List.foldl_append, foldl_moveToFront List.nodup_range, hnone, List.append_nil, List.range_eq_range',
    List.range'_succ, List.reverse_cons]
  simp only [List.foldl_cons, List.foldl_nil, moveToFront]
  rw [List.erase_append_right _ hzero, List.erase_cons_head, List.append_nil]

/-! ### The victim (R114, R115, R117) -/

/-- No way of the set is Invalid. -/
def CacheSet.full (cs : CacheSet) : Prop := ∀ e ∈ cs.ways, e.state ≠ .invalid

theorem firstInvalid_eq_none_iff : cs.firstInvalid = none ↔ cs.full := by
  simp [CacheSet.firstInvalid, CacheSet.full, List.findIdx?_eq_none_iff]

/-- The lowest Invalid way is what the scan of R114 stops at. -/
theorem firstInvalid_of_lowest {e : Entry} (he : cs.ways[w]? = some e) (hinv : e.state = .invalid)
    (hbelow : ∀ v < w, ∀ f ∈ cs.ways[v]?, f.state ≠ .invalid) : cs.firstInvalid = some w := by
  obtain ⟨hw, rfl⟩ := List.getElem?_eq_some_iff.1 he
  refine List.findIdx?_eq_some_iff_getElem.2 ⟨hw, decide_eq_true hinv, fun v hv => ?_⟩
  simpa using hbelow v hv _ (List.getElem?_eq_getElem (hv.trans hw))

/-- Being full depends on the states alone. -/
theorem CacheSet.full.congr (h : cs.full) (hcontent : ds.ways.map Entry.content = cs.ways.map Entry.content) :
    ds.full := by
  intro e he
  obtain ⟨f, hf, hsame⟩ := List.mem_map.1 (hcontent ▸ List.mem_map_of_mem he)
  have hstate : f.state = e.state := congrArg Prod.fst hsame
  exact hstate ▸ h f hf

/-- A way of a full set is valid, so it is in ORDER where R44 holds. -/
theorem CacheSet.full.mem_order (h : cs.full) (hrec : cs.recencyOk) (hw : w < cs.ways.length) : w ∈ cs.order :=
  hrec w hw _ (List.getElem?_eq_getElem hw) (isValid_iff.2 (h _ (List.getElem_mem hw)))

theorem victim_of_firstInvalid (h : cs.firstInvalid = some w) : cs.victim = some w := by
  simp only [CacheSet.victim, h]

/-- A full set with every way in ORDER gives up the way before the head (R114). -/
theorem victim_of_full (h : cs.full) (hall : ∀ w < cs.ways.length, w ∈ cs.order) :
    cs.victim = cs.head.bind cs.tail := by
  simp only [CacheSet.victim, firstInvalid_eq_none_iff.2 h]
  exact if_pos (by simpa [List.all_eq_true] using hall)

/-- A full set with a way outside ORDER has no victim (R117). -/
theorem victim_of_full_of_notMem (h : cs.full) (hw : w < cs.ways.length) (hout : w ∉ cs.order) :
    cs.victim = none := by
  simp only [CacheSet.victim, firstInvalid_eq_none_iff.2 h]
  refine if_neg fun hall => hout ?_
  simpa using List.all_eq_true.1 hall w (List.mem_range.2 hw)

/-- The way before the head of a ring is the last of ORDER (R115). -/
theorem tail_of_isRing (h : cs.isRing o) : cs.head.bind cs.tail = o.getLast? := by
  obtain ⟨hhead, -, hin, hlinks⟩ := isRing_iff.1 h
  by_cases hne : o = []
  · rw [hhead, hne]
    rfl
  · have hprev := (hlinks (o.head hne)).2
    rw [cyclicPrev_head hne] at hprev
    rw [hhead, List.head?_eq_some_head hne, Option.bind_some,
      tail_of_prevOf hprev (hin _ (List.getLast_mem hne)), List.getLast?_eq_some_getLast hne]

/-- The victim of a full set whose ways are all in the ring is the last of ORDER (R115). -/
theorem victim_of_isRing (h : cs.isRing o) (hfull : cs.full) (hall : ∀ w < cs.ways.length, w ∈ o) :
    cs.victim = o.getLast? := by
  rw [← isRing_order h] at hall
  exact (victim_of_full hfull hall).trans (tail_of_isRing h)

/-- A fill of a set without a victim is stuck (R117, I-LRU). -/
theorem place_of_no_victim {s : State} {k : Nat} {a : Addr} {c : CacheCfg} (d : List Byte)
    (hl : s.locate k a = some (c, cs)) (hv : cs.victim = none) : place k a d s = .stuck .noVictim := by
  simp only [place, hl, hv]

end

/-! ### The obligations on the recency list -/

/-- Settles O22: touch completes on a ring, and the ring it leaves has the way in front. -/
theorem touchMovesToFront : Obligations.TouchMovesToFront := by
  intro cs w hring hw
  obtain ⟨ds, ht⟩ := touch_completes hring hw
  have hring' := touch_isRing hring ht
  exact ⟨ds, ht, isRing_ringOk hring', isRing_order hring', touch_content ht⟩

/-- Settles O23: touch looks at HEAD before it writes a link. -/
theorem touchOfTheHeadChangesNothing : Obligations.TouchOfTheHeadChangesNothing :=
  fun _ _ hw hhead => touch_of_head hw hhead

/-- Settles O24: the scan finds the lowest Invalid way; with none the set is full, all its ways are in ORDER (R44),
and the victim is the last of it. -/
theorem victimIsInvalidElseLeastRecent : Obligations.VictimIsInvalidElseLeastRecent := by
  intro cs hpos hring hrec
  refine ⟨fun w e he hinv hbelow => victim_of_firstInvalid (firstInvalid_of_lowest he hinv hbelow),
    fun hfull => ?_⟩
  have hall : ∀ w < cs.ways.length, w ∈ cs.order := fun w hw => CacheSet.full.mem_order hfull hrec hw
  have hne : cs.order ≠ [] := List.ne_nil_of_mem (hall 0 hpos)
  have hlast := List.getLast?_eq_some_getLast hne
  have hvictim := victim_of_isRing hring hfull hall
  obtain ⟨-, -, hin, -⟩ := hring
  exact ⟨_, hin _ (List.getLast_mem hne), hlast, hvictim.trans hlast⟩

/-- Settles O25: the touches leave the order 0, N, ..., 1 (`foldl_moveToFront_round`), whose last way is 1. -/
theorem leastRecentlyTouchedIsEvicted : Obligations.LeastRecentlyTouchedIsEvicted := by
  intro cs hlen hring hrec hfull
  refine ⟨victim_of_isRing hring hfull fun w hw => CacheSet.full.mem_order hfull hrec hw, ?_⟩
  obtain ⟨n, hn⟩ : ∃ n, cs.ways.length = n + 1 + 1 := ⟨cs.ways.length - 2, by omega⟩
  have hways : ∀ w ∈ List.range cs.ways.length ++ [0], w < cs.ways.length := by
    simp only [List.mem_append, List.mem_range, List.mem_singleton]
    omega
  obtain ⟨ds, htouch, hring', hcontent⟩ := touches_complete hring hways
  obtain ⟨-, hnd, hin, -⟩ := hring
  have hsize : ds.ways.length = n + 1 + 1 := by simpa [hn] using congrArg List.length hcontent
  rw [hn] at hin
  rw [hn, foldl_moveToFront_round hnd hin] at hring'
  have hall : ∀ w < ds.ways.length, w ∈ 0 :: (List.range' 1 (n + 1)).reverse := by
    simp only [List.mem_cons, List.mem_reverse, List.mem_range'_1]
    omega
  refine ⟨ds, htouch, (victim_of_isRing hring' (CacheSet.full.congr hfull hcontent) hall).trans ?_⟩
  rw [List.range'_succ, List.reverse_cons, ← List.cons_append, List.getLast?_concat]

/-- Settles O26: the check of R117 fails at the way outside ORDER, and the fill stops before it evicts or writes. -/
theorem victimOutsideOrderIsStuck : Obligations.VictimOutsideOrderIsStuck := by
  intro s k a d cs w hset hfull hw hout
  obtain ⟨⟨c, cs'⟩, hl, rfl⟩ := Option.map_eq_some_iff.1 hset
  have hnone := victim_of_full_of_notMem hfull hw hout
  exact ⟨hnone, place_of_no_victim d hl hnone⟩

end Sys2Proof.Machine

/-! PROOFS. A well-formed block is never stuck (spec/60_exceptions.md R180, R183, R184): every request on one of its
caches completes, but for a WRLINE that misses, which raises, and one with a malformed LINE_IN, which is refused. -/

namespace Sys2Proof.Machine

section
variable {s t : State} {k : Nat} {a : Addr} {d : List Byte} {i : Instr} {r : Request} {rest : List Request}

/-! ### The accessors complete (R155 to R159) -/

/-- The cache a read_line went through holds the line afterwards (R121, R126, R130). -/
theorem readLine_hasCopy (hr : readLine k a s = .ok d t) : ∃ st x, t.hasCopy k a st x := by
  rcases readLineN_ok hr with ⟨w, hw, hhit⟩ | ⟨-, j, s1, d1, -, -, hp⟩ |
    ⟨-, -, c, -, ⟨m, s1, d1, -, -, hp⟩ | ⟨-, hp⟩⟩
  · obtain ⟨st, x, hc⟩ := lookup_hasCopy hw
    obtain ⟨c, cs, e, ds, hl, -, ht, -, rfl⟩ := localHit_ok hhit
    exact ⟨st, x, putSet_hasCopy_same hl (hasCopy_touch ht ((hasCopy_locate hl).1 hc))⟩
  · exact ⟨_, _, (place_hasCopy hp).1⟩
  · exact ⟨_, _, (place_hasCopy hp).1⟩
  · exact ⟨_, _, (place_hasCopy hp).1⟩

theorem getByte_completes (h : Inv s) (hk : k < s.params.nCaches) (a : Addr) : ∃ b t, getByte k a s = .ok b t := by
  obtain ⟨c, hg, -⟩ := h.exists_geometry
  obtain ⟨buf, t, hr⟩ := readLine_completes h hk (lineBase s.params.lineSize a)
  have hoff : offset s.params.lineSize a < buf.length := (readLine_inv h hr).2 ▸ offset_lt hg a
  exact ⟨buf[offset s.params.lineSize a], t, by simp only [getByte, hr, bind_ok, List.getElem?_eq_getElem hoff]⟩

theorem getBytes_completes (h : Inv s) (hk : k < s.params.nCaches) (a : Addr) (n : Nat) :
    ∃ bs t, getBytes k a n s = .ok bs t := by
  induction n generalizing s a with
  | zero => exact ⟨[], s, rfl⟩
  | succ n ih =>
    obtain ⟨b, s1, hb⟩ := getByte_completes h hk a
    obtain ⟨bs, t, hrest⟩ := ih (getByte_inv h hb) ((getByte_frame hb).1.params ▸ hk) (a + 1)
    exact ⟨b :: bs, t, by simp only [getBytes, hb, hrest, bind_ok]⟩

/-- The write half of the read-before-write sequence finds the line that its read half left in the cache (R158). -/
theorem putByteCached_completes (h : Inv s) (hk : k < s.params.nCaches) (a : Addr) (b : Byte) :
    ∃ t, putByteCached k a b s = .ok () t := by
  obtain ⟨buf, s1, hr⟩ := readLine_completes h hk (lineBase s.params.lineSize a)
  obtain ⟨st, x, hcopy⟩ := readLine_hasCopy hr
  obtain ⟨w, hw⟩ := Option.ne_none_iff_exists'.1 fun hmiss => not_hasCopy_of_lookup_none hmiss hcopy
  obtain ⟨t, hwrite⟩ := writeLine_completes (readLine_inv h hr).1 hw (buf.set (offset s.params.lineSize a) b)
  exact ⟨t, by simp only [putByteCached, hr, bind_ok, hwrite]⟩

theorem putByte_completes (h : Inv s) (hk : k < s.params.nCaches) (a : Addr) (b : Byte) :
    ∃ t, putByte k a b s = .ok () t := by
  cases hdev : writeHandler s.params a with
  | some m => exact ⟨devWrite m a b s, by simp only [putByte, hdev]⟩
  | none =>
    obtain ⟨t, hput⟩ := putByteCached_completes h hk a b
    exact ⟨t, by simp only [putByte, hdev, hput]⟩

theorem putBytes_completes (h : Inv s) (hk : k < s.params.nCaches) (a : Addr) (bs : List Byte) :
    ∃ t, putBytes k a bs s = .ok () t := by
  induction bs generalizing s a with
  | nil => exact ⟨s, rfl⟩
  | cons b bs ih =>
    obtain ⟨s1, hput⟩ := putByte_completes h hk a b
    obtain ⟨t, hrest⟩ := ih (putByte_inv h hput) ((putByte_frame hput).params ▸ hk) (a + 1)
    exact ⟨t, by simp only [putBytes, hput, bind_ok, hrest]⟩

/-! ### The requests complete -/

/-- A request on a cache of a well-formed block answers without a fault, but for a WRLINE with a malformed LINE_IN or
of a line that is not held (R184). -/
theorem exec_completes (h : Inv s) (hi : i.wellFormed s.params.nCaches = true)
    (hline : ∀ c, i = .wrline c → s.req.lineIn.length = s.params.lineSize ∧ s.lookup c.toNat s.req.addr ≠ none) :
    ∃ u v, exec i s = .next (u.respond v) ∧ SameFrame s u := by
  have hk := toNat_lt_of_wellFormed hi
  rcases instr_kinds i with ⟨n, hget⟩ | ⟨n, hput⟩ | ⟨c, rfl⟩ | ⟨c, rfl⟩
  · obtain ⟨bs, u, hbytes⟩ := getBytes_completes h hk s.req.addr n
    exact ⟨u, Response.read (littleEndian bs), by simp only [exec_of_getWidth hget, getN, hbytes, bind_ok, Res.finish],
      (getBytes_frame hbytes).1⟩
  · obtain ⟨u, hbytes⟩ := putBytes_completes h hk s.req.addr (s.req.putData n)
    exact ⟨u, Response.done, by simp only [exec_of_putWidth hput, putN, hbytes, bind_ok, Res.finish],
      putBytes_frame hbytes⟩
  · obtain ⟨d, u, hr⟩ := readLine_completes (k := c.toNat) h hk s.req.addr
    exact ⟨u, Response.line d, by simp only [exec, execRdline, hr, bind_ok, Res.finish], (readLineN_frame hr).1⟩
  · obtain ⟨hlen, hhit⟩ := hline c rfl
    obtain ⟨w, hw⟩ := Option.ne_none_iff_exists'.1 hhit
    obtain ⟨u, hwrite⟩ := writeLine_completes h hw s.req.lineIn
    exact ⟨u, Response.done, by simp only [exec, execWrline, if_pos hlen, hwrite, bind_ok, Res.finish],
      (writeLine_frame hwrite).1⟩

/-! ### The step on each kind of oldest request -/

/-- With no request sent the block is idle (R195). -/
theorem step_of_no_request (hqueue : s.queue = []) : step s = .next s := by
  simp only [step, fetch, hqueue]

/-- Among the requests that decode, the faulting ones are the WRLINEs of L bytes that miss (R184). -/
theorem faultingRequest_iff (hqueue : s.queue = r :: rest) (hdec : decode s.params.nCaches r.word = .ok i) :
    s.faultingRequest ↔
      ∃ c, i = .wrline c ∧ r.lineIn.length = s.params.lineSize ∧ s.lookup c.toNat r.addr = none := by
  simp only [State.faultingRequest, hqueue, List.cons.injEq, and_assoc]
  constructor
  · rintro ⟨_, _, rfl, rfl, ⟨e, herr⟩ | ⟨c, hwr, hmiss⟩⟩
    · cases hdec.symm.trans herr
    · exact ⟨c, Except.ok.inj (hdec.symm.trans hwr), hmiss⟩
  · rintro ⟨c, rfl, hmiss⟩
    exact ⟨r, rest, rfl, rfl, .inr ⟨c, hdec, hmiss⟩⟩

/-- A request whose LINE_IN is malformed is none that raises a fault. -/
theorem State.malformedRequest.not_faulting (h : s.malformedRequest) : ¬ s.faultingRequest := by
  obtain ⟨r, rest, c, hqueue, hdec, hlen⟩ := h
  rw [faultingRequest_iff hqueue hdec]
  rintro ⟨_, -, hlen', -⟩
  exact hlen hlen'

/-- A WRLINE whose LINE_IN is malformed is turned away (log entry 8). -/
theorem step_of_malformedRequest (h : s.malformedRequest) (hclear : s.fault.valid = false) :
    step s = .refused .malformedLineIn := by
  obtain ⟨r, rest, c, hqueue, hdec, hlen⟩ := h
  rw [step_of_fetch_request (fetch_of_decode_ok hqueue hclear hdec)]
  exact if_neg hlen

/-- Every other step of a well-formed block without a fault answers, with a fault exactly for a faulting request
(R184). -/
theorem Inv.step_answers (h : Inv s) (hclear : s.fault.valid = false) (hform : ¬ s.malformedRequest) :
    ∃ t, step s = .next t ∧ (t.fault.valid = true ↔ s.faultingRequest) := by
  rcases fetch_cases s with ⟨hqueue, -⟩ | ⟨r, rest, hqueue, ⟨hvalid, -⟩ | ⟨-, e, hdec, -⟩ | ⟨-, i, hdec, -⟩⟩
  · exact ⟨s, step_of_no_request hqueue, by simp [hclear, State.faultingRequest, hqueue]⟩
  · simp [hclear] at hvalid
  · exact ⟨_, step_of_reservedWord hqueue hclear (decode_eq_error_iff.1 ⟨e, hdec⟩),
      iff_of_true rfl ⟨r, rest, hqueue, .inl ⟨e, hdec⟩⟩⟩
  · rw [step_of_fetch_request (fetch_of_decode_ok hqueue hclear hdec), faultingRequest_iff hqueue hdec]
    have h1 := accept_inv h r rest
    have hwf := wellFormed_of_decode hdec
    have hlen : ∀ c, i = .wrline c → r.lineIn.length = s.params.lineSize := by
      rintro c rfl
      by_contra hlen
      exact hform ⟨r, rest, c, hqueue, hdec, hlen⟩
    by_cases hmiss : ∃ c, i = .wrline c ∧ s.lookup c.toNat r.addr = none
    · obtain ⟨c, rfl, hmiss⟩ := hmiss
      obtain ⟨t, hexec, hfault⟩ := exec_wrline_miss h1 (toNat_lt_of_wellFormed hwf) (hlen c rfl) hmiss
      exact ⟨t, hexec, iff_of_true hfault ⟨c, rfl, hlen c rfl, hmiss⟩⟩
    · obtain ⟨u, v, hexec, hframe⟩ := exec_completes h1 hwf
        fun c hc => ⟨hlen c hc, fun hnone => hmiss ⟨c, hc, hnone⟩⟩
      refine ⟨_, hexec, iff_of_false ?_ fun ⟨c, hc, _, hnone⟩ => hmiss ⟨c, hc, hnone⟩⟩
      simp [hframe.fault, hclear]

/-- A next state is safe exactly when it records no fault (R180). -/
theorem safeOutcome_next_iff : safeOutcome (.next t) ↔ ¬ t.fault.valid = true := by
  simp [safeOutcome, verdict_eq_wrong]

/-- A malformed LINE_IN turned away is no fault (log entry 24). -/
theorem safeOutcome_malformedLineIn : safeOutcome (.refused .malformedLineIn) := by
  simp [safeOutcome, verdict_eq_wrong]

end

/-! ### The obligation on the step -/

/-- Settles O18: a faulted block idles or refuses; without a fault a malformed LINE_IN is refused and every other step
answers, with a fault exactly for a faulting request (`Inv.step_answers`). -/
theorem wellFormedStepIsSafe : Obligations.WellFormedStepIsSafe := by
  intro s h
  cases hfault : s.fault.valid with
  | true =>
    refine ⟨?_, nofun⟩
    by_cases hqueue : s.queue = []
    · rw [step_of_no_request hqueue]
      trivial
    · rw [step_of_faulted hfault hqueue]
      exact .inl ⟨rfl, hfault, hqueue⟩
  | false =>
    by_cases hform : s.malformedRequest
    · rw [step_of_malformedRequest hform hfault]
      exact ⟨.inr ⟨rfl, hfault, hform⟩, fun _ => iff_of_true safeOutcome_malformedLineIn hform.not_faulting⟩
    · obtain ⟨t, hstep, hraised⟩ := h.step_answers hfault hform
      rw [hstep]
      exact ⟨trivial, fun _ => safeOutcome_next_iff.trans (not_congr hraised)⟩

end Sys2Proof.Machine

/-! PROOFS. The parts of read_line one by one (spec/41_lru.md R111; spec/42_read_path.md R121 to R130;
spec/44_write_back.md R150, R152): the one set each writes, the lines it stores to MEM, and the lines it leaves alone. -/

namespace Sys2Proof.Machine

/-! ### The set a fill leaves (R126, R130) -/

section
variable {cs ds : CacheSet} {w v : Nat} {t : Addr} {d : List Byte} {e : Entry}

/-- The ways of a touched set keep their state, tag and data (R111). -/
theorem touch_way (h : cs.touch w = some ds) (v : Nat) :
    (ds.ways[v]?).map Entry.content = (cs.ways[v]?).map Entry.content :=
  (touch_keeps h).2 v

theorem touch_fill_way (ht : (cs.fill w t d).touch w = some ds) (he : cs.ways[w]? = some e) :
    ∃ f, ds.ways[w]? = some f ∧ f.state = .shared ∧ f.tag = t ∧ f.data = d := by
  have hway := touch_way ht w
  rw [fill_getElem?, he, Option.map_some, if_pos rfl, Option.map_some] at hway
  obtain ⟨f, hf, hcontent⟩ := Option.map_eq_some_iff.1 hway
  simp only [Entry.content, Prod.mk.injEq] at hcontent
  exact ⟨f, hf, hcontent⟩

/-- A fill changes no way but its own. -/
theorem touch_fill_sameBut (ht : (cs.fill w t d).touch w = some ds) : cs.sameBut ds w := by
  refine ⟨(touch_keeps ht).1.trans (fill_length ..), fun v hvw => ?_⟩
  rw [touch_way ht, fill_getElem?]
  cases cs.ways[v]? with
  | none => rfl
  | some e => rw [Option.map_some, if_neg (Ne.symm hvw)]

theorem touch_movedToFront (h : cs.ringOk) (ht : cs.touch w = some ds) : cs.movedToFront ds w :=
  isRing_order (touch_isRing h ht)

theorem fill_ringOk (h : cs.ringOk) (w : Nat) (t : Addr) (d : List Byte) : (cs.fill w t d).ringOk :=
  isRing_ringOk
    (isRing_congr h rfl (fill_length ..) (nextOf_modifyWay fun _ => rfl) (prevOf_modifyWay fun _ => rfl))

theorem touch_fill_movedToFront (h : cs.ringOk) (ht : (cs.fill w t d).touch w = some ds) : cs.movedToFront ds w := by
  have hmoved := touch_movedToFront (fill_ringOk h w t d) ht
  rwa [CacheSet.movedToFront, fill_order] at hmoved

/-- A fill with a line the set lacks puts it into one way and no other. -/
theorem touch_fill_onlyIn (hf : cs.find t = none) (ht : (cs.fill w t d).touch w = some ds) : ds.onlyIn w t := by
  intro v e he hh
  obtain ⟨g, hg, hst, htag, -⟩ := touch_getElem? ht he
  have hhg : Entry.holds t g = true := by simpa only [Entry.holds, hst, htag] using hh
  rcases modifyWay_getElem?_cases hg with ⟨-, hold⟩ | ⟨hvw, -⟩
  · exact absurd ⟨v, g, hold, hhg, rfl, rfl⟩ (not_hasCopy_of_find_none hf g.state g.data)
  · exact hvw

theorem touch_fill_find (hf : cs.find t = none) (ht : (cs.fill w t d).touch w = some ds)
    (he : cs.ways[w]? = some e) : ds.find t = some w := by
  obtain ⟨f, hf', hst, htag, -⟩ := touch_fill_way ht he
  exact find_of_holds hf' (holds_iff.2 ⟨by rw [hst]; rfl, htag⟩) (touch_fill_onlyIn hf ht)

theorem holds_of_find (hf : cs.find t = some w) (he : cs.ways[w]? = some e) : Entry.holds t e = true := by
  obtain ⟨f, hf', hh⟩ := find_holds hf
  rwa [← Option.some.inj (hf'.symm.trans he)]

/-- Giving a way the state it has changes nothing. -/
theorem setCoh_self (he : cs.ways[w]? = some e) : cs.setCoh w e.state = cs := by
  have hways : (cs.setCoh w e.state).ways = cs.ways := List.ext_getElem? fun v => by
    rw [setCoh_getElem?]
    by_cases hwv : w = v
    · subst hwv
      rw [he, Option.map_some, if_pos rfl]
    · simp only [if_neg hwv, Option.map_id']
  exact congrArg (CacheSet.mk cs.head) hways

end

/-! ### Sets and what an address selects -/

/-- Every set of the block but the one that a selects in cache k is unchanged. -/
def State.sameSetsBut (s t : State) (k : Nat) (a : Addr) : Prop :=
  ∀ l i, ¬ s.isSlotOf l i k a → t.getSet l i = s.getSet l i

section
variable {s s1 t u : State} {j k i l v w : Nat} {a b : Addr} {c : CacheCfg} {cs ds : CacheSet} {e : Entry}
  {d d' : List Byte} {st : Coh}

theorem isSlotOf_iff (hc : s.params.caches[k]? = some c) :
    s.isSlotOf j i k a ↔ j = k ∧ c.index s.params.lineSize a = i := by
  simp [State.isSlotOf, hc]

theorem isSlotOf_congr (hp : t.params = s.params) : t.isSlotOf j i k a ↔ s.isSlotOf j i k a := by
  simp only [State.isSlotOf, hp]

theorem putSet_sameSetsBut (hl : s.locate k a = some (c, cs)) (ds : CacheSet) :
    s.sameSetsBut (s.putSet k (c.index s.params.lineSize a) ds) k a := by
  intro l i hslot
  rw [isSlotOf_iff (locate_eq_some.1 hl).1] at hslot
  exact getSet_putSet_other ds fun h => hslot ⟨h.1, h.2.symm⟩

theorem State.sameSetsBut.locate (h : s.sameSetsBut t k a) (hp : t.params = s.params) (hjk : j ≠ k) (b : Addr) :
    t.locate j b = s.locate j b := by
  have hsets : ∀ i, t.getSet j i = s.getSet j i := fun i => h j i fun hslot => hjk hslot.1
  simp only [State.locate, hp, hsets]

/-- What was done between two states with the same arrays, a write-back, does not count. -/
theorem State.sameSetsBut.of_arrays (h : s1.sameSetsBut t k a) (hp : s1.params = s.params)
    (ha : s1.arrays = s.arrays) : s.sameSetsBut t k a :=
  fun l i hslot => (h l i (mt (isSlotOf_congr hp).1 hslot)).trans (getSet_congr ha l i)

theorem locate_putSet_same (hl : s.locate k a = some (c, cs)) (ds : CacheSet) :
    (s.putSet k (c.index s.params.lineSize a) ds).locate k a = some (c, ds) := by
  obtain ⟨hc, hset⟩ := locate_eq_some.1 hl
  exact locate_eq_some.2 ⟨hc, getSet_putSet_same hset⟩

theorem setAt_of_locate (hl : s.locate k a = some (c, cs)) : s.setAt k a = some cs := by
  simp only [State.setAt, hl, Option.map_some]

theorem lookup_of_locate (hl : s.locate k a = some (c, cs)) :
    s.lookup k a = cs.find (c.tag s.params.lineSize a) := by
  simp only [State.lookup, hl]

/-- A lookup, and the set and the line it finds, depend on what the address selects. -/
theorem lookup_of_locate_eq (hp : t.params = s.params) (hl : t.locate k a = s.locate k a) :
    t.lookup k a = s.lookup k a := by
  simp only [State.lookup, hl, hp]

theorem setAt_of_locate_eq (hl : t.locate k a = s.locate k a) : t.setAt k a = s.setAt k a := by
  simp only [State.setAt, hl]

theorem victimSlot_of_locate_eq (hp : t.params = s.params) (hl : t.locate k a = s.locate k a) :
    t.victimSlot k a = s.victimSlot k a := by
  simp only [State.victimSlot, hl, hp]

theorem victimSlot_eq (hl : s.locate k a = some (c, cs)) (hv : cs.victim = some v) :
    s.victimSlot k a = some (c.index s.params.lineSize a, v) := by
  simp only [State.victimSlot, hl, hv, Option.map_some]

/-! ### The lines stored to MEM (R150, R152) -/

theorem dirtyLine_eq (hc : s.params.caches[k]? = some c) (he : s.entry k i w = some e) :
    s.dirtyLine k i w =
      if e.state = .modified then some (c.addressOf s.params.lineSize e.tag i) else none := by
  simp only [State.dirtyLine, hc, he]

theorem placeStores_eq (hl : s.locate k a = some (c, cs)) (hv : cs.victim = some v) :
    s.placeStores k a = (s.dirtyLine k (c.index s.params.lineSize a) v).toList := by
  simp only [State.placeStores, victimSlot_eq hl hv]

theorem siblingStores_eq (hl : s.locate j a = some (c, cs)) (hf : cs.find (c.tag s.params.lineSize a) = some w) :
    s.siblingStores j a = (s.dirtyLine j (c.index s.params.lineSize a) w).toList := by
  simp only [State.siblingStores, (locate_eq_some.1 hl).1, lookup_of_locate hl, hf]

theorem dirtyLine_of_locate_eq (hp : t.params = s.params) (ht : t.locate k a = some (c, cs))
    (hs : s.locate k a = some (c, cs)) (v : Nat) :
    t.dirtyLine k (c.index s.params.lineSize a) v = s.dirtyLine k (c.index s.params.lineSize a) v := by
  have he : t.entry k (c.index s.params.lineSize a) v = cs.ways[v]? := hp ▸ entry_of_locate ht v
  simp only [State.dirtyLine, hp, he, entry_of_locate hs]

/-- What a fill stores depends on the set it fills. -/
theorem placeStores_of_locate_eq (hp : t.params = s.params) (hl : t.locate k a = s.locate k a) :
    t.placeStores k a = s.placeStores k a := by
  cases hs : s.locate k a with
  | none => simp only [State.placeStores, State.victimSlot, hl, hs]
  | some x =>
    obtain ⟨c, cs⟩ := x
    cases hv : cs.victim with
    | none => simp only [State.placeStores, State.victimSlot, hl, hs, hv, Option.map_none]
    | some v =>
      rw [placeStores_eq hs hv, placeStores_eq (hl.trans hs) hv, hp, dirtyLine_of_locate_eq hp (hl.trans hs) hs]

theorem sameMemOutside_of_mem_eq (h : t.mem = s.mem) (lines : List Addr) : s.sameMemOutside t lines :=
  fun _ _ => by rw [h]

/-- Writing a set stores nothing. -/
theorem sameMemOutside_putSet {lines : List Addr} :
    s.sameMemOutside (t.putSet k i cs) lines ↔ s.sameMemOutside t lines :=
  Iff.rfl

theorem State.sameMemOutside.trans {xs ys : List Addr} (h : s.sameMemOutside t xs) (hp : t.params = s.params)
    (h' : t.sameMemOutside u ys) : s.sameMemOutside u (xs ++ ys) := by
  intro x hx
  have hxs : s.outside xs x := fun b hb => hx b (List.mem_append_left _ hb)
  have hys : t.outside ys x := fun b hb => hp ▸ hx b (List.mem_append_right _ hb)
  exact (h' x hys).trans (h x hxs)

theorem memWrite_sameMemOutside (hS : 0 < s.params.storeSize) (hd : d.length = s.params.lineSize) :
    s.sameMemOutside (memWrite a d s) [a] := by
  intro x hx
  have hout := hx a List.mem_cons_self
  exact memWrite_read_other hS (by omega)

theorem Inv.entry_data_length (h : Inv s) (hc : s.params.caches[k]? = some c) (he : s.entry k i w = some e) :
    e.data.length = s.params.lineSize := by
  obtain ⟨cs, hset, he⟩ := Option.bind_eq_some_iff.1 he
  obtain ⟨x, hx, hi⟩ := Option.bind_eq_some_iff.1 hset
  exact ((h.setsOk.sets k c x cs hc hx (List.mem_of_getElem? hi)).shape.2 e (List.mem_of_getElem? he)).1

theorem writeBack_sameMemOutside (h : Inv s) {r : Unit} (hw : writeBack k i w s = .ok r t)
    (he : s.entry k i w = some e) (hm : e.state = .modified) :
    s.sameMemOutside t (s.dirtyLine k i w).toList := by
  obtain ⟨c, e', -, hc, he', -, rfl⟩ := writeBack_ok hw
  obtain rfl : e' = e := Option.some.inj (he'.symm.trans he)
  rw [dirtyLine_eq hc he, if_pos hm]
  exact memWrite_sameMemOutside (h.storeSize_pos hc) (h.entry_data_length hc he)

theorem evict_sameMemOutside (h : Inv s) {r : Unit} (he : evict k i v s = .ok r t) :
    s.sameMemOutside t (s.dirtyLine k i v).toList := by
  obtain ⟨e, hentry, ⟨hm, hw⟩ | ⟨-, rfl⟩⟩ := evict_ok he
  · exact writeBack_sameMemOutside h hw hentry hm
  · exact sameMemOutside_of_mem_eq rfl _

/-! ### Lines other than the one accessed (R133) -/

/-- Cache j holds no new copy of the line of b, and it holds the old one yet, or `lost` says how it went. -/
def State.keepsLine (s t : State) (j : Nat) (b : Addr) (lost : Prop) : Prop :=
  ∀ st d, (t.hasCopy j b st d → s.hasCopy j b st d) ∧ (s.hasCopy j b st d → t.hasCopy j b st d ∨ lost)

/-- The line of b stands in exactly the slot of cache j that a fill with the line of a reuses (R114). -/
def State.displaced (s : State) (j : Nat) (a b : Addr) : Prop :=
  ∃ c w, s.params.caches[j]? = some c ∧ s.lookup j b = some w ∧
    s.victimSlot j a = some (c.index s.params.lineSize b, w)

theorem State.keepsLine.mono {p q : Prop} (h : s.keepsLine t j b p) (hpq : p → q) : s.keepsLine t j b q :=
  fun st d => ⟨(h st d).1, fun hc => ((h st d).2 hc).imp_right hpq⟩

theorem State.keepsLine.trans {p q : Prop} (h : s.keepsLine t j b p) (h' : t.keepsLine u j b q) :
    s.keepsLine u j b (p ∨ q) := by
  refine fun st d => ⟨fun hc => (h st d).1 ((h' st d).1 hc), fun hc => ?_⟩
  rcases (h st d).2 hc with hc | hp
  · exact ((h' st d).2 hc).imp_right .inr
  · exact .inr (.inl hp)

theorem keepsLine_of_same (hp : t.params = s.params) (ha : t.arrays = s.arrays) (lost : Prop) :
    s.keepsLine t j b lost :=
  fun _ _ => ⟨(hasCopy_congr hp ha).1, fun hc => .inl ((hasCopy_congr hp ha).2 hc)⟩

theorem lineEntry_eq_none (h : ∀ st d, ¬ s.hasCopy j b st d) : s.lineEntry j b = none := by
  cases he : s.lineEntry j b with
  | none => rfl
  | some e =>
    obtain ⟨c, cs, w, hl, hf, hw⟩ := lineEntry_eq_some he
    exact absurd ⟨c, cs, hl, w, e, hw, holds_of_find hf hw, rfl, rfl⟩ (h e.state e.data)

/-- In terms of the state and the data of the line: both are as before, or the line is gone. -/
theorem State.keepsLine.cohAt {lost : Prop} (h : s.keepsLine t j b lost) (hs : SetsOk s) (ht : SetsOk t) :
    (t.cohAt j b = s.cohAt j b ∧ t.dataAt j b = s.dataAt j b) ∨ (t.cohAt j b = .invalid ∧ lost) := by
  by_cases hold : ∃ st d, s.hasCopy j b st d
  · obtain ⟨st, d, hc⟩ := hold
    obtain ⟨rfl, rfl⟩ := hs.cohAt_of_hasCopy hc
    rcases (h _ _).2 hc with hkept | hlost
    · exact .inl (ht.cohAt_of_hasCopy hkept)
    · by_cases hinv : t.cohAt j b = .invalid
      · exact .inr ⟨hinv, hlost⟩
      · obtain ⟨hst, hd⟩ := hs.cohAt_of_hasCopy ((h _ _).1 (hasCopy_of_cohAt hinv))
        exact .inl ⟨hst.symm, hd.symm⟩
  · simp only [not_exists] at hold
    have hnew : ∀ st d, ¬ t.hasCopy j b st d := fun st d hc => hold st d ((h st d).1 hc)
    exact .inl (by simp only [State.cohAt, State.dataAt, lineEntry_eq_none hold, lineEntry_eq_none hnew, and_self])

end

end Sys2Proof.Machine

/-! PROOFS. What a local hit, a sibling that hands out its copy, and a fill each leave of a well-formed block
(spec/42_read_path.md R121 to R130). -/

namespace Sys2Proof.Machine

/-- A read changes the entry arrays and MEM, and nothing else. -/
structure ReadFrame (s t : State) : Prop where
  frame  : SameFrame s t
  devlog : t.devlog = s.devlog
  draws  : t.draws = s.draws

theorem ReadFrame.trans {s t u : State} (h : ReadFrame s t) (g : ReadFrame t u) : ReadFrame s u :=
  ⟨h.frame.trans g.frame, g.devlog.trans h.devlog, g.draws.trans h.draws⟩

section
variable {s t : State} {j k w : Nat} {a b : Addr} {c : CacheCfg} {cs : CacheSet} {d d' : List Byte} {lost : Prop}

theorem ReadFrame.params (h : ReadFrame s t) : t.params = s.params := h.frame.params

/-! ### The local hit (R121) -/

theorem localHit_readFrame (hh : localHit k a w s = .ok d t) : ReadFrame s t := by
  obtain ⟨hframe, hdev, -, hdraws⟩ := localHit_frame hh
  exact ⟨hframe, hdev, hdraws⟩

theorem localHit_sameSetsBut (hh : localHit k a w s = .ok d t) : s.sameSetsBut t k a := by
  obtain ⟨c, cs, e, ds, hl, -, -, -, rfl⟩ := localHit_ok hh
  exact putSet_sameSetsBut hl ds

theorem localHit_data (h : Inv s) (hw : s.lookup k a = some w) (hh : localHit k a w s = .ok d t) :
    d = s.dataAt k a := by
  obtain ⟨c, cs, e, ds, hl, he, -, rfl, -⟩ := localHit_ok hh
  rw [lookup_of_locate hl] at hw
  exact (h.setsOk.cohAt_of_hasCopy ⟨c, cs, hl, w, e, he, holds_of_find hw he, rfl, rfl⟩).2.symm

theorem localHit_set (h : Inv s) (hh : localHit k a w s = .ok d t) :
    ∃ cs ds, s.setAt k a = some cs ∧ t.setAt k a = some ds ∧ cs.movedToFront ds w ∧
      ds.ways.map Entry.content = cs.ways.map Entry.content := by
  obtain ⟨c, cs, e, ds, hl, -, ht, -, rfl⟩ := localHit_ok hh
  exact ⟨cs, ds, setAt_of_locate hl, setAt_of_locate (locate_putSet_same hl ds),
    touch_movedToFront (h.setOk hl).ring ht, touch_content ht⟩

/-- A hit keeps every copy of every line. -/
theorem localHit_keepsLine (h : Inv s) (hh : localHit k a w s = .ok d t) (j : Nat) (b : Addr) :
    s.keepsLine t j b False := by
  obtain ⟨c, cs, e, ds, hl, -, ht, -, rfl⟩ := localHit_ok hh
  obtain ⟨hmade, hrest⟩ := putSet_lineReplaced (h.geometry (locate_eq_some.1 hl).1) hl ((h.setOk hl).touch ht _).2
  refine fun st x => ⟨fun hc => ?_, fun hc => ?_⟩
  · by_cases hslot : j = k ∧ sameLine s.params.lineSize b a
    · obtain ⟨rfl, hline⟩ := hslot
      have hcopy := hmade st x (hasCopy_of_sameLine hline hc)
      exact hasCopy_of_sameLine hline.symm ((hasCopy_locate hl).2 hcopy)
    · exact hrest j b st x hslot hc
  · exact (putSet_hasCopy (lost := fun _ => False) hl (fun _ hu => .inl (hasCopy_touch ht hu)) hc).imp_right
      fun hlost => hlost.2.2

/-! ### The sibling's copy (R124, R127) -/

theorem siblingCopy_readFrame (hc : siblingCopy j a s = .ok d t) : ReadFrame s t := by
  obtain ⟨hframe, hdev, hdraws⟩ := siblingCopy_frame hc
  exact ⟨hframe, hdev, hdraws⟩

/-- A sibling hands out the data of its copy, and the way of the copy is Shared afterwards; the rest of its set is as
it was. -/
theorem siblingCopy_spec (h : Inv s) (hw : s.lookup j a = some w) (hc : siblingCopy j a s = .ok d t) :
    ∃ e, s.hasCopy j a e.state e.data ∧ d = e.data ∧
      ∃ c cs, s.locate j a = some (c, cs) ∧ cs.find (c.tag s.params.lineSize a) = some w ∧ cs.ways[w]? = some e ∧
        t.locate j a = some (c, cs.setCoh w .shared) := by
  obtain ⟨c, cs, w', e, hl, hf, he, rfl, hcase⟩ := siblingCopy_ok hc
  obtain rfl : w' = w := Option.some.inj (hf.symm.trans ((lookup_of_locate hl).symm.trans hw))
  have hh := holds_of_find hf he
  refine ⟨e, ⟨c, cs, hl, w', e, he, hh, rfl, rfl⟩, rfl, c, cs, hl, hf, he, ?_⟩
  rcases hcase with ⟨-, s1, hwb, rfl⟩ | ⟨hm, rfl⟩
  · obtain ⟨hframe, -, harrays, -⟩ := writeBack_frame hwb
    rw [← hframe.params]
    exact locate_putSet_same ((locate_congr hframe.params harrays j a).trans hl) _
  · rw [← shared_of_valid (isValid_iff.1 (holds_iff.1 hh).1) hm, setCoh_self he]
    exact hl

theorem siblingCopy_sameSetsBut (hc : siblingCopy j a s = .ok d t) : s.sameSetsBut t j a := by
  obtain ⟨c, cs, w, e, hl, -, -, -, ⟨-, s1, hwb, rfl⟩ | ⟨-, rfl⟩⟩ := siblingCopy_ok hc
  · obtain ⟨hframe, -, harrays, -⟩ := writeBack_frame hwb
    have hput := putSet_sameSetsBut ((locate_congr hframe.params harrays j a).trans hl) (cs.setCoh w .shared)
    rw [hframe.params] at hput
    exact hput.of_arrays hframe.params harrays
  · exact fun _ _ _ => rfl

theorem siblingCopy_sameMemOutside (h : Inv s) (hc : siblingCopy j a s = .ok d t) :
    s.sameMemOutside t (s.siblingStores j a) := by
  obtain ⟨c, cs, w, e, hl, hf, he, -, ⟨hm, s1, hwb, rfl⟩ | ⟨-, rfl⟩⟩ := siblingCopy_ok hc
  · rw [siblingStores_eq hl hf]
    exact sameMemOutside_putSet.2 (writeBack_sameMemOutside h hwb ((entry_of_locate hl w).trans he) hm)
  · exact sameMemOutside_of_mem_eq rfl _

/-- A Modified copy that is handed out stands in MEM (R124, R150). -/
theorem siblingCopy_stored (h : Inv s) (hm : s.cohAt j a = .modified) (hc : siblingCopy j a s = .ok d t) {x : Nat}
    {v : Byte} (hx : d[x]? = some v) :
    Memory.read t.mem ((lineBase s.params.lineSize a).toNat % s.params.storeSize + x) = v := by
  obtain ⟨c, cs, w, e, hl, hf, he, rfl, hcase⟩ := siblingCopy_ok hc
  have hh := holds_of_find hf he
  have hcfg := (locate_eq_some.1 hl).1
  have hg := h.geometry hcfg
  have hst := (h.setsOk.cohAt_of_hasCopy ⟨c, cs, hl, w, e, he, hh, rfl, rfl⟩).1
  rcases hcase with ⟨-, s1, hwb, rfl⟩ | ⟨hclean, -⟩
  · have hentry := (entry_of_locate hl w).trans he
    rw [writeBack_completes h hcfg hentry, (holds_iff.1 hh).2, addressOfTagAndIndexIsLineBase _ _ _ hg] at hwb
    cases hwb
    have hlt := h.entry_data_length hcfg hentry ▸ (List.getElem?_eq_some_iff.1 hx).1
    have hfit := line_fits h.storeLegal (lineSize_of_geometryLegal hg) (lineBase_mod s.params.lineSize a)
    exact memWrite_read_same h.mem hx (by omega)
  · exact absurd (hst.symm.trans hm) hclean

/-- Handing out a copy changes no other line. -/
theorem siblingCopy_keepsLine (h : Inv s) (hne : ¬ sameLine s.params.lineSize b a)
    (hc : siblingCopy j a s = .ok d t) (i : Nat) : s.keepsLine t i b False := by
  obtain ⟨c, cs, w, e, hl, hf, -, -, ⟨-, s1, hwb, rfl⟩ | ⟨-, rfl⟩⟩ := siblingCopy_ok hc
  · obtain ⟨hframe, -, harrays, -⟩ := writeBack_frame hwb
    have hl1 : s1.locate j a = some (c, cs) := (locate_congr hframe.params harrays j a).trans hl
    have hg := h.geometry (locate_eq_some.1 hl).1
    have hset := (h.setOk hl).setCoh hf .shared
    have hsame := keepsLine_of_same (j := i) (b := b) hframe.params harrays False
    rw [← hframe.params] at hg hf hne hset ⊢
    have hput : s1.keepsLine (s1.putSet j (c.index s1.params.lineSize a) (cs.setCoh w .shared)) i b False :=
      fun st x => ⟨(putSet_lineReplaced hg hl1 hset.2).2 i b st x fun hslot => hne hslot.2,
        fun hcopy => .inl (putSet_keepsLine hg hl1 hf (modifyWay_keepsBut cs w _) hne hcopy)⟩
    exact (hsame.trans hput).mono or_self_iff.1
  · exact keepsLine_of_same rfl rfl _

/-! ### The fill (R125, R126, R129, R130) -/

/-- What placing the line of a with data d in cache k leaves of a well-formed block. -/
structure Filled (s t : State) (k : Nat) (a : Addr) (d : List Byte) : Prop where
  inv    : Inv t
  frame  : ReadFrame s t
  placed : s.placed t k a d
  sets   : s.sameSetsBut t k a
  stores : s.sameMemOutside t (s.placeStores k a)
  copies : s.lineReplaced t k a fun st x => st = .shared ∧ x = d
  lines  : ∀ j b, ¬ sameLine s.params.lineSize b a → s.keepsLine t j b (j = k ∧ s.displaced k a b)

theorem place_readFrame (hp : place k a d s = .ok d' t) : ReadFrame s t := by
  obtain ⟨hframe, hdev, hdraws⟩ := place_frame hp
  exact ⟨hframe, hdev, hdraws⟩

theorem place_placed (h : Inv s) (hmiss : s.lookup k a = none) (hp : place k a d s = .ok d' t) :
    s.placed t k a d := by
  obtain ⟨c, cs, v, s1, ds, hl, hv, hev, ht, -, rfl⟩ := place_ok hp
  obtain ⟨hframe, -, harrays, -⟩ := evict_frame hev
  obtain ⟨e, hentry, -⟩ := evict_ok hev
  rw [entry_of_locate hl] at hentry
  rw [lookup_of_locate hl] at hmiss
  have hput := locate_putSet_same ((locate_congr hframe.params harrays k a).trans hl) ds
  rw [hframe.params] at hput
  obtain ⟨f, hf, hst, -, hd⟩ := touch_fill_way ht hentry
  refine ⟨cs, ds, v, f, setAt_of_locate hl, setAt_of_locate hput, hv, touch_fill_sameBut ht,
    touch_fill_movedToFront (h.setOk hl).ring ht, hf, hst, hd, ?_⟩
  rw [lookup_of_locate hput, putSet_params, hframe.params]
  exact touch_fill_find hmiss ht hentry

theorem place_sameSetsBut (hp : place k a d s = .ok d' t) : s.sameSetsBut t k a := by
  obtain ⟨c, cs, v, s1, ds, hl, -, hev, -, -, rfl⟩ := place_ok hp
  obtain ⟨hframe, -, harrays, -⟩ := evict_frame hev
  have hput := putSet_sameSetsBut ((locate_congr hframe.params harrays k a).trans hl) ds
  rw [hframe.params] at hput
  exact hput.of_arrays hframe.params harrays

theorem place_sameMemOutside (h : Inv s) (hp : place k a d s = .ok d' t) :
    s.sameMemOutside t (s.placeStores k a) := by
  obtain ⟨c, cs, v, s1, ds, hl, hv, hev, -, -, rfl⟩ := place_ok hp
  rw [placeStores_eq hl hv]
  exact sameMemOutside_putSet.2 (evict_sameMemOutside h hev)

/-- A copy that a fill does away with stood in the slot the fill reused (R114). -/
theorem place_keeps_or_displaces (h : Inv s) (hp : place k a d s = .ok d' t) {st : Coh} {x : List Byte}
    (hc : s.hasCopy j b st x) : t.hasCopy j b st x ∨ (j = k ∧ s.displaced k a b) := by
  obtain ⟨c, cs, v, s1, ds, hl, hv, hev, ht, -, rfl⟩ := place_ok hp
  obtain ⟨hframe, -, harrays, -⟩ := evict_frame hev
  have hl1 : s1.locate k a = some (c, cs) := (locate_congr hframe.params harrays k a).trans hl
  have hkeep : cs.keepsBut ds v := CacheSet.keepsBut.touch (modifyWay_keepsBut cs v _) ht
  have hput := putSet_hasCopy hl1 (fun u => hkeep u st x) ((hasCopy_congr hframe.params harrays).2 hc)
  rw [hframe.params] at hput
  refine hput.imp_right ?_
  rintro ⟨rfl, hindex, e, he, hh, -, -⟩
  obtain ⟨hcfg, hset⟩ := locate_eq_some.1 hl
  have hlb : s.locate j b = some (c, cs) := locate_eq_some.2 ⟨hcfg, hindex ▸ hset⟩
  have hfind := find_of_holds he hh (tagsUnique_iff.1 (h.setOk hl).tags _ v e he hh)
  exact ⟨rfl, c, v, hcfg, (lookup_of_locate hlb).trans hfind, hindex ▸ victimSlot_eq hl hv⟩

/-- A fill with a line that the cache lacks and that every other cache holds Shared with the same data. -/
theorem place_filled (h : Inv s) (hmiss : s.lookup k a = none) (hshared : s.sharedAs a d)
    (hd : d.length = s.params.lineSize) (hp : place k a d s = .ok d' t) : d' = d ∧ Filled s t k a d := by
  obtain ⟨hinv, hdata, hcopies⟩ := place_inv h hmiss hshared hd hp
  exact ⟨hdata, hinv, place_readFrame hp, place_placed h hmiss hp, place_sameSetsBut hp, place_sameMemOutside h hp,
    hcopies, fun j b hne st x => ⟨hcopies.2 j b st x fun hslot => hne hslot.2, place_keeps_or_displaces h hp⟩⟩

/-- What a fill finds and leaves in its set depends on what the address selects before and after. -/
theorem placed_of_locate_eq {s' t' : State} (hp : t'.params = t.params) (hs : s'.locate k a = s.locate k a)
    (ht : t'.locate k a = t.locate k a) (h : s.placed t k a d) : s'.placed t' k a d := by
  simpa only [State.placed, setAt_of_locate_eq hs, setAt_of_locate_eq ht, lookup_of_locate_eq hp ht] using h

theorem displaced_of_locate_eq (hp : t.params = s.params) (hl : ∀ b, t.locate k b = s.locate k b) :
    t.displaced k a b ↔ s.displaced k a b := by
  simp only [State.displaced, hp, lookup_of_locate_eq hp (hl b), victimSlot_of_locate_eq hp (hl a)]

end

end Sys2Proof.Machine

/-! PROOFS. RDLINE (spec/42_read_path.md R120 to R134): read_line case by case, and what each leaves of a well-formed
block. -/

namespace Sys2Proof.Machine

section
variable {s s1 t : State} {i j k l m n w : Nat} {a b : Addr} {c : CacheCfg} {d : List Byte}

/-! ### The line in MEM (R129) -/

/-- The L bytes of the line of a in MEM. -/
def State.storedLine (s : State) (a : Addr) : List Byte :=
  (List.range s.params.lineSize).map fun j =>
    Memory.read s.mem ((lineBase s.params.lineSize a).toNat % s.params.storeSize + j)

/-- A line read from the store is not truncated, so it draws no free byte (R53, R54). -/
theorem memRead_line (h : Inv s) (a : Addr) :
    memRead (lineBase s.params.lineSize a) s.params.lineSize s = (s.storedLine a, s) := by
  obtain ⟨c, hg, -⟩ := h.exists_geometry
  have hfit := line_fits h.storeLegal (lineSize_of_geometryLegal hg) (lineBase_mod s.params.lineSize a)
  refine Prod.ext (List.ext_getElem? fun j => ?_) ?_
  · by_cases hj : j < s.params.lineSize
    · rw [memRead_getElem? hj (by omega)]
      simp [State.storedLine, hj]
    · rw [List.getElem?_eq_none (by rw [memRead_length]; omega),
        List.getElem?_eq_none (by simp [State.storedLine]; omega)]
  · have hall : s.params.lineSize - fitting s.params.storeSize
        ((lineBase s.params.lineSize a).toNat % s.params.storeSize) s.params.lineSize = 0 := by
      rw [fitting]
      omega
    simp only [memRead, hall, Nat.add_zero]

/-! ### VIEW of a line (R46) -/

theorem Inv.lineView_eq (h : Inv s) (hlen : d.length = s.params.lineSize)
    (hd : ∀ x, sameLine s.params.lineSize x a → d[offset s.params.lineSize x]? = some (s.view x)) :
    s.lineView a = d := by
  obtain ⟨c, hg, hcap⟩ := h.exists_geometry
  refine List.ext_getElem? fun j => ?_
  by_cases hj : j < s.params.lineSize
  · obtain ⟨hline, hoff⟩ := lineByte_slot hg hcap a hj
    have hbyte := hd _ hline
    rw [hoff] at hbyte
    simp [State.lineView, hj, hbyte]
  · rw [List.getElem?_eq_none (by simp [State.lineView]; omega), List.getElem?_eq_none (by omega)]

/-- VIEW of a line that a cache holds is the data of the copy (R45, R46). -/
theorem Inv.lineView_of_hasCopy (h : Inv s) {st : Coh} (hc : s.hasCopy k a st d) : s.lineView a = d := by
  refine h.lineView_eq (h.data_length hc) fun x hx => ?_
  have hcx := hasCopy_of_sameLine hx.symm hc
  rcases h.view_cases x with ⟨_, _, d', hc', hview⟩ | ⟨hun, -⟩
  · rwa [← h.data_eq hcx hc']
  · exact absurd hcx (hun k st d)

/-- VIEW of a line that no cache holds is the line in MEM (R46). -/
theorem Inv.lineView_of_uncached (h : Inv s) (hun : s.uncached a) : s.lineView a = s.storedLine a := by
  obtain ⟨c, hg, -⟩ := h.exists_geometry
  refine h.lineView_eq (by simp [State.storedLine]) fun x hx => ?_
  rcases h.view_cases x with ⟨_, _, _, hc, -⟩ | ⟨-, hview⟩
  · exact absurd (hasCopy_of_sameLine hx hc) (hun _ _ _)
  · rw [hview, store_index_of_sameLine hg h.storeLegal hx]
    simp [State.storedLine, offset_lt hg x]

/-! ### The sibling that serves a miss (R122, R123) -/

/-- In REG order the first sibling that holds the line is the one of lowest id (R31). -/
theorem Inv.findSibling_eq_some (h : Inv s) :
    findSibling s k a = some j ↔
      j ∈ s.reg ∧ j ≠ k ∧ (∃ w, s.lookup j a = some w) ∧ ∀ l < j, l ≠ k → s.lookup l a = none := by
  rw [findSibling, h.setsOk.reg, List.find?_range_eq_some]
  simp only [Bool.and_eq_true, decide_eq_true_eq, Option.isSome_iff_exists, Bool.not_eq_true',
    Bool.and_eq_false_imp, Option.isSome_eq_false_iff, Option.isNone_iff_eq_none]
  tauto

theorem lookup_none_of_uncached (hun : s.uncached a) (k : Nat) : s.lookup k a = none :=
  lookup_eq_none_iff.2 (hun k)

theorem findSibling_none_of_uncached (hun : s.uncached a) (k : Nat) : findSibling s k a = none :=
  findSibling_none.2 fun j _ _ => lookup_none_of_uncached hun j

theorem uncached_of_reg (h : Inv s) (hmiss : ∀ j ∈ s.reg, s.lookup j a = none) : s.uncached a :=
  fun _ _ _ hc => not_hasCopy_of_lookup_none (hmiss _ (hasCopy_mem_reg h.setsOk hc)) hc

/-! ### read_line on a miss (R122 to R130) -/

/-- On a sibling hit the copy is handed out, and the line then placed (R123 to R127). -/
theorem readLine_of_sibling (h : Inv s) (hmiss : s.lookup k a = none) (hj : findSibling s k a = some j)
    (hr : readLine k a s = .ok d t) : ∃ s1, siblingCopy j a s = .ok d s1 ∧ Filled s1 t k a d := by
  simp only [readLine, levels, readLineN, hmiss, hj] at hr
  obtain ⟨d1, s1, hcopy, hp⟩ := bind_eq_ok.1 hr
  obtain ⟨hinv1, hlen, hshared, -⟩ := siblingCopy_inv h hcopy
  have hparams := (siblingCopy_readFrame hcopy).params
  have hkj : k ≠ j := (findSibling_some hj).2.1.symm
  have hmiss1 := lookup_of_locate_eq hparams ((siblingCopy_sameSetsBut hcopy).locate hparams hkj a)
  obtain ⟨rfl, hfill⟩ := place_filled hinv1 (hmiss1.trans hmiss) hshared (hparams ▸ hlen) hp
  exact ⟨s1, hcopy, hfill⟩

/-- A miss everywhere in a terminal cache is one fill with the line in MEM (R129, R130). -/
theorem readLineN_of_terminal (h : Inv s) (hun : s.uncached a) (hc : s.params.caches[k]? = some c)
    (hterm : c.next = .terminal) (hr : readLineN (n + 1) k a s = .ok d t) :
    d = s.storedLine a ∧ Filled s t k a d := by
  simp only [readLineN, lookup_none_of_uncached hun, findSibling_none_of_uncached hun, hc, hterm, memRead_line h] at hr
  obtain ⟨rfl, hfill⟩ := place_filled h (lookup_none_of_uncached hun k) (hun.sharedAs _)
    (by simp [State.storedLine]) hr
  exact ⟨rfl, hfill⟩

theorem readLineN_nextLevel_eq (hun : s.uncached a) (hc : s.params.caches[k]? = some c) (hm : c.next = .nextLevel m)
    (n : Nat) : readLineN (n + 1) k a s = (readLineN n m a s).bind fun d s1 => place k a d s1 := by
  simp only [readLineN, lookup_none_of_uncached hun, findSibling_none_of_uncached hun, hc, hm]

/-- A miss everywhere in a cache with a next level fills first that one and then the cache (R128). -/
theorem readLine_of_nextLevel (h : Inv s) (hun : s.uncached a) (hc : s.params.caches[k]? = some c)
    (hm : c.next = .nextLevel m) (hr : readLine k a s = .ok d t) :
    d = s.storedLine a ∧ k ≠ m ∧ ∃ s1, Filled s s1 m a d ∧ Filled s1 t k a d := by
  rw [readLine, levels, readLineN_nextLevel_eq hun hc hm] at hr
  obtain ⟨d1, s1, hnext, hp⟩ := bind_eq_ok.1 hr
  obtain ⟨cm, hcm, hterm⟩ := h.next_terminal hc hm
  obtain ⟨rfl, hfill1⟩ := readLineN_of_terminal h hun hcm hterm hnext
  have hparams := hfill1.frame.params
  have hkm : k ≠ m := by
    rintro rfl
    obtain rfl : cm = c := Option.some.inj (hcm.symm.trans hc)
    simp [hterm] at hm
  have hmiss1 := lookup_of_locate_eq hparams (hfill1.sets.locate hparams hkm a)
  obtain ⟨rfl, hfill⟩ := place_filled hfill1.inv (hmiss1.trans (lookup_none_of_uncached hun k))
    (hun.sharedAs_of_fill hfill1.copies) (by simp [State.storedLine, hparams]) hp
  exact ⟨rfl, hkm, s1, hfill1, hfill⟩

theorem readStoresN_of_terminal (hun : s.uncached a) (hc : s.params.caches[k]? = some c) (hterm : c.next = .terminal) :
    readStoresN (n + 1) k a s = s.placeStores k a := by
  simp only [readStoresN, lookup_none_of_uncached hun, findSibling_none_of_uncached hun, hc, hterm]

theorem readStoresN_of_nextLevel (hun : s.uncached a) (hc : s.params.caches[k]? = some c) (hm : c.next = .nextLevel m)
    (n : Nat) : readStoresN (n + 1) k a s = readStoresN n m a s ++ s.placeStores k a := by
  simp only [readStoresN, lookup_none_of_uncached hun, findSibling_none_of_uncached hun, hc, hm]

theorem readStores_of_nextLevel (h : Inv s) (hun : s.uncached a) (hc : s.params.caches[k]? = some c)
    (hm : c.next = .nextLevel m) : readStores k a s = s.placeStores m a ++ s.placeStores k a := by
  obtain ⟨cm, hcm, hterm⟩ := h.next_terminal hc hm
  rw [readStores, levels, readStoresN_of_nextLevel hun hc hm, readStoresN_of_terminal hun hcm hterm]

theorem readStores_of_sibling (hmiss : s.lookup k a = none) (hj : findSibling s k a = some j) :
    readStores k a s = s.siblingStores j a ++ s.placeStores k a := by
  simp only [readStores, levels, readStoresN, hmiss, hj]

end

end Sys2Proof.Machine

/-! PROOFS. The obligations on RDLINE (spec/42_read_path.md R120 to R134): what it answers, what it fills, and which
lines it displaces. -/

namespace Sys2Proof.Machine

section
variable {s s1 t u : State} {i j k m w : Nat} {a b : Addr} {c : CacheCfg} {d : List Byte}

/-! ### The miss everywhere (R128 to R131) -/

/-- What a read leaves of a well-formed block in which no cache held the line. -/
structure MissFilled (s t : State) (k : Nat) (a : Addr) : Prop where
  frame  : ReadFrame s t
  placed : s.placed t k a (s.storedLine a)
  next   : ∀ c ∈ s.params.caches[k]?, ∀ m, c.next = .nextLevel m → s.placed t m a (s.storedLine a)
  sets   : ∀ l i, ¬ s.isSlotOf l i k a →
    (∀ c ∈ s.params.caches[k]?, ∀ m, c.next = .nextLevel m → ¬ s.isSlotOf l i m a) → t.getSet l i = s.getSet l i
  stores : s.sameMemOutside t (readStores k a s)
  lines  : ∀ j b, ¬ sameLine s.params.lineSize b a → s.keepsLine t j b (s.displaced j a b)

/-- In a terminal cache the fill of the cache is all there is. -/
theorem Filled.missFilled (hfill : Filled s t k a (s.storedLine a)) (hun : s.uncached a)
    (hc : s.params.caches[k]? = some c) (hterm : c.next = .terminal) : MissFilled s t k a where
  frame := hfill.frame
  placed := hfill.placed
  next := fun c' hc' m hm => by
    obtain rfl : c = c' := Option.some.inj (hc.symm.trans hc')
    simp [hterm] at hm
  sets := fun l i hk _ => hfill.sets l i hk
  stores := by
    rw [readStores, levels, readStoresN_of_terminal hun hc hterm]
    exact hfill.stores
  lines := fun j b hne => (hfill.lines j b hne).mono fun ⟨hjk, hlost⟩ => hjk ▸ hlost

/-- Two fills, that of the next level m first: each finds its set as the read found it, and the second leaves the set of
the first alone. -/
theorem Filled.missFilled_of_next (hfill1 : Filled s s1 m a (s.storedLine a)) (hfill : Filled s1 t k a (s.storedLine a))
    (h : Inv s) (hun : s.uncached a) (hc : s.params.caches[k]? = some c) (hm : c.next = .nextLevel m) (hkm : k ≠ m) :
    MissFilled s t k a := by
  have hp1 := hfill1.frame.params
  have hlk := fun b => hfill1.sets.locate hp1 hkm b
  have hnext : ∀ c' ∈ s.params.caches[k]?, ∀ m', c'.next = .nextLevel m' → m' = m := fun c' hc' m' hm' => by
    obtain rfl : c = c' := Option.some.inj (hc.symm.trans hc')
    simpa [hm] using hm'.symm
  exact {
    frame := hfill1.frame.trans hfill.frame
    placed := placed_of_locate_eq rfl (hlk a).symm rfl hfill.placed
    next := fun c' hc' m' hm' => by
      rw [hnext c' hc' m' hm']
      have hlm := hfill.sets.locate hfill.frame.params (Ne.symm hkm) a
      exact placed_of_locate_eq hfill.frame.params rfl hlm hfill1.placed
    sets := fun l i hk hm' =>
      (hfill.sets l i (mt (isSlotOf_congr hp1).1 hk)).trans (hfill1.sets l i (hm' c hc m hm))
    stores := by
      rw [readStores_of_nextLevel h hun hc hm, ← placeStores_of_locate_eq hp1 (hlk a)]
      exact hfill1.stores.trans hp1 hfill.stores
    lines := fun j b hne => ((hfill1.lines j b hne).trans (hfill.lines j b (hp1 ▸ hne))).mono <| by
      rintro (⟨rfl, hlost⟩ | ⟨rfl, hlost⟩)
      · exact hlost
      · exact (displaced_of_locate_eq hp1 hlk).1 hlost }

theorem readLine_of_uncached (h : Inv s) (hk : k < s.params.nCaches) (hun : s.uncached a)
    (hr : readLine k a s = .ok d t) : d = s.storedLine a ∧ MissFilled s t k a := by
  have hc : s.params.caches[k]? = some s.params.caches[k] := List.getElem?_eq_getElem hk
  cases hnext : s.params.caches[k].next with
  | terminal =>
    obtain ⟨rfl, hfill⟩ := readLineN_of_terminal h hun hc hnext hr
    exact ⟨rfl, hfill.missFilled hun hc hnext⟩
  | nextLevel m =>
    obtain ⟨rfl, hkm, s1, hfill1, hfill⟩ := readLine_of_nextLevel h hun hc hnext hr
    exact ⟨rfl, hfill1.missFilled_of_next hfill h hun hc hnext hkm⟩

/-! ### The lines a read displaces (R133) -/

theorem readLine_of_hit (hw : s.lookup k a = some w) : readLine k a s = localHit k a w s := by
  simp only [readLine, levels, readLineN, hw]

/-- read_line changes no other line, but that it displaces the one in the victim slot of each cache it fills. -/
theorem readLine_keepsLine (h : Inv s) (hk : k < s.params.nCaches) (hr : readLine k a s = .ok d t)
    (hne : ¬ sameLine s.params.lineSize b a) (j : Nat) : s.keepsLine t j b (s.displaced j a b) := by
  cases hw : s.lookup k a with
  | some w =>
    rw [readLine_of_hit hw] at hr
    exact (localHit_keepsLine h hr j b).mono False.elim
  | none =>
    cases hi : findSibling s k a with
    | some i =>
      obtain ⟨s1, hcopy, hfill⟩ := readLine_of_sibling h hw hi hr
      have hp1 := (siblingCopy_readFrame hcopy).params
      have hlk := (siblingCopy_sameSetsBut hcopy).locate hp1 (findSibling_some hi).2.1.symm
      refine ((siblingCopy_keepsLine h hne hcopy j).trans (hfill.lines j b (hp1 ▸ hne))).mono ?_
      rintro (hfalse | ⟨rfl, hlost⟩)
      · exact hfalse.elim
      · exact (displaced_of_locate_eq hp1 hlk).1 hlost
    | none => exact (readLine_of_uncached h hk (uncached_of_miss h hw hi) hr).2.lines j b hne

/-! ### The request -/

/-- An RDLINE that can be performed answers what read_line does. -/
theorem Ready.rdline {k : Cid} (h : Ready s (.rdline k)) :
    ∃ d u, readLine k.toNat s.req.addr s = .ok d u ∧ exec (.rdline k) s = .next (u.respond (Response.line d)) := by
  obtain ⟨d, u, hr⟩ := readLine_completes (k := k.toNat) h.inv (toNat_lt_of_wellFormed h.cache) s.req.addr
  exact ⟨d, u, hr, by simp only [exec, execRdline, hr, bind_ok, Res.finish]⟩

theorem ReadFrame.respond (h : ReadFrame s u) (r : Response) :
    (u.respond r).responses = s.responses ++ [r] ∧ s.sameControl (u.respond r) ∧
      (u.respond r).devlog = s.devlog :=
  ⟨congrArg (· ++ [r]) h.frame.responses,
    ⟨h.frame.params, h.frame.reg, h.frame.fault, h.frame.queue, h.frame.req, h.draws⟩, h.devlog⟩

theorem outside_congr (hp : t.params = s.params) {lines : List Addr} {x : Nat} :
    t.outside lines x ↔ s.outside lines x := by
  simp only [State.outside, hp]

/-- A set that a does not index in any cache is not the one it indexes in cache k. -/
theorem not_isSlotOf (hc : s.params.caches[k]? = some c)
    (hother : ∀ x ∈ [a], ∀ c ∈ s.params.caches[j]?, c.index s.params.lineSize x ≠ i) : ¬ s.isSlotOf j i k a := by
  rw [isSlotOf_iff hc]
  rintro ⟨rfl, hindex⟩
  exact hother a List.mem_cons_self c hc hindex

end

/-- Settles O32: the hit is a touch of the way that holds the line. -/
theorem rdlineLocalHit : Obligations.RdlineLocalHit := by
  intro s k w hready hw
  obtain ⟨d, u, hr, hexec⟩ := hready.rdline
  have hinv := (readLine_inv hready.inv hr).1
  rw [readLine_of_hit hw] at hr
  obtain rfl : d = s.dataAt k.toNat s.req.addr := localHit_data hready.inv hw hr
  obtain ⟨hresp, hcontrol, hdev⟩ :=
    (localHit_readFrame hr).respond (Response.line (s.dataAt k.toNat s.req.addr))
  obtain ⟨-, -, hmem, -⟩ := localHit_frame hr
  have hset := localHit_set hready.inv hr
  have hsets := localHit_sameSetsBut hr
  have hlines : ∀ j a, u.cohAt j a = s.cohAt j a ∧ u.dataAt j a = s.dataAt j a := fun j a =>
    ((localHit_keepsLine hready.inv hr j a).cohAt hready.inv.setsOk hinv.setsOk).resolve_right And.right
  exact ⟨_, hexec, hresp, hcontrol, hmem, hdev, hlines, hset, hsets⟩

/-- Settles O33: the sibling hands out its copy (`siblingCopy_spec`), and the fill then finds its own set and its victim
as they were. -/
theorem rdlineSiblingHit : Obligations.RdlineSiblingHit := by
  intro s k j w hready hmiss hj hjk hw hfirst
  have h := hready.inv
  obtain ⟨d, u, hr, hexec⟩ := hready.rdline
  obtain ⟨s1, hcopy, hfill⟩ :=
    readLine_of_sibling h hmiss (h.findSibling_eq_some.2 ⟨hj, hjk, ⟨w, hw⟩, hfirst⟩) hr
  have hframe := siblingCopy_readFrame hcopy
  have hsets := siblingCopy_sameSetsBut hcopy
  have hp := hframe.params
  have hlk := hsets.locate hp (Ne.symm hjk) s.req.addr
  have hlj := hfill.sets.locate hfill.frame.params hjk s.req.addr
  have hstores := hfill.stores
  rw [placeStores_of_locate_eq hp hlk] at hstores
  obtain ⟨e, hcopyj, hd, c, cs, hl, -, -, hl1⟩ := siblingCopy_spec h hw hcopy
  obtain rfl : d = s.dataAt j s.req.addr := hd.trans (h.setsOk.cohAt_of_hasCopy hcopyj).2.symm
  obtain ⟨hresp, hcontrol, hdev⟩ := (hframe.trans hfill.frame).respond (Response.line (s.dataAt j s.req.addr))
  refine ⟨_, hexec, hresp, hcontrol, hdev, placed_of_locate_eq rfl hlk.symm rfl hfill.placed,
    ⟨cs, setAt_of_locate hl, setAt_of_locate (hlj.trans hl1)⟩, fun l i hnk hnj => ?_,
    (siblingCopy_sameMemOutside h hcopy).trans hp hstores, fun hm x b hb hout => ?_⟩
  · exact (hfill.sets l i (mt (isSlotOf_congr hp).1 hnk)).trans (hsets l i hnj)
  · exact (hstores _ ((outside_congr hp).2 hout)).trans (siblingCopy_stored h hm hcopy hb)

/-- Settles O34: one fill with the line in MEM, or two (`readLine_of_uncached`). -/
theorem rdlineMissEverywhere : Obligations.RdlineMissEverywhere := by
  intro s k hready hmiss
  obtain ⟨d, u, hr, hexec⟩ := hready.rdline
  obtain ⟨rfl, hfill⟩ := readLine_of_uncached hready.inv (toNat_lt_of_wellFormed hready.cache)
    (uncached_of_reg hready.inv hmiss) hr
  obtain ⟨hresp, hcontrol, hdev⟩ := hfill.frame.respond (Response.line (s.storedLine s.req.addr))
  exact ⟨_, hexec, hresp, hcontrol, hdev, hfill.placed, hfill.next, hfill.sets, hfill.stores⟩

/-- A line that was placed in a cache is valid there (R126, R130). -/
theorem State.placed.cohAt {s t : State} {k : Nat} {a : Addr} {d : List Byte} (h : s.placed t k a d) (ht : SetsOk t) :
    t.cohAt k a ≠ .invalid := by
  obtain ⟨_, _, v, _, -, -, -, -, -, -, -, -, hlookup⟩ := h
  obtain ⟨st, x, hc⟩ := lookup_hasCopy hlookup
  rw [(ht.cohAt_of_hasCopy hc).1]
  exact hasCopy_ne_invalid hc

/-- Settles O35: VIEW of the line is the data of the copy that serves a hit (O32, O33), or the line in MEM on a miss
everywhere (O34). -/
theorem rdlineReturnsTheCoherentLine : Obligations.RdlineReturnsTheCoherentLine := by
  intro s k hready
  have h := hready.inv
  have hc := List.getElem?_eq_getElem (toNat_lt_of_wellFormed hready.cache)
  have hinv : ∀ t, exec (.rdline k) s = .next t → SetsOk t := fun t hexec => by
    obtain ⟨u, r, hu, rfl⟩ := exec_next hexec
    exact (respond_inv (hu.inv h) r).setsOk
  have hview : ∀ {j w}, s.lookup j s.req.addr = some w → s.lineView s.req.addr = s.dataAt j s.req.addr :=
    fun hw => by
      obtain ⟨st, d, hcopy⟩ := lookup_hasCopy hw
      rw [h.lineView_of_hasCopy hcopy, (h.setsOk.cohAt_of_hasCopy hcopy).2]
  cases hw : s.lookup k.toNat s.req.addr with
  | some w =>
    obtain ⟨t, hexec, hresp, hcontrol, hmem, hdev, hlines, -, hsets⟩ := rdlineLocalHit s k w hready hw
    refine ⟨t, hexec, by rw [hview hw]; exact hresp, ?_, hcontrol, hdev,
      fun j i hother => hsets j i (not_isSlotOf hc hother), sameMemOutside_of_mem_eq hmem _⟩
    obtain ⟨st, d, hcopy⟩ := lookup_hasCopy hw
    rw [(hlines _ _).1, (h.setsOk.cohAt_of_hasCopy hcopy).1]
    exact hasCopy_ne_invalid hcopy
  | none =>
    cases hj : findSibling s k.toNat s.req.addr with
    | some j =>
      obtain ⟨hjreg, hjk, ⟨w, hjw⟩, hfirst⟩ := h.findSibling_eq_some.1 hj
      obtain ⟨t, hexec, hresp, hcontrol, hdev, hplaced, -, hsets, hstores, -⟩ :=
        rdlineSiblingHit s k j w hready hw hjreg hjk hjw hfirst
      obtain ⟨cj, _, hl, -⟩ := lookup_eq_some.1 hjw
      refine ⟨t, hexec, by rw [hview hjw]; exact hresp, hplaced.cohAt (hinv t hexec), hcontrol, hdev,
        fun l i hother => hsets l i (not_isSlotOf hc hother) (not_isSlotOf (locate_eq_some.1 hl).1 hother), ?_⟩
      rwa [readStores_of_sibling hw hj]
    | none =>
      have hun := uncached_of_miss h hw hj
      obtain ⟨t, hexec, hresp, hcontrol, hdev, hplaced, -, hsets, hstores⟩ :=
        rdlineMissEverywhere s k hready fun j _ => lookup_none_of_uncached hun j
      refine ⟨t, hexec, by rw [h.lineView_of_uncached hun]; exact hresp, hplaced.cohAt (hinv t hexec), hcontrol, hdev,
        fun l i hother => hsets l i (not_isSlotOf hc hother) fun c hc' m hm => ?_, hstores⟩
      obtain ⟨cm, hcm, -⟩ := h.next_terminal hc' hm
      exact not_isSlotOf hcm hother

/-- Settles O36, by the lines read_line keeps. -/
theorem rdlineDisplacesOnlyTheVictim : Obligations.RdlineDisplacesOnlyTheVictim := by
  intro s t k hready hexec j b hne
  obtain ⟨d, u, hr, hnext⟩ := hready.rdline
  obtain rfl : u.respond (Response.line d) = t := Host.Outcome.next.inj (hnext.symm.trans hexec)
  obtain ⟨c, hg, -⟩ := hready.inv.exists_geometry
  have hkept := readLine_keepsLine hready.inv (toNat_lt_of_wellFormed hready.cache) hr
    (mt (lineBase_eq_iff hg).2 hne) j
  exact hkept.cohAt hready.inv.setsOk (readLine_inv hready.inv hr).1.setsOk

end Sys2Proof.Machine

/-! PROOFS. The lines a GET or PUT displaces (spec/42_read_path.md R133; spec/43_write_path.md R142): byte by byte, only
a line in a set that the byte's address indexes. -/

namespace Sys2Proof.Machine

section
variable {s t : State} {i : Instr} {j k n : Nat} {a b x : Addr}

/-- Addresses x and b index one set of cache j. -/
def State.sharesSet (s : State) (j : Nat) (b x : Addr) : Prop :=
  ∃ c ∈ s.params.caches[j]?, c.index s.params.lineSize b = c.index s.params.lineSize x

/-- A line that a fill with the line of a displaces stands in the set a indexes. -/
theorem State.displaced.sharesSet (h : s.displaced j a b) : s.sharesSet j b a := by
  obtain ⟨c, w, hc, -, hvictim⟩ := h
  refine ⟨c, hc, ?_⟩
  cases hl : s.locate j a with
  | none => simp [State.victimSlot, hl] at hvictim
  | some y =>
    obtain ⟨c', cs⟩ := y
    obtain rfl : c' = c := Option.some.inj ((locate_eq_some.1 hl).1.symm.trans hc)
    obtain ⟨v, -, hslot⟩ := Option.map_eq_some_iff.1 (by simpa only [State.victimSlot, hl] using hvictim)
    exact (Prod.mk.inj hslot).1.symm

theorem sharesSet_congr (hp : t.params = s.params) : t.sharesSet j b x ↔ s.sharesSet j b x := by
  simp only [State.sharesSet, hp]

/-- The read of the line of byte address a displaces lines of the set a indexes only. -/
theorem readBase_keepsLine {d : List Byte} (h : Inv s) (hk : k < s.params.nCaches)
    (hr : readLine k (lineBase s.params.lineSize a) s = .ok d t)
    (hne : lineBase s.params.lineSize b ≠ lineBase s.params.lineSize a) (j : Nat) :
    s.keepsLine t j b (s.sharesSet j b a) := by
  obtain ⟨c, hg, -⟩ := h.exists_geometry
  have hbase := sameLine_lineBase hg a
  have hother : ¬ sameLine s.params.lineSize b (lineBase s.params.lineSize a) := fun hline =>
    hne ((lineBase_eq_iff hg).2 (hline.trans hbase))
  refine (readLine_keepsLine h hk hr hother j).mono fun hlost => ?_
  obtain ⟨c, hc, hindex⟩ := hlost.sharesSet
  exact ⟨c, hc, hindex.trans (index_of_sameLine c hbase)⟩

theorem getByte_keepsLine {v : Byte} (h : Inv s) (hk : k < s.params.nCaches) (hg : getByte k a s = .ok v t)
    (hne : lineBase s.params.lineSize b ≠ lineBase s.params.lineSize a) (j : Nat) :
    s.keepsLine t j b (s.sharesSet j b a) := by
  obtain ⟨buf, hr, -⟩ := getByte_ok hg
  exact readBase_keepsLine h hk hr hne j

/-- put_byte calls a handler, or reads its line and then writes that line alone (R157, R158). -/
theorem putByte_keepsLine {v : Byte} {r : Unit} (h : Inv s) (hk : k < s.params.nCaches)
    (hp : putByte k a v s = .ok r t) (hne : lineBase s.params.lineSize b ≠ lineBase s.params.lineSize a) (j : Nat) :
    s.keepsLine t j b (s.sharesSet j b a) := by
  rcases putByte_ok hp with ⟨d, -, rfl⟩ | ⟨-, hp⟩
  · exact keepsLine_of_same rfl rfl _
  · obtain ⟨buf, s1, hr, hw⟩ := putByteCached_ok hp
    obtain ⟨hinv1, hlen⟩ := readLine_inv h hr
    have hparams := (readLineN_frame hr).1.params
    obtain ⟨c, hg, -⟩ := h.exists_geometry
    have hother : ¬ sameLine s1.params.lineSize b (lineBase s.params.lineSize a) := by
      rw [hparams]
      exact fun hline => hne ((lineBase_eq_iff hg).2 (hline.trans (sameLine_lineBase hg a)))
    obtain ⟨-, -, hrest⟩ := writeLine_hasCopy hinv1 (by rw [List.length_set, hparams, hlen]) hw
    have hwrite : s1.keepsLine t j b False := fun st y =>
      ⟨(hrest j b st y hother).1, fun hc => .inl ((hrest j b st y hother).2 hc)⟩
    exact ((readBase_keepsLine h hk hr hne j).trans hwrite).mono (Or.resolve_right · id)

/-! ### The bytes of an access -/

/-- A first byte and the rest of an access each displace lines of the sets their addresses index only. -/
theorem keepsLine_of_bytes {u : State} (hp : t.params = s.params) (h : s.keepsLine t j b (s.sharesSet j b a))
    (hrest : t.keepsLine u j b (∃ x ∈ accessBytes (a + 1) n, t.sharesSet j b x)) :
    s.keepsLine u j b (∃ x ∈ accessBytes a (n + 1), s.sharesSet j b x) := by
  refine (h.trans hrest).mono ?_
  rw [accessBytes_succ]
  rintro (hfirst | ⟨x, hx, hshare⟩)
  · exact ⟨a, List.mem_cons_self, hfirst⟩
  · exact ⟨x, List.mem_cons_of_mem _ hx, (sharesSet_congr hp).1 hshare⟩

theorem getBytes_keepsLine {bs : List Byte} (h : Inv s) (hk : k < s.params.nCaches)
    (hg : getBytes k a n s = .ok bs t)
    (hne : ∀ x ∈ accessBytes a n, lineBase s.params.lineSize b ≠ lineBase s.params.lineSize x) (j : Nat) :
    s.keepsLine t j b (∃ x ∈ accessBytes a n, s.sharesSet j b x) := by
  induction n generalizing a bs s with
  | zero =>
    simp only [getBytes] at hg
    cases hg
    exact keepsLine_of_same rfl rfl _
  | succ n ih =>
    rw [accessBytes_succ, List.forall_mem_cons] at hne
    obtain ⟨v, s1, bs1, hb, hbytes, -⟩ := getBytes_ok hg
    have hp := (getByte_frame hb).1.params
    exact keepsLine_of_bytes hp (getByte_keepsLine h hk hb hne.1 j)
      (ih (getByte_inv h hb) (hp ▸ hk) hbytes (hp ▸ hne.2))

theorem putBytes_keepsLine {bs : List Byte} {r : Unit} (h : Inv s) (hk : k < s.params.nCaches)
    (hput : putBytes k a bs s = .ok r t)
    (hne : ∀ x ∈ accessBytes a bs.length, lineBase s.params.lineSize b ≠ lineBase s.params.lineSize x) (j : Nat) :
    s.keepsLine t j b (∃ x ∈ accessBytes a bs.length, s.sharesSet j b x) := by
  induction bs generalizing a s with
  | nil =>
    simp only [putBytes] at hput
    cases hput
    exact keepsLine_of_same rfl rfl _
  | cons v bs ih =>
    rw [List.length_cons, accessBytes_succ, List.forall_mem_cons] at hne
    obtain ⟨s1, hb, hbytes⟩ := putBytes_ok hput
    have hp := (putByte_frame hb).params
    exact keepsLine_of_bytes hp (putByte_keepsLine h hk hb hne.1 j)
      (ih (putByte_inv h hb) (hp ▸ hk) hbytes (hp ▸ hne.2))

/-- Every GET and PUT that can be performed reads or puts its bytes, and answers. -/
theorem Ready.access_keepsLine (h : Ready s i) (hi : getWidth i = some n ∨ putWidth i = some n)
    (hne : ∀ x ∈ accessBytes s.req.addr n, lineBase s.params.lineSize b ≠ lineBase s.params.lineSize x) (j : Nat) :
    ∃ u v, exec i s = .next (u.respond v) ∧ Inv u ∧
      s.keepsLine u j b (∃ x ∈ accessBytes s.req.addr n, s.sharesSet j b x) := by
  have hk := toNat_lt_of_wellFormed h.cache
  rcases hi with hget | hput
  · obtain ⟨bs, u, hbytes⟩ := getBytes_completes h.inv hk s.req.addr n
    exact ⟨u, Response.read (littleEndian bs), by simp only [exec_of_getWidth hget, getN, hbytes, bind_ok, Res.finish],
      getBytes_inv h.inv hbytes, getBytes_keepsLine h.inv hk hbytes hne j⟩
  · obtain ⟨u, hbytes⟩ := putBytes_completes h.inv hk s.req.addr (s.req.putData n)
    have hkept := putBytes_keepsLine (b := b) h.inv hk hbytes (by rwa [putData_length]) j
    rw [putData_length] at hkept
    exact ⟨u, Response.done, by simp only [exec_of_putWidth hput, putN, hbytes, bind_ok, Res.finish],
      putBytes_inv h.inv hbytes, hkept⟩

end

/-- Settles O41: by induction on the bytes, each of which displaces lines of its own sets only. -/
theorem accessDisplacesOnlyInItsSets : Obligations.AccessDisplacesOnlyInItsSets := by
  intro s t i n hi hready hexec j b hne
  obtain ⟨u, v, hnext, hinv, hkept⟩ := hready.access_keepsLine hi hne j
  obtain rfl : u.respond v = t := Host.Outcome.next.inj (hnext.symm.trans hexec)
  refine (hkept.cohAt hready.inv.setsOk hinv.setsOk).imp_right fun ⟨hgone, x, hx, c, hc, hindex⟩ => ?_
  exact ⟨hgone, c, hc, x, hx, hindex⟩

end Sys2Proof.Machine

/-! PROOFS. The steps of write_line one by one (spec/43_write_path.md R141 to R144): a miss raises before any change, an
invalidation changes the state of one way, and the overwrite changes one way of the writer's set and touches it. -/

namespace Sys2Proof.Machine

section
variable {s t u : State} {j k w : Nat} {a : Addr} {c : CacheCfg} {cs ds : CacheSet} {d : List Byte}

/-! ### The miss (R141) -/

theorem writeLine_of_miss (hl : s.locate k a = some (c, cs)) (hf : cs.find (c.tag s.params.lineSize a) = none)
    (d : List Byte) : writeLine k a d s = .raised (s.raiseFault .writeMiss (some k) (some c.level) (some a)) := by
  simp only [writeLine, hl, hf]

/-- A WRLINE that misses raises and gives the faulted response (R141, R145, R180). -/
theorem exec_wrline_of_miss {cid : Cid} (hlen : s.req.lineIn.length = s.params.lineSize)
    (hl : s.locate cid.toNat s.req.addr = some (c, cs))
    (hf : cs.find (c.tag s.params.lineSize s.req.addr) = none) :
    exec (.wrline cid) s =
      .next ((s.raiseFault .writeMiss (some cid.toNat) (some c.level) (some s.req.addr)).respond
        Response.faulted) := by
  simp only [exec, execWrline, if_pos hlen, writeLine_of_miss hl hf, bind_raised, Res.finish]

/-- A PUT that can be performed raises no fault: its line is valid when it is written (R158, R184). -/
theorem Ready.put_fault {i : Instr} {n : Nat} (h : Ready s i) (hi : putWidth i = some n) (hexec : exec i s = .next t) :
    t.fault = s.fault := by
  obtain ⟨u, r, hnext, hframe⟩ := exec_completes h.inv h.cache fun c hc => by simp [hc, putWidth] at hi
  obtain rfl : u.respond r = t := Host.Outcome.next.inj (hnext.symm.trans hexec)
  exact hframe.fault

/-! ### One invalidation (R142, R144) -/

theorem locate_of_setAt (h : s.setAt k a = some cs) : ∃ c, s.locate k a = some (c, cs) := by
  obtain ⟨⟨c, cs'⟩, hl, rfl⟩ := Option.map_eq_some_iff.1 h
  exact ⟨c, hl⟩

theorem invalidateCopy_of_hit (hl : s.locate j a = some (c, cs))
    (hf : cs.find (c.tag s.params.lineSize a) = some w) :
    invalidateCopy j a s = s.putSet j (c.index s.params.lineSize a) (cs.setCoh w .invalid) := by
  simp only [invalidateCopy, hl, hf]

theorem invalidateCopy_of_miss (h : s.lookup j a = none) : invalidateCopy j a s = s := by
  rcases invalidateCopy_cases j a s with ⟨-, heq⟩ | ⟨c, cs, w, hl, hf, -⟩
  · exact heq
  · rw [lookup_of_locate hl, hf] at h
    cases h

/-- The set an invalidation leaves, by what the lookup found: the copy's way is Invalid, and no copy, no change. -/
def CacheSet.withoutCopy (cs : CacheSet) : Option Nat → CacheSet
  | some w => cs.setCoh w .invalid
  | none => cs

theorem invalidateCopy_setAt (hcs : s.setAt j a = some cs) :
    (invalidateCopy j a s).setAt j a = some (cs.withoutCopy (s.lookup j a)) := by
  obtain ⟨c, hl⟩ := locate_of_setAt hcs
  cases hw : s.lookup j a with
  | none =>
    rw [invalidateCopy_of_miss hw]
    exact hcs
  | some w =>
    rw [invalidateCopy_of_hit hl ((lookup_of_locate hl).symm.trans hw)]
    exact setAt_of_locate (locate_putSet_same hl _)

theorem invalidateCopy_sameSetsBut (j : Nat) (a : Addr) (s : State) : s.sameSetsBut (invalidateCopy j a s) j a := by
  rcases invalidateCopy_cases j a s with ⟨-, heq⟩ | ⟨c, cs, w, hl, -, heq⟩ <;> rw [heq]
  · exact fun _ _ _ => rfl
  · exact putSet_sameSetsBut hl _

/-- An invalidation writes the entry arrays alone. -/
theorem invalidateCopy_eq (j : Nat) (a : Addr) (s : State) :
    invalidateCopy j a s = { s with arrays := (invalidateCopy j a s).arrays } := by
  rcases invalidateCopy_cases j a s with ⟨-, heq⟩ | ⟨c, cs, w, -, -, heq⟩ <;> rw [heq]
  rfl

/-! ### Sets that none of the addresses index -/

theorem State.sameSetsBut.sameOtherSets (h : s.sameSetsBut t k a) (hc : s.params.caches[k]? = some c) :
    s.sameOtherSets t [a] :=
  fun l i hother => h l i (not_isSlotOf hc hother)

theorem State.sameOtherSets.trans {xs : List Addr} (h : s.sameOtherSets t xs) (hp : t.params = s.params)
    (h' : t.sameOtherSets u xs) : s.sameOtherSets u xs :=
  fun l i hother => (h' l i (by rwa [hp])).trans (h l i hother)

theorem invalidateCopy_sameOtherSets (j : Nat) (a : Addr) (s : State) :
    s.sameOtherSets (invalidateCopy j a s) [a] := by
  rcases invalidateCopy_cases j a s with ⟨-, heq⟩ | ⟨c, cs, w, hl, -, -⟩
  · rw [heq]
    exact fun _ _ _ => rfl
  · exact (invalidateCopy_sameSetsBut j a s).sameOtherSets (locate_eq_some.1 hl).1

/-! ### The invalidation of every other copy (R142) -/

theorem invalidateOthers_sameOtherSets (k : Nat) (a : Addr) (js : List Nat) (s : State) :
    s.sameOtherSets (invalidateOthers k a js s) [a] := by
  induction js generalizing s with
  | nil => exact fun _ _ _ => rfl
  | cons i js ih =>
    simp only [invalidateOthers]
    split
    · exact ih s
    · exact (invalidateCopy_sameOtherSets i a s).trans (invalidateCopy_frame i a s).1.params (ih _)

theorem invalidateOthers_locate_of_notMem {js : List Nat} (hj : j ∉ js) (k : Nat) (s : State) :
    (invalidateOthers k a js s).locate j a = s.locate j a := by
  induction js generalizing s with
  | nil => rfl
  | cons i js ih =>
    obtain ⟨hji, hrest⟩ := not_or.1 (mt List.mem_cons.2 hj)
    simp only [invalidateOthers]
    split
    · exact ih hrest s
    · exact (ih hrest _).trans (invalidateCopy_locate s a hji)

/-- Each cache listed, but for cache k, loses its copy, once, and keeps the rest of its set. -/
theorem invalidateOthers_setAt {js : List Nat} (hnd : js.Nodup) (hj : j ∈ js) (hjk : j ≠ k)
    (hcs : s.setAt j a = some cs) :
    (invalidateOthers k a js s).setAt j a = some (cs.withoutCopy (s.lookup j a)) := by
  induction js generalizing s with
  | nil => cases hj
  | cons i js ih =>
    obtain ⟨hi, hnd⟩ := List.nodup_cons.1 hnd
    simp only [invalidateOthers]
    by_cases hji : j = i
    · subst hji
      rw [if_neg hjk, setAt_of_locate_eq (invalidateOthers_locate_of_notMem hi k _)]
      exact invalidateCopy_setAt hcs
    · have hj := (List.mem_cons.1 hj).resolve_left hji
      split
      · exact ih hnd hj hcs
      · have hl := invalidateCopy_locate s a hji
        rw [ih hnd hj ((setAt_of_locate_eq hl).trans hcs),
          lookup_of_locate_eq (invalidateCopy_frame i a s).1.params hl]

/-! ### The overwrite and its touch (R143) -/

/-- A change of one way and its touch change no other way. -/
theorem touch_modifyWay_sameBut {f : Entry → Entry} (ht : (cs.modifyWay w f).touch w = some ds) :
    cs.sameBut ds w := by
  refine ⟨(touch_keeps ht).1.trans (modifyWay_length ..), fun v hvw => ?_⟩
  rw [touch_way ht, modifyWay_getElem?]
  simp only [if_neg (Ne.symm hvw), Option.map_id']

theorem touch_overwrite_movedToFront (h : cs.ringOk) (ht : (cs.overwrite w d).touch w = some ds) :
    cs.movedToFront ds w := by
  have hring : (cs.overwrite w d).ringOk := isRing_ringOk
    (isRing_congr h rfl (overwrite_length ..) (nextOf_modifyWay fun _ => rfl) (prevOf_modifyWay fun _ => rfl))
  have hmoved := touch_movedToFront hring ht
  rwa [CacheSet.movedToFront, overwrite_order] at hmoved

/-- The line stays in its way. -/
theorem touch_overwrite_find {p : Params} {tag : Addr} (h : SetOk p c cs) (hf : cs.find tag = some w)
    (hd : d.length = p.lineSize) (ht : (cs.overwrite w d).touch w = some ds) : ds.find tag = some w := by
  obtain ⟨e, he, hh⟩ := find_holds hf
  have hway := touch_way ht w
  rw [overwrite_getElem?, he, Option.map_some, if_pos rfl, Option.map_some] at hway
  obtain ⟨f, hf', hcontent⟩ := Option.map_eq_some_iff.1 hway
  simp only [Entry.content, Prod.mk.injEq] at hcontent
  obtain ⟨hst, htag, -⟩ := hcontent
  have hhf : Entry.holds tag f = true := holds_iff.2 ⟨by rw [hst]; rfl, htag.trans (holds_iff.1 hh).2⟩
  exact find_of_holds hf' hhf (tagsUnique_iff.1 (h.overwrite hf hd ht).1.tags tag w f hf' hhf)

end

/-! ### The obligations on the miss and on one invalidation -/

/-- Settles O48: a miss raises before any change, and a PUT finds its line valid. -/
theorem wrlineMissRaisesWriteMiss : Obligations.WrlineMissRaisesWriteMiss := by
  refine ⟨fun s k hready hlen hmiss c hc => ?_, fun s t i n hi hready hexec => hready.put_fault hi hexec⟩
  obtain ⟨c', cs, hl⟩ := hready.inv.locate_completes (toNat_lt_of_wellFormed hready.cache) s.req.addr
  obtain rfl : c' = c := Option.some.inj ((locate_eq_some.1 hl).1.symm.trans hc)
  exact exec_wrline_of_miss hlen hl ((lookup_of_locate hl).symm.trans hmiss)

/-- Settles O50: the set is written back with the state of one way changed. -/
theorem invalidationKeepsTheSlot : Obligations.InvalidationKeepsTheSlot := by
  intro s j a cs w hcs hw
  have hset := invalidateCopy_setAt hcs
  rw [hw] at hset
  refine ⟨_, hset, rfl, setCoh_order .., fun v => ?_, invalidateCopy_sameSetsBut j a s, invalidateCopy_eq j a s⟩
  simp only [CacheSet.withoutCopy, setCoh_getElem?, eq_comm]

end Sys2Proof.Machine

/-! PROOFS. WRLINE (spec/43_write_path.md R142, R143, R145): write_line makes the writer the only holder of the line,
and VIEW of it the new data. -/

namespace Sys2Proof.Machine

section
variable {s t : State} {j k w : Nat} {a b x : Addr} {cs : CacheSet} {d : List Byte} {st : Coh}

/-! ### What write_line leaves of a well-formed block -/

theorem writeLine_readFrame {r : Unit} (hw : writeLine k a d s = .ok r t) : ReadFrame s t := by
  obtain ⟨hframe, hdev, -, hdraws⟩ := writeLine_frame hw
  exact ⟨hframe, hdev, hdraws⟩

/-- In the writer the line stays in its way, which is touched, and every other way keeps its content (R143). -/
theorem writeLine_set {r : Unit} (h : Inv s) (hd : d.length = s.params.lineSize) (hw : s.lookup k a = some w)
    (hwrite : writeLine k a d s = .ok r t) :
    t.lookup k a = some w ∧
      ∃ cs ds, s.setAt k a = some cs ∧ t.setAt k a = some ds ∧ cs.sameBut ds w ∧ cs.movedToFront ds w := by
  obtain ⟨c, cs, w', ds, hl, hf, ht, rfl⟩ := writeLine_ok hwrite
  obtain rfl : w' = w := Option.some.inj (hf.symm.trans ((lookup_of_locate hl).symm.trans hw))
  have hparams := (invalidateOthers_frame k a s.reg s).1.params
  obtain ⟨-, hset, -⟩ := invalidateOthers_inv h k a s.reg
  have hput := locate_putSet_same (hset.trans hl) ds
  rw [hparams] at hput
  refine ⟨?_, cs, ds, setAt_of_locate hl, setAt_of_locate hput, touch_modifyWay_sameBut ht,
    touch_overwrite_movedToFront (h.setOk hl).ring ht⟩
  rw [lookup_of_locate hput, putSet_params, hparams]
  exact touch_overwrite_find (h.setOk hl) hf hd ht

/-- In every other cache the copy's way is Invalid and the rest of the set as it was (R142, R144). -/
theorem writeLine_otherSet {r : Unit} (h : Inv s) (hwrite : writeLine k a d s = .ok r t) (hj : j ∈ s.reg)
    (hjk : j ≠ k) (hcs : s.setAt j a = some cs) : t.setAt j a = some (cs.withoutCopy (s.lookup j a)) := by
  obtain ⟨c, _, w, ds, hl, -, -, rfl⟩ := writeLine_ok hwrite
  have hparams := (invalidateOthers_frame k a s.reg s).1.params
  obtain ⟨-, hset, -⟩ := invalidateOthers_inv h k a s.reg
  have hput := (putSet_sameSetsBut (hset.trans hl) ds).locate rfl hjk a
  rw [hparams] at hput
  rw [setAt_of_locate_eq hput]
  exact invalidateOthers_setAt (h.setsOk.reg ▸ List.nodup_range) hj hjk hcs

theorem writeLine_sameOtherSets {r : Unit} (h : Inv s) (hwrite : writeLine k a d s = .ok r t) :
    s.sameOtherSets t [a] := by
  obtain ⟨c, _, w, ds, hl, -, -, rfl⟩ := writeLine_ok hwrite
  have hparams := (invalidateOthers_frame k a s.reg s).1.params
  obtain ⟨-, hset, -⟩ := invalidateOthers_inv h k a s.reg
  have hput := (putSet_sameSetsBut (hset.trans hl) ds).sameOtherSets (hparams ▸ (locate_eq_some.1 hl).1)
  rw [hparams] at hput
  exact (invalidateOthers_sameOtherSets k a s.reg s).trans hparams hput

/-- write_line keeps every copy of every other line. -/
theorem writeLine_keepsLine {r : Unit} (h : Inv s) (hd : d.length = s.params.lineSize)
    (hwrite : writeLine k a d s = .ok r t) (hne : ¬ sameLine s.params.lineSize b a) (j : Nat) :
    s.keepsLine t j b False := by
  obtain ⟨-, -, hother⟩ := writeLine_hasCopy h hd hwrite
  exact fun st x => ⟨(hother j b st x hne).1, fun hc => .inl ((hother j b st x hne).2 hc)⟩

/-! ### VIEW (R46) -/

theorem Inv.view_of_hasCopy (h : Inv s) (hc : s.hasCopy k x st d) :
    d[offset s.params.lineSize x]? = some (s.view x) := by
  rcases h.view_cases x with ⟨j, st', d', hc', hview⟩ | ⟨hun, -⟩
  · rwa [h.data_eq hc' hc]
  · exact absurd hc (hun k st d)

/-- VIEW of a byte depends on the copies of its line and on MEM. -/
theorem Inv.view_congr (h : Inv s) (ht : Inv t) (hp : t.params = s.params) (hm : t.mem = s.mem)
    (hcopies : ∀ j st d, t.hasCopy j x st d ↔ s.hasCopy j x st d) : t.view x = s.view x := by
  rcases h.view_cases x with ⟨j, st, d, hc, hview⟩ | ⟨hun, hview⟩
  · have hview' := ht.view_of_hasCopy ((hcopies j st d).2 hc)
    rw [hp, hview] at hview'
    exact (Option.some.inj hview').symm
  · rcases ht.view_cases x with ⟨j, st, d, hc, -⟩ | ⟨-, hview'⟩
    · exact absurd ((hcopies j st d).1 hc) (hun j st d)
    · rw [hview', hview, hm, hp]

/-- write_line makes VIEW of the line the new data, and changes no other byte of VIEW (R46, R143). -/
theorem writeLine_view {r : Unit} (h : Inv s) (hd : d.length = s.params.lineSize)
    (hwrite : writeLine k a d s = .ok r t) (x : Addr) :
    (sameLine s.params.lineSize x a → d[offset s.params.lineSize x]? = some (t.view x)) ∧
      (¬ sameLine s.params.lineSize x a → t.view x = s.view x) := by
  have ht := writeLine_inv h hd hwrite
  obtain ⟨hframe, -, hmem, -⟩ := writeLine_frame hwrite
  obtain ⟨-, hnew, hother⟩ := writeLine_hasCopy h hd hwrite
  refine ⟨fun hline => ?_, fun hne => h.view_congr ht hframe.params hmem fun j st y => hother j x st y hne⟩
  rw [← hframe.params]
  exact ht.view_of_hasCopy (hnew x hline)

/-! ### The request -/

/-- A WRLINE of a line valid in its cache answers what write_line does. -/
theorem Ready.wrline {k : Cid} (h : Ready s (.wrline k)) (hlen : s.req.lineIn.length = s.params.lineSize)
    (hw : s.lookup k.toNat s.req.addr = some w) :
    ∃ u, writeLine k.toNat s.req.addr s.req.lineIn s = .ok () u ∧
      exec (.wrline k) s = .next (u.respond Response.done) := by
  obtain ⟨u, hwrite⟩ := writeLine_completes h.inv hw s.req.lineIn
  exact ⟨u, hwrite, by simp only [exec, execWrline, if_pos hlen, hwrite, bind_ok, Res.finish]⟩

end

/-- Settles O47: the writer's set by `writeLine_set`, the other sets of the line by `writeLine_otherSet`, and beside the
writer's Modified copy R42 leaves the line Invalid elsewhere. -/
theorem wrlineHitOwnsTheLine : Obligations.WrlineHitOwnsTheLine := by
  intro s k w hready hlen hw
  have h := hready.inv
  obtain ⟨u, hwrite, hexec⟩ := hready.wrline hlen hw
  have hinv := writeLine_inv h hlen hwrite
  obtain ⟨-, hnew, -⟩ := writeLine_hasCopy h hlen hwrite
  obtain ⟨hst, hdata⟩ := hinv.setsOk.cohAt_of_hasCopy (hnew s.req.addr (sameLine_refl ..))
  obtain ⟨hresp, hcontrol, hdev⟩ := (writeLine_readFrame hwrite).respond Response.done
  obtain ⟨hframe, -, hmem, -⟩ := writeLine_frame hwrite
  obtain ⟨hlookup, hset⟩ := writeLine_set h hlen hw hwrite
  obtain ⟨c, hg, -⟩ := h.exists_geometry
  have hothers : ∀ j ∈ s.reg, j ≠ k.toNat → u.cohAt j s.req.addr = .invalid := fun j hj hjk =>
    hinv.singleWriter s.req.addr k.toNat (hasCopy_mem_reg hinv.setsOk (hnew _ (sameLine_refl ..))) j
      (hframe.reg ▸ hj) (Ne.symm hjk) hst
  have hlines : ∀ j b, lineBase s.params.lineSize b ≠ lineBase s.params.lineSize s.req.addr →
      u.cohAt j b = s.cohAt j b ∧ u.dataAt j b = s.dataAt j b := fun j b hne =>
    ((writeLine_keepsLine h hlen hwrite (mt (lineBase_eq_iff hg).2 hne) j).cohAt h.setsOk hinv.setsOk).resolve_right
      And.right
  have hothersets := fun j hj hjk cs hcs => writeLine_otherSet (j := j) (cs := cs) h hwrite hj hjk hcs
  have hsets := writeLine_sameOtherSets h hwrite
  exact ⟨_, hexec, hresp, hcontrol, hmem, hdev, hlookup, hst, hdata, hothers, hset, hothersets, hlines, hsets⟩

/-- Settles O57: `writeLine_view`, and the block represents its VIEW with the line replaced. -/
theorem wrlineUpdatesTheFlatMemory : Obligations.WrlineUpdatesTheFlatMemory := by
  intro s k b hready ha hlen hhit
  have h := hready.inv
  obtain ⟨w, hw⟩ := Option.ne_none_iff_exists'.1 hhit
  obtain ⟨u, hwrite, hexec⟩ := hready.wrline hlen hw
  obtain ⟨c, hg, -⟩ := h.exists_geometry
  refine ⟨_, hexec, (((ha.represents h).of_writeLine hlen hwrite).of_respond _).aliasFree, fun x => ?_⟩
  rw [ne_eq, lineBase_eq_iff hg]
  exact writeLine_view h hlen hwrite x

end Sys2Proof.Machine

/-! PROOFS. write_back (spec/44_write_back.md R150 to R154): the walk to the cache that owns the store, what a
write-back leaves in MEM, and that the Modified lines an RDLINE evicts reach it (spec/42_read_path.md R125, R128,
R129). -/

namespace Sys2Proof.Machine

/-! ### The walk to the store (R101, R151) -/

section
variable {p : Params} {c : CacheCfg} {k m : Nat}

/-- A legal next-level reference names a level-2 cache (R101). -/
theorem level_of_topologyLegal_nextLevel (h : topologyLegal p c = true) (hm : c.next = .nextLevel m) :
    c.level = 1 ∧ ∃ d, p.caches[m]? = some d ∧ d.level = 2 := by
  simp only [topologyLegal, hm, Bool.and_eq_true, decide_eq_true_eq] at h
  obtain ⟨hlevel, hnext⟩ := h
  cases hd : p.caches[m]? with
  | none => simp [hd] at hnext
  | some d => exact ⟨hlevel, d, rfl, by simpa [hd] using hnext⟩

/-- A legal level-2 cache is terminal (R101). -/
theorem terminal_of_topologyLegal (h : topologyLegal p c = true) (hlevel : c.level = 2) : c.next = .terminal := by
  cases hnext : c.next with
  | terminal => rfl
  | nextLevel m =>
    obtain ⟨hone, -⟩ := level_of_topologyLegal_nextLevel h hnext
    omega

theorem storeOwner_of_terminal (hc : p.caches[k]? = some c) (hterm : c.next = .terminal) (n : Nat) :
    storeOwner p (n + 1) k = some k := by
  simp only [storeOwner, hc, hterm]

theorem storeOwner_of_nextLevel (hc : p.caches[k]? = some c) (hm : c.next = .nextLevel m) (n : Nat) :
    storeOwner p (n + 1) k = storeOwner p n m := by
  simp only [storeOwner, hc, hm]

end

/-- Settles O30: a terminal cache owns the store itself, and the next level of any other cache is of level 2, so
terminal. -/
theorem nextLevelWalkEndsAtTheStore : Obligations.NextLevelWalkEndsAtTheStore := by
  intro p k ⟨hcaches, _, _⟩ hk
  have hc : p.caches[k]? = some p.caches[k] := List.getElem?_eq_getElem hk
  have htop : ∀ {j c}, p.caches[j]? = some c → topologyLegal p c = true := fun hj => by
    obtain ⟨-, -, htopology⟩ := hcaches _ (List.mem_of_getElem? hj)
    exact htopology
  cases hnext : p.caches[k].next with
  | terminal => exact ⟨k, _, storeOwner_of_terminal hc hnext 1, hc, hnext⟩
  | nextLevel m =>
    obtain ⟨-, d, hd, hlevel⟩ := level_of_topologyLegal_nextLevel (htop hc) hnext
    have hterm := terminal_of_topologyLegal (htop hd) hlevel
    exact ⟨m, d, (storeOwner_of_nextLevel hc hnext 1).trans (storeOwner_of_terminal hd hterm 0), hd, hterm⟩

section
variable {s s1 t u : State} {i j k m n v w : Nat} {a : Addr} {b : Byte} {c : CacheCfg} {e : Entry}
  {d d' : List Byte}

/-! ### One write-back (R150) -/

/-- An entry is written back to the base of a line (R98), so the write is not truncated (R54). -/
theorem Inv.addressOf_mod (h : Inv s) (hc : s.params.caches[k]? = some c) (he : s.entry k i w = some e) :
    (c.addressOf s.params.lineSize e.tag i).toNat % s.params.lineSize = 0 := by
  obtain ⟨cs, hset, hway⟩ := Option.bind_eq_some_iff.1 he
  obtain ⟨x, hx, hi⟩ := Option.bind_eq_some_iff.1 hset
  have hindex : i < c.setCount s.params.lineSize :=
    h.setsOk.count k c x hc hx ▸ (List.getElem?_eq_some_iff.1 hi).1
  have hshape := (h.setsOk.sets k c x cs hc hx (List.mem_of_getElem? hi)).shape
  have htag := (hshape.2 e (List.mem_of_getElem? hway)).2
  obtain ⟨-, -, hbase⟩ := addressOf_slot (h.geometry hc) (h.capacity (List.mem_of_getElem? hc)) htag hindex
  exact hbase

theorem writeBack_stored (h : Inv s) {r : Unit} (hc : s.params.caches[k]? = some c) (he : s.entry k i w = some e)
    (hw : writeBack k i w s = .ok r t) (hb : e.data[j]? = some b) :
    Memory.read t.mem ((c.addressOf s.params.lineSize e.tag i).toNat % s.params.storeSize + j) = b := by
  rw [writeBack_completes h hc he] at hw
  cases hw
  have hj : j < s.params.lineSize := h.entry_data_length hc he ▸ (List.getElem?_eq_some_iff.1 hb).1
  have hfit := line_fits h.storeLegal (lineSize_of_geometryLegal (h.geometry hc)) (h.addressOf_mod hc he)
  exact memWrite_read_same h.mem hb (by omega)

/-! ### The Modified victim of a fill (R125, R129, R154) -/

/-- If the way of cache k that a fill of the line of a reuses is Modified in s, its line stands in the MEM of t. -/
def State.victimStored (s t : State) (k : Nat) (a : Addr) : Prop :=
  ∀ c i v e, s.params.caches[k]? = some c → s.victimSlot k a = some (i, v) → s.entry k i v = some e →
    e.state = .modified → ∀ j, ∀ b ∈ e.data[j]?,
      Memory.read t.mem ((c.addressOf s.params.lineSize e.tag i).toNat % s.params.storeSize + j) = b

theorem locate_of_victimSlot (hv : s.victimSlot k a = some (i, v)) :
    ∃ c cs, s.locate k a = some (c, cs) ∧ cs.victim = some v ∧ c.index s.params.lineSize a = i := by
  cases hl : s.locate k a with
  | none => simp [State.victimSlot, hl] at hv
  | some x =>
    obtain ⟨c, cs⟩ := x
    simp only [State.victimSlot, hl, Option.map_eq_some_iff, Prod.mk.injEq] at hv
    obtain ⟨_, hvictim, hindex, rfl⟩ := hv
    exact ⟨c, cs, rfl, hvictim, hindex⟩

/-- Which line a fill evicts depends on the set it fills. -/
theorem victimStored_of_locate_eq (hp : t.params = s.params) (hl : t.locate k a = s.locate k a)
    (h : t.victimStored u k a) : s.victimStored u k a := by
  intro c i v e hc hv he
  obtain ⟨c', cs, hls, -, rfl⟩ := locate_of_victimSlot hv
  have hentry : t.entry k (c'.index s.params.lineSize a) v = s.entry k (c'.index s.params.lineSize a) v :=
    (hp ▸ entry_of_locate (hl.trans hls) v).trans (entry_of_locate hls v).symm
  have hstored := h c _ v e (hp ▸ hc) ((victimSlot_of_locate_eq hp hl).trans hv) (hentry.trans he)
  rwa [hp] at hstored

/-- A fill evicts its victim before it reuses the way. -/
theorem place_victimStored (h : Inv s) (hp : place k a d s = .ok d' t) : s.victimStored t k a := by
  intro c i v e hc hslot he hm j b hb
  obtain ⟨_, _, v', s1, ds, hl, hv, hev, -, -, rfl⟩ := place_ok hp
  obtain ⟨rfl, rfl⟩ := Prod.mk.inj (Option.some.inj ((victimSlot_eq hl hv).symm.trans hslot))
  obtain ⟨e', he', ⟨-, hwb⟩ | ⟨hclean, -⟩⟩ := evict_ok hev
  · rw [putSet_mem]
    exact writeBack_stored h hc he hwb hb
  · obtain rfl : e' = e := Option.some.inj (he'.symm.trans he)
    exact absurd hm hclean

/-! ### The fills of a read_line that misses (R125, R128, R129) -/

theorem readLineN_terminal_eq (h : Inv s) (hun : s.uncached a) (hc : s.params.caches[k]? = some c)
    (hterm : c.next = .terminal) (n : Nat) : readLineN (n + 1) k a s = place k a (s.storedLine a) s := by
  simp only [readLineN, lookup_none_of_uncached hun, findSibling_none_of_uncached hun, hc, hterm, memRead_line h]

/-- A step from s1 to t fills cache k with the line of a, and finds the set it fills as it was in s. -/
structure FillsFrom (s s1 t : State) (k : Nat) (a : Addr) : Prop where
  inv    : Inv s1
  params : s1.params = s.params
  locate : s1.locate k a = s.locate k a
  fill   : ∃ d d', place k a d s1 = .ok d' t

theorem FillsFrom.victimStored (h : FillsFrom s s1 t k a) : s.victimStored t k a := by
  obtain ⟨_, _, hp⟩ := h.fill
  exact victimStored_of_locate_eq h.params h.locate (place_victimStored h.inv hp)

theorem FillsFrom.sameMemOutside (h : FillsFrom s s1 t k a) : s1.sameMemOutside t (s.placeStores k a) := by
  obtain ⟨_, _, hp⟩ := h.fill
  exact placeStores_of_locate_eq h.params h.locate ▸ place_sameMemOutside h.inv hp

theorem fillsFrom_of_sibling (h : Inv s) (hj : findSibling s k a = some j) (hcopy : siblingCopy j a s = .ok d s1)
    (hp : place k a d s1 = .ok d' t) : FillsFrom s s1 t k a where
  inv := (siblingCopy_inv h hcopy).1
  params := (siblingCopy_readFrame hcopy).params
  locate := (siblingCopy_sameSetsBut hcopy).locate (siblingCopy_readFrame hcopy).params (findSibling_some hj).2.1.symm a
  fill := ⟨d, d', hp⟩

theorem fillsFrom_of_terminal (h : Inv s) (hun : s.uncached a) (hc : s.params.caches[k]? = some c)
    (hterm : c.next = .terminal) (hr : readLineN (n + 1) k a s = .ok d t) : FillsFrom s s t k a where
  inv := h
  params := rfl
  locate := rfl
  fill := ⟨_, d, readLineN_terminal_eq h hun hc hterm n ▸ hr⟩

/-- The next level is filled first, and its fill leaves the set of the named cache alone (R128). -/
theorem fillsFrom_of_nextLevel (h : Inv s) (hun : s.uncached a) (hc : s.params.caches[k]? = some c)
    (hm : c.next = .nextLevel m) (hr : readLine k a s = .ok d t) :
    ∃ s1, FillsFrom s s s1 m a ∧ FillsFrom s s1 t k a := by
  obtain ⟨-, hkm, -⟩ := readLine_of_nextLevel h hun hc hm hr
  rw [readLine, levels, readLineN_nextLevel_eq hun hc hm] at hr
  obtain ⟨d1, s1, hnext, hp⟩ := bind_eq_ok.1 hr
  obtain ⟨cm, hcm, hterm⟩ := h.next_terminal hc hm
  obtain ⟨-, hfill⟩ := readLineN_of_terminal h hun hcm hterm hnext
  have hparams := hfill.frame.params
  exact ⟨s1, fillsFrom_of_terminal h hun hcm hterm hnext,
    hfill.inv, hparams, hfill.sets.locate hparams hkm a, d1, d, hp⟩

/-- On the sibling path as on the miss path, read_line ends with the fill of its own cache. -/
theorem readLine_fillsFrom (h : Inv s) (hmiss : s.lookup k a = none) (hr : readLine k a s = .ok d t) :
    ∃ s1, FillsFrom s s1 t k a := by
  rcases readLineN_ok hr with ⟨w, hw, -⟩ | ⟨-, j, s1, d1, hj, hcopy, hp⟩ |
    ⟨-, hnone, c, hc, ⟨m, -, -, hm, -, -⟩ | ⟨hterm, -⟩⟩
  · exact absurd (hmiss.symm.trans hw) nofun
  · exact ⟨s1, fillsFrom_of_sibling h hj hcopy hp⟩
  · obtain ⟨s1, -, hfill⟩ := fillsFrom_of_nextLevel h (uncached_of_miss h hmiss hnone) hc hm hr
    exact ⟨s1, hfill⟩
  · exact ⟨s, fillsFrom_of_terminal h (uncached_of_miss h hmiss hnone) hc hterm hr⟩

end

/-- Settles O31: the write of R150 is a whole line of the store (`Inv.addressOf_mod`). -/
theorem writeBackCopiesTheLine : Obligations.WriteBackCopiesTheLine := by
  intro s k i w c e h hc he
  have hw := writeBack_completes h hc he
  exact ⟨_, hw, rfl, fun _ _ hb => writeBack_stored h hc he hw hb,
    memWrite_sameMemOutside (h.storeSize_pos hc) (h.entry_data_length hc he)⟩

/-- Settles O37: each fill stores its victim (`FillsFrom.victimStored`), that of the next level before that of the named
cache, whose fill stores no other line. -/
theorem evictedModifiedLineReachesTheStore : Obligations.EvictedModifiedLineReachesTheStore := by
  intro s t k c hready hexec hmiss hc
  have h := hready.inv
  obtain ⟨d, u, hr, hnext⟩ := hready.rdline
  obtain rfl : u.respond (Response.line d) = t := Host.Outcome.next.inj (hnext.symm.trans hexec)
  constructor
  · intro i v e
    obtain ⟨s1, hfill⟩ := readLine_fillsFrom h hmiss hr
    exact hfill.victimStored c i v e hc
  · intro hnone m cm i v e hm hcm hslot he hst j b hb x hout
    obtain ⟨s1, hfill1, hfill⟩ := fillsFrom_of_nextLevel h (uncached_of_reg h hnone) hc hm hr
    calc Memory.read u.mem x = Memory.read s1.mem x := hfill.sameMemOutside x ((outside_congr hfill.params).2 hout)
      _ = b := hfill1.victimStored cm i v e hcm hslot he hst j b hb

end Sys2Proof.Machine

/-! PROOFS. What the shared operations do not look at: the request in progress and the responses given
(spec/30_encoding.md R70), and which byte of its line an address names (spec/40_geometry.md R94 to R97). -/

namespace Sys2Proof.Machine

/-! ### The request in progress and the responses given -/

/-- The block with another request in progress and other responses given. -/
def State.withIO (s : State) (r : Request) (rs : List Response) : State := { s with req := r, responses := rs }

/-- The same end of an operation, in the state changed by g. -/
def Res.onState {α : Type} (g : State → State) : Res α → Res α
  | .ok v s => .ok v (g s)
  | .raised s => .raised (g s)
  | .stuck e => .stuck e

section
variable {s t : State} {r : Request} {rs : List Response}

theorem SameFrame.withIO_self (h : SameFrame s t) : t.withIO s.req s.responses = t := by
  rw [← h.req, ← h.responses]
  rfl

@[simp] theorem onState_ok {α : Type} (g : State → State) (v : α) (s : State) :
    (Res.ok v s).onState g = .ok v (g s) := rfl

@[simp] theorem withIO_req (s : State) (r rs) : (s.withIO r rs).req = r := rfl
@[simp] theorem withIO_params (s : State) (r rs) : (s.withIO r rs).params = s.params := rfl
@[simp] theorem withIO_reg (s : State) (r rs) : (s.withIO r rs).reg = s.reg := rfl
@[simp] theorem withIO_entry (s : State) (r rs) (k i w : Nat) : (s.withIO r rs).entry k i w = s.entry k i w := rfl
@[simp] theorem withIO_locate (s : State) (r rs) (k : Nat) (a : Addr) : (s.withIO r rs).locate k a = s.locate k a := rfl
@[simp] theorem withIO_lookup (s : State) (r rs) (k : Nat) (a : Addr) : (s.withIO r rs).lookup k a = s.lookup k a := rfl
@[simp] theorem withIO_findSibling (s : State) (r rs) (k : Nat) (a : Addr) :
    findSibling (s.withIO r rs) k a = findSibling s k a := rfl

/-- A sequence looks at neither if its parts do not. -/
theorem bind_onState {α β : Type} {g : State → State} {x : Res α} {f f' : α → State → Res β}
    (h : ∀ v u, f' v (g u) = (f v u).onState g) : (x.onState g).bind f' = (x.bind f).onState g := by
  cases x with
  | ok v u => exact h v u
  | raised u => rfl
  | stuck e => rfl

theorem writeBack_withIO (k i w : Nat) :
    writeBack k i w (s.withIO r rs) = (writeBack k i w s).onState (·.withIO r rs) := by
  simp only [writeBack, withIO_params, withIO_entry]
  split
  · split <;> rfl
  · rfl

theorem evict_withIO (k i v : Nat) : evict k i v (s.withIO r rs) = (evict k i v s).onState (·.withIO r rs) := by
  simp only [evict, withIO_entry]
  split
  · rfl
  · split
    · exact writeBack_withIO k i v
    · rfl

theorem place_withIO (k : Nat) (a : Addr) (d : List Byte) :
    place k a d (s.withIO r rs) = (place k a d s).onState (·.withIO r rs) := by
  simp only [place, withIO_locate, withIO_params, evict_withIO]
  split
  · rfl
  · split
    · rfl
    · exact bind_onState fun _ u => by split <;> rfl

theorem localHit_withIO (k : Nat) (a : Addr) (w : Nat) :
    localHit k a w (s.withIO r rs) = (localHit k a w s).onState (·.withIO r rs) := by
  simp only [localHit, withIO_locate, withIO_params]
  split
  · rfl
  · split <;> rfl

theorem siblingCopy_withIO (j : Nat) (a : Addr) :
    siblingCopy j a (s.withIO r rs) = (siblingCopy j a s).onState (·.withIO r rs) := by
  simp only [siblingCopy, withIO_locate, withIO_params, writeBack_withIO]
  split
  · rfl
  · split
    · rfl
    · split
      · rfl
      · split
        · exact bind_onState fun _ _ => rfl
        · rfl

theorem readLineN_withIO (n k : Nat) (a : Addr) (s : State) :
    readLineN n k a (s.withIO r rs) = (readLineN n k a s).onState (·.withIO r rs) := by
  induction n generalizing k s with
  | zero => rfl
  | succ n ih =>
    simp only [readLineN, withIO_lookup, withIO_findSibling, withIO_params, siblingCopy_withIO, ih]
    split
    · exact localHit_withIO ..
    · split
      · exact bind_onState fun _ _ => place_withIO ..
      · split
        · rfl
        · split
          · exact bind_onState fun _ _ => place_withIO ..
          · exact place_withIO (s := (memRead (lineBase s.params.lineSize a) s.params.lineSize s).2) ..

theorem readLine_withIO (k : Nat) (a : Addr) :
    readLine k a (s.withIO r rs) = (readLine k a s).onState (·.withIO r rs) :=
  readLineN_withIO levels k a s

theorem invalidateCopy_withIO (j : Nat) (a : Addr) (s : State) :
    invalidateCopy j a (s.withIO r rs) = (invalidateCopy j a s).withIO r rs := by
  simp only [invalidateCopy, withIO_locate, withIO_params]
  split
  · rfl
  · split <;> rfl

theorem invalidateOthers_withIO (k : Nat) (a : Addr) (js : List Nat) (s : State) :
    invalidateOthers k a js (s.withIO r rs) = (invalidateOthers k a js s).withIO r rs := by
  induction js generalizing s with
  | nil => rfl
  | cons j js ih =>
    simp only [invalidateOthers, invalidateCopy_withIO]
    split <;> exact ih _

theorem writeLine_withIO (k : Nat) (a : Addr) (d : List Byte) :
    writeLine k a d (s.withIO r rs) = (writeLine k a d s).onState (·.withIO r rs) := by
  simp only [writeLine, withIO_locate, withIO_params, withIO_reg, invalidateOthers_withIO]
  split
  · rfl
  · split
    · rfl
    · split <;> rfl

end

/-! ### The byte of its line that an address names (R94, R95, R97) -/

section
variable {s t : State} {j k w n : Nat} {a x : Addr} {d : List Byte}

theorem locate_of_sameLine (h : sameLine s.params.lineSize x a) (k : Nat) : s.locate k x = s.locate k a := by
  simp only [State.locate, index_of_sameLine _ h]

theorem lookup_of_sameLine (h : sameLine s.params.lineSize x a) (k : Nat) : s.lookup k x = s.lookup k a := by
  simp only [State.lookup, locate_of_sameLine h, tag_of_sameLine _ h]

theorem findSibling_of_sameLine (h : sameLine s.params.lineSize x a) (k : Nat) :
    findSibling s k x = findSibling s k a := by
  simp only [findSibling, lookup_of_sameLine h]

theorem place_of_sameLine (h : sameLine s.params.lineSize x a) (k : Nat) (d : List Byte) :
    place k x d s = place k a d s := by
  simp only [place, locate_of_sameLine h, tag_of_sameLine _ h, index_of_sameLine _ h]

theorem localHit_of_sameLine (h : sameLine s.params.lineSize x a) (k w : Nat) :
    localHit k x w s = localHit k a w s := by
  simp only [localHit, locate_of_sameLine h, index_of_sameLine _ h]

theorem siblingCopy_of_sameLine (h : sameLine s.params.lineSize x a) (j : Nat) :
    siblingCopy j x s = siblingCopy j a s := by
  simp only [siblingCopy, locate_of_sameLine h, tag_of_sameLine _ h, index_of_sameLine _ h]

/-- Two ways on from the end of an operation are one if they agree on every answer it can give. -/
theorem bind_congr_ok {α β : Type} {r : Res α} {f g : α → State → Res β}
    (h : ∀ v u, r = .ok v u → f v u = g v u) : r.bind f = r.bind g := by
  cases r with
  | ok v u => exact h v u rfl
  | raised u => rfl
  | stuck e => rfl

theorem readLineN_of_sameLine (hs : Inv s) (h : sameLine s.params.lineSize x a) (n k : Nat) :
    readLineN n k x s = readLineN n k a s := by
  obtain ⟨c, hg, -⟩ := hs.exists_geometry
  induction n generalizing k with
  | zero => rfl
  | succ n ih =>
    simp only [readLineN, lookup_of_sameLine h, findSibling_of_sameLine h, localHit_of_sameLine h,
      siblingCopy_of_sameLine h, ih, (lineBase_eq_iff hg).2 h]
    split
    · rfl
    · split
      · exact bind_congr_ok fun d u hu => place_of_sameLine ((siblingCopy_frame hu).1.params ▸ h) k d
      · split
        · rfl
        · split
          · exact bind_congr_ok fun d u hu => place_of_sameLine ((readLineN_frame hu).1.params ▸ h) k d
          · exact place_of_sameLine (s := (memRead (lineBase s.params.lineSize a) s.params.lineSize s).2) h k _

theorem readLine_of_sameLine (hs : Inv s) (h : sameLine s.params.lineSize x a) (k : Nat) :
    readLine k x s = readLine k a s :=
  readLineN_of_sameLine hs h levels k

theorem invalidateCopy_of_sameLine (h : sameLine s.params.lineSize x a) (j : Nat) :
    invalidateCopy j x s = invalidateCopy j a s := by
  simp only [invalidateCopy, locate_of_sameLine h, tag_of_sameLine _ h, index_of_sameLine _ h]

theorem invalidateOthers_of_sameLine (h : sameLine s.params.lineSize x a) (k : Nat) (js : List Nat) :
    invalidateOthers k x js s = invalidateOthers k a js s := by
  induction js generalizing s with
  | nil => rfl
  | cons j js ih =>
    simp only [invalidateOthers, invalidateCopy_of_sameLine h]
    split
    · exact ih h
    · exact ih ((invalidateCopy_frame j a s).1.params ▸ h)

/-- A write that finds its line does not look at the byte named; a WRITE_MISS records it (R141). -/
theorem writeLine_of_sameLine (h : sameLine s.params.lineSize x a) {u : Unit} (hw : writeLine k x d s = .ok u t) :
    writeLine k a d s = .ok u t := by
  obtain ⟨c, cs, w, ds, hl, hf, ht, rfl⟩ := writeLine_ok hw
  rw [locate_of_sameLine h] at hl
  rw [tag_of_sameLine c h] at hf
  simp only [writeLine, hl, hf, ht, invalidateOthers_of_sameLine h, index_of_sameLine c h]

end

end Sys2Proof.Machine

/-! PROOFS. What one byte access leaves of a well-formed block (spec/45_accessors.md R155, R158): the read of its line
is an RDLINE (O35), and a write through the cache is an RDLINE and then a WRLINE. -/

namespace Sys2Proof.Machine

/-! ### The frame of a byte access -/

/-- What an access leaves alone: everything but the entry arrays, MEM, DEVLOG and the responses; of the arrays every set
that none of its addresses index; of MEM every index outside the lines it stores. -/
structure AccessFrame (s t : State) (accessed lines : List Addr) : Prop where
  control : s.sameControl t
  sets    : s.sameOtherSets t accessed
  stores  : s.sameMemOutside t lines

section
variable {s t u : State} {xs ys ls ms : List Addr}

theorem State.sameControl.refl (s : State) : s.sameControl s := ⟨rfl, rfl, rfl, rfl, rfl, rfl⟩

theorem State.sameControl.trans (h : s.sameControl t) (h' : t.sameControl u) : s.sameControl u := by
  obtain ⟨hparams, hreg, hfault, hqueue, hreq, hdraws⟩ := h
  obtain ⟨hparams', hreg', hfault', hqueue', hreq', hdraws'⟩ := h'
  exact ⟨hparams'.trans hparams, hreg'.trans hreg, hfault'.trans hfault, hqueue'.trans hqueue, hreq'.trans hreq,
    hdraws'.trans hdraws⟩

theorem State.sameControl.params (h : s.sameControl t) : t.params = s.params := by
  obtain ⟨hparams, -⟩ := h
  exact hparams

theorem State.sameControl.reg (h : s.sameControl t) : t.reg = s.reg := by
  obtain ⟨-, hreg, -⟩ := h
  exact hreg

theorem State.sameControl.fault (h : s.sameControl t) : t.fault = s.fault := by
  obtain ⟨-, -, hfault, -⟩ := h
  exact hfault

theorem State.sameOtherSets.mono (h : s.sameOtherSets t xs) (hsub : xs ⊆ ys) : s.sameOtherSets t ys :=
  fun j i hother => h j i fun x hx => hother x (hsub hx)

theorem AccessFrame.refl (s : State) : AccessFrame s s [] [] :=
  ⟨.refl s, fun _ _ _ => rfl, sameMemOutside_of_mem_eq rfl _⟩

theorem AccessFrame.mono (h : AccessFrame s t xs ls) (hsub : xs ⊆ ys) : AccessFrame s t ys ls :=
  ⟨h.control, h.sets.mono hsub, h.stores⟩

theorem AccessFrame.trans (h : AccessFrame s t xs ls) (h' : AccessFrame t u xs ms) :
    AccessFrame s u xs (ls ++ ms) where
  control := h.control.trans h'.control
  sets := h.sets.trans h.control.params h'.sets
  stores := h.stores.trans h.control.params h'.stores

/-- The responses are outside the frame. -/
theorem AccessFrame.respond (h : AccessFrame s t xs ls) (r : Response) : AccessFrame s (t.respond r) xs ls :=
  ⟨h.control, h.sets, h.stores⟩

end

/-! ### The line of one byte (R155, R158) -/

section
variable {s t u : State} {i : Instr} {k : Cid} {n : Nat} {a : Addr} {b v : Byte} {d : List Byte}

theorem readStoresN_of_sameLine {x : Addr} (h : sameLine s.params.lineSize x a) (n k : Nat) :
    readStoresN n k x s = readStoresN n k a s := by
  induction n generalizing k with
  | zero => rfl
  | succ n ih =>
    simp only [readStoresN, State.siblingStores, State.placeStores, State.victimSlot, lookup_of_sameLine h,
      findSibling_of_sameLine h, locate_of_sameLine h, index_of_sameLine _ h, ih]

theorem byteAddr_lineBase (L : Nat) (a : Addr) : byteAddr (lineBase L a) (offset L a) = a :=
  BitVec.sub_add_cancel a _

/-- Among the L bytes of its line the byte at a is VIEW(a). -/
theorem Inv.lineView_offset (h : Inv s) (a : Addr) :
    (s.lineView a)[offset s.params.lineSize a]? = some (s.view a) := by
  obtain ⟨c, hg, -⟩ := h.exists_geometry
  simp [State.lineView, offset_lt hg a, byteAddr_lineBase]

theorem Inv.withIO (h : Inv s) (r : Request) (rs : List Response) : Inv (s.withIO r rs) :=
  h.congr rfl rfl rfl h.mem h.fault

/-- A block that can perform one request can read a line through the same cache. -/
theorem Ready.toRdline (h : Ready s i) : Ready s (.rdline i.cid) := ⟨h.inv, h.noFault, h.cache⟩

theorem Ready.of_sameControl (h : Ready s i) (hinv : Inv t) (hc : s.sameControl t) : Ready t i :=
  ⟨hinv, hc.fault ▸ h.noFault, hc.params ▸ h.cache⟩

/-- What the read of the line of the byte at a through cache k leaves. -/
structure LineRead (k : Cid) (a : Addr) (s t : State) : Prop where
  inv    : Inv t
  line   : readLine k.toNat a s = .ok (s.lineView a) t
  after  : s.afterRdline t k a
  held   : t.cohAt k.toNat a ≠ .invalid
  devlog : t.devlog = s.devlog
  frame  : AccessFrame s t [a] (readStores k.toNat (lineBase s.params.lineSize a) s)

/-- An RDLINE answers what read_line does in a block with another request in progress and other responses given. -/
theorem exec_rdline_withIO {r : Request} {rs : List Response} (hr : readLine k.toNat r.addr s = .ok d t) :
    exec (.rdline k) (s.withIO r rs) = .next ((t.withIO r rs).respond (Response.line d)) := by
  have hr' : readLine k.toNat (s.withIO r rs).req.addr (s.withIO r rs) = .ok d (t.withIO r rs) := by
    rw [withIO_req, readLine_withIO, hr, onState_ok]
  simp only [exec, execRdline, hr', bind_ok, Res.finish]

theorem exec_wrline_withIO {r : Request} {rs : List Response} (hlen : r.lineIn.length = s.params.lineSize)
    (hw : writeLine k.toNat r.addr r.lineIn s = .ok () t) :
    exec (.wrline k) (s.withIO r rs) = .next ((t.withIO r rs).respond Response.done) := by
  have hw' : writeLine k.toNat (s.withIO r rs).req.addr (s.withIO r rs).req.lineIn (s.withIO r rs) =
      .ok () (t.withIO r rs) := by
    rw [withIO_req, writeLine_withIO, hw, onState_ok]
  have hlen' : (s.withIO r rs).req.lineIn.length = (s.withIO r rs).params.lineSize := hlen
  simp only [exec, execWrline, if_pos hlen', hw', bind_ok, Res.finish]

/-- The read of a byte's line answers VIEW of the line: it is an RDLINE at the byte's address (O35). -/
theorem readBase_lineRead (h : Ready s (.rdline k)) (hr : readLine k.toNat (lineBase s.params.lineSize a) s = .ok d t) :
    d = s.lineView a ∧ LineRead k a s t := by
  obtain ⟨c, hg, -⟩ := h.inv.exists_geometry
  have hline := sameLine_lineBase hg a
  have hinv := (readLine_inv h.inv hr).1
  have hframe := (readLineN_frame hr).1
  rw [readLine_of_sameLine h.inv hline] at hr
  have hexec := exec_rdline_withIO (r := { s.req with addr := a }) (rs := s.responses) hr
  obtain ⟨u, hexec', hresp, hheld, hcontrol, hdev, hsets, hstores⟩ := rdlineReturnsTheCoherentLine
    (s.withIO { s.req with addr := a } s.responses) k ⟨h.inv.withIO .., h.noFault, h.cache⟩
  obtain rfl := Host.Outcome.next.inj (hexec'.symm.trans hexec)
  obtain ⟨hparams, hreg, hfault, hqueue, -, hdraws⟩ := hcontrol
  obtain rfl : d = s.lineView a := by
    have hline : [Response.line d] = [Response.line (s.lineView a)] := List.append_cancel_left hresp
    simpa [Response.line] using hline
  refine ⟨rfl, hinv, hr, ⟨_, hexec, hframe.withIO_self.symm⟩, hheld, hdev,
    ⟨hparams, hreg, hfault, hqueue, hframe.req, hdraws⟩, hsets, ?_⟩
  rw [readStores, readStoresN_of_sameLine hline]
  exact hstores

/-- What get_byte leaves that answers v (R155). -/
structure ByteRead (k : Cid) (a : Addr) (v : Byte) (s t : State) : Prop extends LineRead k a s t where
  get   : getByte k.toNat a s = .ok v t
  value : v = s.view a

theorem getByte_byteRead (h : Ready s (.rdline k)) (hg : getByte k.toNat a s = .ok v t) : ByteRead k a v s t := by
  obtain ⟨buf, hr, hv⟩ := getByte_ok hg
  obtain ⟨rfl, hread⟩ := readBase_lineRead h hr
  exact ⟨hread, hg, Option.some.inj (hv.symm.trans (h.inv.lineView_offset a))⟩

/-! ### The byte written through the cache (R158) -/

/-- The line of a as the block holds it, with the byte at a replaced. -/
def State.lineWith (s : State) (a : Addr) (b : Byte) : List Byte :=
  (s.lineView a).set (offset s.params.lineSize a) b

@[simp] theorem lineWith_length (s : State) (a : Addr) (b : Byte) :
    (s.lineWith a b).length = s.params.lineSize := by
  simp [State.lineWith, State.lineView]

theorem Inv.lineWith_offset (h : Inv s) (a : Addr) (b : Byte) :
    (s.lineWith a b)[offset s.params.lineSize a]? = some b := by
  obtain ⟨c, hg, -⟩ := h.exists_geometry
  exact List.getElem?_set_self (by simpa [State.lineView] using offset_lt hg a)

/-- What put_byte of b at a through cache k leaves. -/
structure CachedWrite (k : Cid) (a : Addr) (b : Byte) (s t : State) : Prop where
  inv    : Inv t
  after  : s.afterReadWrite t k a (s.lineWith a b)
  coh    : t.cohAt k.toNat a = .modified
  data   : t.dataAt k.toNat a = s.lineWith a b
  others : ∀ j ∈ s.reg, j ≠ k.toNat → t.cohAt j a = .invalid
  recent : ∃ ds w, t.setAt k.toNat a = some ds ∧ t.lookup k.toNat a = some w ∧ ds.order.head? = some w
  view   : t.view a = b
  devlog : t.devlog = s.devlog
  frame  : AccessFrame s t [a] (readStores k.toNat (lineBase s.params.lineSize a) s)

/-- A write of the line after a read of it is an RDLINE and a WRLINE. -/
theorem LineRead.afterReadWrite {l : List Byte} (h : LineRead k a s t) (hlen : l.length = s.params.lineSize)
    (hframe : SameFrame s u) (hw : writeLine k.toNat a l t = .ok () u) : s.afterReadWrite u k a l := by
  obtain ⟨w, hexec, ht⟩ := h.after
  have hwr := exec_wrline_withIO (r := { s.req with addr := a, lineIn := l }) (rs := w.responses)
    (hlen.trans (congrArg Params.lineSize h.frame.control.params).symm) hw
  obtain rfl := ht
  exact ⟨w, _, hexec, hwr, hframe.withIO_self.symm⟩

/-- A write that answers leaves the line in the way where the read left it, most recent in its set (R143). -/
theorem writeLine_recent {k : Nat} {r : Unit} (h : Inv s) (hd : d.length = s.params.lineSize)
    (hwrite : writeLine k a d s = .ok r t) :
    ∃ ds w, t.setAt k a = some ds ∧ t.lookup k a = some w ∧ ds.order.head? = some w := by
  obtain ⟨c, _, w, _, hl, hf, -, -⟩ := writeLine_ok hwrite
  obtain ⟨hlookup, _, ds, -, hset, -, hmoved⟩ := writeLine_set h hd ((lookup_of_locate hl).trans hf) hwrite
  exact ⟨ds, w, hset, hlookup, by rw [hmoved, List.head?_cons]⟩

/-- write_line stores nothing to MEM (R143). -/
theorem writeLine_accessFrame {k : Nat} {r : Unit} (h : Inv s) (hwrite : writeLine k a d s = .ok r t) :
    AccessFrame s t [a] [] := by
  obtain ⟨hframe, -, hmem, hdraws⟩ := writeLine_frame hwrite
  exact ⟨⟨hframe.params, hframe.reg, hframe.fault, hframe.queue, hframe.req, hdraws⟩,
    writeLine_sameOtherSets h hwrite, sameMemOutside_of_mem_eq hmem _⟩

theorem putByteCached_cachedWrite (h : Ready s (.rdline k)) (hp : putByteCached k.toNat a b s = .ok () t) :
    CachedWrite k a b s t := by
  obtain ⟨c, hg, -⟩ := h.inv.exists_geometry
  obtain ⟨buf, s1, hr, hwrite⟩ := putByteCached_ok hp
  obtain ⟨rfl, hread⟩ := readBase_lineRead h hr
  have hparams := hread.frame.control.params
  have hwrite : writeLine k.toNat a (s.lineWith a b) s1 = .ok () t :=
    writeLine_of_sameLine (hparams ▸ sameLine_lineBase hg a) hwrite
  have hlen : (s.lineWith a b).length = s1.params.lineSize := by rw [lineWith_length, hparams]
  have hinv := writeLine_inv hread.inv hlen hwrite
  obtain ⟨-, hnew, -⟩ := writeLine_hasCopy hread.inv hlen hwrite
  have hcopy := hnew a (sameLine_refl ..)
  obtain ⟨hst, hdata⟩ := hinv.setsOk.cohAt_of_hasCopy hcopy
  obtain ⟨hframe, hdev, -⟩ := writeLine_frame hwrite
  have hview := hinv.view_of_hasCopy hcopy
  rw [hframe.params, hparams, h.inv.lineWith_offset] at hview
  exact {
    inv := hinv
    after := hread.afterReadWrite (lineWith_length ..) (putByteCached_frame hp).1 hwrite
    coh := hst
    data := hdata
    others := fun j hj hjk => hinv.singleWriter a k.toNat (hasCopy_mem_reg hinv.setsOk hcopy) j
      ((putByteCached_frame hp).1.reg ▸ hj) (Ne.symm hjk) hst
    recent := writeLine_recent hread.inv hlen hwrite
    view := (Option.some.inj hview).symm
    devlog := hdev.trans hread.devlog
    frame := by simpa using hread.frame.trans (writeLine_accessFrame hread.inv hwrite) }

end
end Sys2Proof.Machine

/-! PROOFS. The bytes of a GET or PUT in turn (spec/45_accessors.md R156 to R171; spec/20_memory.md R59): where the
dispatcher sends each byte, what the bytes leave together, and the obligations on the accessors. -/

namespace Sys2Proof.Machine

/-! ### The device dispatcher (R157, R160, R171) -/

section
variable {p : Params} {s : State} {k d : Nat} {a : Addr} {b : Byte} {r : DeviceRange}

theorem rangeContains_iff : rangeContains a r = true ↔ r.start ≤ a ∧ a < r.stop := by
  simp [rangeContains]

/-- Of disjoint ranges, the one found is the only one that holds the address (R104, R160). -/
theorem devFind_of_contains (hlegal : devicesLegal p) (hd : p.devices[d]? = some r) (hin : rangeContains a r = true) :
    devFind p a = some d := by
  obtain ⟨-, hdisj⟩ := hlegal
  obtain ⟨hlt, rfl⟩ := List.getElem?_eq_some_iff.1 hd
  refine List.findIdx?_eq_some_iff_getElem.2 ⟨hlt, hin, fun j hj hin' => ?_⟩
  obtain ⟨hlow, hhigh⟩ := rangeContains_iff.1 hin
  obtain ⟨hlow', hhigh'⟩ := rangeContains_iff.1 hin'
  rcases List.pairwise_iff_getElem.1 hdisj j d (hj.trans hlt) hlt hj with hbefore | hbefore
  · bv_omega
  · bv_omega

theorem writeHandler_of_contains (hlegal : devicesLegal p) (hd : p.devices[d]? = some r)
    (hin : rangeContains a r = true) (hw : r.hasWriteHandler = true) : writeHandler p a = some d := by
  simp only [writeHandler, devFind_of_contains hlegal hd hin, hd, if_pos hw]

/-- The handler that takes a byte is that of a range which holds its address. -/
theorem writeHandler_eq_some (h : writeHandler p a = some d) :
    ∃ r, p.devices[d]? = some r ∧ rangeContains a r = true ∧ r.hasWriteHandler = true := by
  cases hf : devFind p a with
  | none => simp [writeHandler, hf] at h
  | some e =>
    obtain ⟨hlt, hin, -⟩ := List.findIdx?_eq_some_iff_getElem.1 hf
    have he : p.devices[e]? = some p.devices[e] := List.getElem?_eq_getElem hlt
    simp only [writeHandler, hf, he, Option.ite_none_right_eq_some, Option.some.injEq] at h
    obtain ⟨hw, rfl⟩ := h
    exact ⟨_, he, hin, hw⟩

theorem putByte_of_handler (h : writeHandler s.params a = some d) (k : Nat) (b : Byte) :
    putByte k a b s = .ok () (devWrite d a b s) := by
  simp only [putByte, h]

theorem putByte_of_no_handler (h : writeHandler s.params a = none) (k : Nat) (b : Byte) :
    putByte k a b s = putByteCached k a b s := by
  simp only [putByte, h]

theorem flatEvents_cons (p : Params) (a : Addr) (b : Byte) (bs : List Byte) :
    flatEvents p a (b :: bs) = flatEvents p a [b] ++ flatEvents p (a + 1) bs := by
  simp only [flatEvents, List.append_nil]

theorem flatEvents_of_handler (h : writeHandler p a = some d) (b : Byte) :
    flatEvents p a [b] = [{ device := d, addr := a, byte := b }] := by
  simp only [flatEvents, h, List.append_nil]

theorem flatEvents_of_no_handler (h : writeHandler p a = none) (b : Byte) : flatEvents p a [b] = [] := by
  simp only [flatEvents, h, List.append_nil]

end

/-! ### The byte written (R157) -/

section
variable {s t : State} {k : Cid} {d : Nat} {a : Addr} {b : Byte} {bs : List Byte}

theorem putStores_cons {k : Nat} (hp : putByte k a b s = .ok () t) :
    putStores k a (b :: bs) s = putStores k a [b] s ++ putStores k (a + 1) bs t := by
  simp only [putStores, hp, List.append_nil]

theorem putStores_of_handler {k : Nat} (h : writeHandler s.params a = some d) : putStores k a [b] s = [] := by
  simp only [putStores, h, putByte_of_handler h, List.append_nil]

theorem putStores_of_no_handler {k : Nat} (h : writeHandler s.params a = none) (hp : putByte k a b s = .ok () t) :
    putStores k a [b] s = readStores k (lineBase s.params.lineSize a) s := by
  simp only [putStores, h, hp, List.append_nil]

/-- What put_byte of b at a for cache k leaves. -/
structure ByteWritten (k : Cid) (a : Addr) (b : Byte) (s t : State) : Prop where
  inv    : Inv t
  put    : putByte k.toNat a b s = .ok () t
  device : ∀ d, writeHandler s.params a = some d → t = devWrite d a b s
  cached : writeHandler s.params a = none → CachedWrite k a b s t
  events : t.devlog = s.devlog ++ flatEvents s.params a [b]
  frame  : AccessFrame s t [a] (putStores k.toNat a [b] s)

/-- A handler call changes DEVLOG alone. -/
theorem devWrite_accessFrame (d : Nat) (a : Addr) (b : Byte) (s : State) : AccessFrame s (devWrite d a b s) [a] [] :=
  ⟨⟨rfl, rfl, rfl, rfl, rfl, rfl⟩, fun _ _ _ => rfl, sameMemOutside_of_mem_eq rfl _⟩

theorem putByte_byteWritten (h : Ready s (.rdline k)) (hp : putByte k.toNat a b s = .ok () t) :
    ByteWritten k a b s t := by
  have hinv := putByte_inv h.inv hp
  cases hdev : writeHandler s.params a with
  | some d =>
    obtain rfl : devWrite d a b s = t := by simpa [putByte_of_handler hdev] using hp
    exact {
      inv := hinv
      put := hp
      device := fun e he => by rw [Option.some.inj (hdev.symm.trans he)]
      cached := fun hnone => absurd (hdev.symm.trans hnone) nofun
      events := by rw [flatEvents_of_handler hdev, devWrite_devlog]
      frame := putStores_of_handler hdev ▸ devWrite_accessFrame d a b s }
  | none =>
    have hwritten := putByteCached_cachedWrite h ((putByte_of_no_handler hdev ..).symm.trans hp)
    exact {
      inv := hinv
      put := hp
      device := fun e he => absurd (hdev.symm.trans he) nofun
      cached := fun _ => hwritten
      events := by rw [flatEvents_of_no_handler hdev, List.append_nil, hwritten.devlog]
      frame := putStores_of_no_handler hdev hp ▸ hwritten.frame }

end

/-! ### The bytes of an access in turn (R156, R159) -/

/-- One byte after the other at a, a + 1, ... modulo 2^64, each step of R from the state the one before left. -/
inductive ByteRun (R : Addr → Byte → State → State → Prop) : Addr → List Byte → State → State → Prop
  | nil (a : Addr) (s : State) : ByteRun R a [] s s
  | cons {a : Addr} {b : Byte} {bs : List Byte} {s t u : State} (first : R a b s t) (rest : ByteRun R (a + 1) bs t u) :
      ByteRun R a (b :: bs) s u

section
variable {R : Addr → Byte → State → State → Prop} {s t u : State} {i : Instr} {k : Cid} {n j : Nat} {a : Addr}
  {b : Byte} {bs : List Byte}

theorem byteAddr_zero (a : Addr) : byteAddr a 0 = a := BitVec.add_zero a

theorem byteAddr_succ (a : Addr) (j : Nat) : byteAddr (a + 1) j = byteAddr a (j + 1) := by
  simp only [byteAddr, BitVec.ofNat_add]
  ac_rfl

/-- A state before a sequence of states. -/
def stateCons (s : State) (st : Nat → State) : Nat → State
  | 0 => s
  | j + 1 => st j

/-- The states between the bytes. -/
theorem ByteRun.states (h : ByteRun R a bs s t) :
    ∃ st : Nat → State, st 0 = s ∧ st bs.length = t ∧
      ∀ j, ∀ b ∈ bs[j]?, R (byteAddr a j) b (st j) (st (j + 1)) := by
  induction h with
  | nil a s => exact ⟨fun _ => s, rfl, rfl, by simp⟩
  | @cons a b bs s t u first rest ih =>
    obtain ⟨st, hfirst, hlast, hsteps⟩ := ih
    refine ⟨stateCons s st, rfl, hlast, fun j v hv => ?_⟩
    cases j with
    | zero =>
      obtain rfl : b = v := by simpa using hv
      rw [byteAddr_zero, stateCons, stateCons, hfirst]
      exact first
    | succ j =>
      rw [← byteAddr_succ]
      exact hsteps j v (by simpa using hv)

/-- What every byte keeps, the states between keep from the first on. -/
theorem sameControl_of_steps {st : Nat → State} (h : ∀ j < n, (st j).sameControl (st (j + 1))) :
    ∀ j ≤ n, (st 0).sameControl (st j)
  | 0, _ => .refl _
  | j + 1, hj => (sameControl_of_steps h j (Nat.le_of_succ_le hj)).trans (h j hj)

theorem getBytes_run (h : Ready s (.rdline k)) (hg : getBytes k.toNat a n s = .ok bs t) :
    bs.length = n ∧ ByteRun (ByteRead k) a bs s t := by
  induction n generalizing a bs s with
  | zero =>
    simp only [getBytes] at hg
    cases hg
    exact ⟨rfl, .nil ..⟩
  | succ n ih =>
    obtain ⟨b, s1, bs1, hb, hrest, rfl⟩ := getBytes_ok hg
    have hread := getByte_byteRead h hb
    obtain ⟨hlen, hrun⟩ := ih (h.of_sameControl hread.inv hread.frame.control) hrest
    exact ⟨congrArg (· + 1) hlen, .cons hread hrun⟩

theorem putBytes_run (h : Ready s (.rdline k)) (hp : putBytes k.toNat a bs s = .ok () t) :
    ByteRun (ByteWritten k) a bs s t := by
  induction bs generalizing a s with
  | nil =>
    simp only [putBytes] at hp
    cases hp
    exact .nil ..
  | cons b bs ih =>
    obtain ⟨s1, hb, hrest⟩ := putBytes_ok hp
    have hwritten := putByte_byteWritten h hb
    exact .cons hwritten (ih (h.of_sameControl hwritten.inv hwritten.frame.control) hrest)

/-- The frame of a first byte and that of the rest make that of the access. -/
theorem AccessFrame.bytes {ls ms : List Addr} (h : AccessFrame s t [a] ls)
    (hrest : AccessFrame t u (accessBytes (a + 1) n) ms) : AccessFrame s u (accessBytes a (n + 1)) (ls ++ ms) := by
  rw [accessBytes_succ]
  exact (h.mono (by simp)).trans (hrest.mono (List.subset_cons_self ..))

theorem ByteRun.getFrame (h : ByteRun (ByteRead k) a bs s t) :
    t.devlog = s.devlog ∧ AccessFrame s t (accessBytes a bs.length) (getStores k.toNat a bs.length s) := by
  induction h with
  | nil a s => exact ⟨rfl, .refl s⟩
  | cons first rest ih =>
    obtain ⟨hdev, hframe⟩ := ih
    refine ⟨hdev.trans first.devlog, ?_⟩
    simp only [List.length_cons, getStores, first.get]
    exact first.frame.bytes hframe

theorem ByteRun.putFrame (h : ByteRun (ByteWritten k) a bs s t) :
    t.devlog = s.devlog ++ flatEvents s.params a bs ∧
      AccessFrame s t (accessBytes a bs.length) (putStores k.toNat a bs s) := by
  induction h with
  | nil a s => exact ⟨(List.append_nil _).symm, .refl s⟩
  | cons first rest ih =>
    obtain ⟨hdev, hframe⟩ := ih
    rw [hdev, first.events, first.frame.control.params, List.append_assoc, ← flatEvents_cons, putStores_cons first.put]
    exact ⟨rfl, first.frame.bytes hframe⟩

/-! ### The requests -/

theorem respond_eq (h : t.responses = s.responses) (r : Response) :
    t.respond r = { t with responses := s.responses ++ [r] } := by
  rw [← h]
  rfl

/-- A GET that can be performed reads its bytes in turn and answers their little-endian composition (R156). -/
theorem Ready.get (h : Ready s i) (hi : getWidth i = some n) :
    ∃ bs u, bs.length = n ∧ ByteRun (ByteRead i.cid) s.req.addr bs s u ∧
      exec i s = .next (u.respond (Response.read (littleEndian bs))) ∧ u.responses = s.responses := by
  obtain ⟨bs, u, hbytes⟩ := getBytes_completes h.inv (toNat_lt_of_wellFormed h.cache) s.req.addr n
  obtain ⟨hlen, hrun⟩ := getBytes_run h.toRdline hbytes
  exact ⟨bs, u, hlen, hrun, by simp only [exec_of_getWidth hi, getN, hbytes, bind_ok, Res.finish],
    (getBytes_frame hbytes).1.responses⟩

/-- A PUT that can be performed puts its bytes in turn (R159). -/
theorem Ready.put (h : Ready s i) (hi : putWidth i = some n) :
    ∃ u, ByteRun (ByteWritten i.cid) s.req.addr (s.req.putData n) s u ∧
      exec i s = .next (u.respond Response.done) ∧ u.responses = s.responses := by
  obtain ⟨u, hbytes⟩ := putBytes_completes h.inv (toNat_lt_of_wellFormed h.cache) s.req.addr (s.req.putData n)
  exact ⟨u, putBytes_run h.toRdline hbytes, by simp only [exec_of_putWidth hi, putN, hbytes, bind_ok, Res.finish],
    (putBytes_frame hbytes).responses⟩

theorem getWidth_bounds (h : getWidth i = some n) : 0 < n ∧ n ≤ 8 := by
  cases i <;> cases h <;> decide

/-! ### The bytes of a value (R76, R77) -/

theorem littleEndian_firstByte (b : Byte) (bs : List Byte) : (littleEndian (b :: bs)).extractLsb' 0 8 = b := by
  ext x hx
  have hx64 : x < 64 := by omega
  simp [littleEndian, hx, hx64]

theorem littleEndian_laterByte (b : Byte) (bs : List Byte) (hj : j + 1 < 8) :
    (littleEndian (b :: bs)).extractLsb' (8 * (j + 1)) 8 = (littleEndian bs).extractLsb' (8 * j) 8 := by
  ext x hx
  have hx64 : 8 * (j + 1) + x < 64 := by omega
  have hx8 : ¬ 8 * (j + 1) + x < 8 := by omega
  have hsub : 8 * (j + 1) + x - 8 = 8 * j + x := by omega
  have hbit : b.getLsbD (8 * (j + 1) + x) = false := BitVec.getLsbD_of_ge _ _ (by omega)
  have hrest : (littleEndian bs).getLsbD (8 * j + x) = (littleEndian bs)[8 * j + x] := BitVec.getLsbD_eq_getElem _
  simp [littleEndian, hx64, hx8, hsub, hbit, hrest]

/-- Byte j of a little-endian composition of at most 8 bytes is byte j of the list. -/
theorem littleEndian_byte (hlen : bs.length ≤ 8) (hb : bs[j]? = some b) :
    (littleEndian bs).extractLsb' (8 * j) 8 = b := by
  induction bs generalizing j with
  | nil => simp at hb
  | cons v bs ih =>
    simp only [List.length_cons] at hlen
    cases j with
    | zero => exact (littleEndian_firstByte v bs).trans (by simpa using hb)
    | succ j =>
      have hb : bs[j]? = some b := by simpa using hb
      have hj : j < bs.length := (List.getElem?_eq_some_iff.1 hb).1
      exact (littleEndian_laterByte v bs (by omega)).trans (ih (by omega) hb)

/-- The bits above the bytes are 0. -/
theorem littleEndian_lt (bs : List Byte) : (littleEndian bs).toNat < 2 ^ (8 * bs.length) := by
  induction bs with
  | nil => decide
  | cons v bs ih =>
    have hlow : (v.setWidth 64).toNat < 2 ^ (8 * (bs.length + 1)) := calc
      (v.setWidth 64).toNat ≤ v.toNat := (BitVec.toNat_setWidth 64 v).trans_le (Nat.mod_le ..)
      _ < 2 ^ 8 := v.isLt
      _ ≤ 2 ^ (8 * (bs.length + 1)) := Nat.pow_le_pow_right (by decide) (by omega)
    have hhigh : (littleEndian bs <<< 8).toNat < 2 ^ (8 * (bs.length + 1)) := calc
      (littleEndian bs <<< 8).toNat ≤ (littleEndian bs).toNat * 2 ^ 8 := by
        rw [BitVec.toNat_shiftLeft, Nat.shiftLeft_eq]
        exact Nat.mod_le ..
      _ < 2 ^ (8 * bs.length) * 2 ^ 8 := Nat.mul_lt_mul_of_pos_right ih (Nat.two_pow_pos 8)
      _ = 2 ^ (8 * (bs.length + 1)) := by rw [← Nat.pow_add, Nat.mul_succ]
    rw [littleEndian, BitVec.toNat_or]
    exact Nat.or_lt_two_pow hlow hhigh

theorem putByte_eq_setWidth (r : Request) : r.putByte 0 = r.wdata.setWidth 8 := by
  rw [Request.putByte, Nat.mul_zero, BitVec.setWidth_eq_extractLsb' (by decide)]

theorem putData_getElem? (r : Request) (hj : j < n) : (r.putData n)[j]? = some (r.putByte j) := by
  simp [Request.putData, hj]

/-- A request of one byte has one step. -/
theorem ByteRun.single (h : ByteRun R a [b] s t) : R a b s t := by
  cases h with
  | cons first rest =>
    cases rest with
    | nil => exact first

end

/-! ### The obligations -/

/-- Settles O45: the handler that takes a byte is that of a range which holds its address. -/
theorem byteWithoutHandlerGoesThroughTheCache : Obligations.ByteWithoutHandlerGoesThroughTheCache := by
  intro s k a b hnone
  refine putByte_of_no_handler (Option.eq_none_iff_forall_ne_some.2 fun d hd => ?_) k b
  obtain ⟨r, hr, hin, hw⟩ := writeHandler_eq_some hd
  obtain ⟨hlow, hhigh⟩ := rangeContains_iff.1 hin
  exact absurd (hw.symm.trans (hnone r (List.mem_of_getElem? hr) hlow hhigh)) nofun

/-- Settles O44: of disjoint ranges the dispatcher finds the one that holds the address, and its handler takes the
byte. -/
theorem putByteToDeviceCallsItsHandler : Obligations.PutByteToDeviceCallsItsHandler := by
  intro s k d r hlegal hd hlow hhigh hw
  have hdev := writeHandler_of_contains hlegal hd (rangeContains_iff.2 ⟨hlow, hhigh⟩) hw
  have hdata : s.req.putData 1 = [s.req.wdata.setWidth 8] := congrArg (fun b => [b]) (putByte_eq_setWidth s.req)
  rw [exec_of_putWidth rfl]
  simp only [putN, hdata, putBytes, putByte_of_handler hdev, bind_ok]
  rfl

/-- Settles O55: byte by byte (`ByteRun.states`), each byte VIEW of its address in the state it is read in. -/
theorem getReadsByteByByte : Obligations.GetReadsByteByByte := by
  intro s i n hi hready
  obtain ⟨bs, u, rfl, hrun, hexec, hresp⟩ := hready.get hi
  obtain ⟨st, hfirst, rfl, hsteps⟩ := hrun.states
  rw [respond_eq hresp] at hexec
  refine ⟨st, littleEndian bs, hfirst, fun j hj => ?_, littleEndian_lt bs, hexec⟩
  have hb := List.getElem?_eq_getElem hj
  have hread := hsteps j _ hb
  rw [littleEndian_byte (getWidth_bounds hi).2 hb]
  exact ⟨hread.get, hread.after, hread.value, hread.inv⟩

/-- Settles O38: the frames of the bytes add up (`ByteRun.getFrame`), and the last byte's read leaves its line valid. -/
theorem getCompletes : Obligations.GetCompletes := by
  intro s i n hi hready
  obtain ⟨bs, u, rfl, hrun, hexec, hresp⟩ := hready.get hi
  obtain ⟨hdev, hframe⟩ := hrun.getFrame
  obtain ⟨st, -, rfl, hsteps⟩ := hrun.states
  have hpos := (getWidth_bounds hi).1
  have hlast := hsteps _ _ (List.getElem?_eq_getElem (Nat.sub_one_lt_of_lt hpos))
  rw [Nat.sub_one_add_one hpos.ne'] at hlast
  have hframe := hframe.respond (Response.read (littleEndian bs))
  exact ⟨_, littleEndian bs, hexec, congrArg (· ++ _) hresp, littleEndian_lt bs, hlast.held, hframe.control, hdev,
    hframe.sets, hframe.stores⟩

/-- Settles O39: the one byte of O55. -/
theorem getByteReturnsTheView : Obligations.GetByteReturnsTheView := by
  intro s k hready
  obtain ⟨bs, u, hlen, hrun, hexec, hresp⟩ := hready.get rfl
  obtain ⟨v, rfl⟩ := List.length_eq_one_iff.1 hlen
  have hread := hrun.single
  have hvalue : littleEndian [v] = (s.view s.req.addr).setWidth 64 := by simp [littleEndian, hread.value]
  rw [hvalue, respond_eq hresp] at hexec
  exact ⟨u, hread.after, hexec⟩

/-- Settles O42: the frames and the handler calls of the bytes add up (`ByteRun.putFrame`). -/
theorem putCompletes : Obligations.PutCompletes := by
  intro s i n hi hready
  obtain ⟨u, hrun, hexec, hresp⟩ := hready.put hi
  obtain ⟨hdev, hframe⟩ := hrun.putFrame
  rw [putData_length] at hframe
  have hframe := hframe.respond Response.done
  exact ⟨_, hexec, congrArg (· ++ _) hresp, hframe.control, hdev, hframe.sets, hframe.stores⟩

/-- Settles O43: the one byte of a PUT.B, which no handler takes, is the read-before-write sequence. -/
theorem putByteModifiesTheLine : Obligations.PutByteModifiesTheLine := by
  intro s k hready hdev
  obtain ⟨u, hrun, hexec, hresp⟩ := hready.put rfl
  have hwritten := (ByteRun.single (b := s.req.putByte 0) hrun).cached hdev
  rw [putByte_eq_setWidth] at hwritten
  rw [respond_eq hresp] at hexec
  exact ⟨u, hwritten.after, hexec, hwritten.coh, hwritten.data, hwritten.others, hwritten.recent, hwritten.devlog⟩

/-- Settles O56: byte by byte (`ByteRun.states`), each byte to its handler or through the cache. -/
theorem putWritesByteByByte : Obligations.PutWritesByteByByte := by
  intro s i n hi hready
  obtain ⟨u, hrun, hexec, hresp⟩ := hready.put hi
  obtain ⟨st, rfl, rfl, hsteps⟩ := hrun.states
  rw [putData_length] at hexec hresp
  rw [respond_eq hresp] at hexec
  have hwritten := fun j hj => hsteps j _ (putData_getElem? (st 0).req (n := n) (j := j) hj)
  refine ⟨st, rfl, fun j hj => ?_, hexec⟩
  have hcontrol := sameControl_of_steps (fun j hj => (hwritten j hj).frame.control) j hj.le
  have hbyte := hwritten j hj
  have hdevice := hbyte.device
  have hcached := hbyte.cached
  rw [hcontrol.params] at hdevice hcached
  refine ⟨hbyte.put, hbyte.inv, hdevice, fun hnone => ?_⟩
  have hc := hcached hnone
  have hdata := hc.data
  have hafter := hc.after
  rw [State.lineWith, hcontrol.params] at hdata hafter
  exact ⟨hafter, hc.coh, hdata, hcontrol.reg ▸ hc.others, hc.view⟩

end Sys2Proof.Machine

/-! PROOFS. The fault state (spec/60_exceptions.md R180, R183 to R187, R195): an idle block holds its state, a request
raises only one of the two request faults and then changes FAULT and the interface alone, and a run that has gone wrong
stays wrong. -/

namespace Sys2Proof.Machine

section
variable {s t : State} {r : Request} {rest : List Request} {c : Cid}

/-! ### The request faults (R184, R186) -/

/-- A step of a well-formed block that changes FAULT had a clear FAULT and took a faulting request: FAULT is clear
while it is not valid, so one that changed is valid after the step. -/
theorem Inv.faultingRequest_of_fault_ne (h : Inv s) (hstep : step s = .next t) (hchanged : t.fault ≠ s.fault) :
    s.fault.valid = false ∧ s.faultingRequest := by
  obtain ⟨-, hsticky, -⟩ := faultIsStickyAndRefusesRequests s
  have hclear : s.fault.valid = false :=
    Bool.eq_false_of_not_eq_true fun hvalid => hchanged (congrArg State.fault (hsticky hvalid t hstep))
  have hform : ¬ s.malformedRequest := fun hform => by
    cases hstep.symm.trans (step_of_malformedRequest hform hclear)
  obtain ⟨u, hnext, hraised⟩ := h.step_answers hclear hform
  obtain rfl : u = t := Host.Outcome.next.inj (hnext.symm.trans hstep)
  have hvalid : u.fault.valid = true := by
    by_contra hinvalid
    have hu : u.fault = FaultReg.clear :=
      (stepKeepsWellFormedness s u h hstep).fault.1 (Bool.eq_false_of_not_eq_true hinvalid)
    exact hchanged (hu.trans (h.fault.1 hclear).symm)
  exact ⟨hclear, hraised.1 hvalid⟩

/-- A WRLINE of L bytes that misses is taken and raises WRITE_MISS (R141, R184). -/
theorem Inv.step_wrline_miss (h : Inv s) (hqueue : s.queue = r :: rest) (hclear : s.fault.valid = false)
    (hdec : decode s.params.nCaches r.word = .ok (.wrline c)) (hlen : r.lineIn.length = s.params.lineSize)
    (hmiss : s.lookup c.toNat r.addr = none) :
    ∃ level, step s = .next
      (((s.accept r rest).raiseFault .writeMiss (some c.toNat) (some level) (some r.addr)).respond
        Response.faulted) := by
  obtain ⟨cfg, cs, hl⟩ := h.locate_completes (toNat_lt_of_wellFormed (wellFormed_of_decode hdec)) r.addr
  have hfind := (lookup_of_locate hl).symm.trans hmiss
  rw [step_of_fetch_request (fetch_of_decode_ok hqueue hclear hdec)]
  exact ⟨cfg.level, exec_wrline_of_miss (s := s.accept r rest) hlen hl hfind⟩

/-! ### Runs that have gone wrong (R180) -/

theorem run_succ_fault {n : Nat} {e : Fault} (h : step s = .fault e) :
    Sys2Proof.core.run (n + 1) s = .fault e := by
  have h' : Sys2Proof.core.step s = .fault e := h
  simp only [Host.Core.run, h']

/-- A run judged wrong is judged wrong after any further steps: it is in the fault state, or it has stopped. -/
theorem runVerdict_add_of_wrong {m : Nat} (h : runVerdict m s = .wrong) (n : Nat) :
    runVerdict (m + n) s = .wrong := by
  induction m generalizing s with
  | zero =>
    obtain ⟨t, hnext, hvalid⟩ | ⟨e, hfault⟩ | hrefused := verdict_eq_wrong.1 h
    · obtain rfl : s = t := Host.Outcome.next.inj hnext
      exact runVerdict_of_faulted hvalid _
    · cases hfault
    · cases hrefused
  | succ m ih =>
    rw [Nat.add_right_comm]
    cases hstep : step s with
    | next t =>
      rw [runVerdict, run_succ_next hstep] at h ⊢
      exact ih h
    | fault e => rwa [runVerdict, run_succ_fault hstep] at h ⊢
    | refused e => rwa [runVerdict, run_succ_refused hstep] at h ⊢

end

/-! ### The obligations on the fault state -/

/-- Settles O8: an idle block fetches no request. -/
theorem idleBlockHoldsItsState : Obligations.IdleBlockHoldsItsState :=
  fun _ => step_of_no_request

/-- Settles O19: a step that changes FAULT took a faulting request (`Inv.faultingRequest_of_fault_ne`), and what each
of the two kinds leaves is known. -/
theorem requestFaultsArePrecise : Obligations.RequestFaultsArePrecise := by
  intro s t h hstep hchanged
  obtain ⟨hclear, r, rest, hqueue, ⟨e, hdec⟩ | ⟨c, hdec, hlen, hmiss⟩⟩ := h.faultingRequest_of_fault_ne hstep hchanged
  · have hraised := step_of_reservedWord hqueue hclear (decode_eq_error_iff.1 ⟨e, hdec⟩)
    obtain rfl := Host.Outcome.next.inj (hraised.symm.trans hstep)
    exact ⟨r, rest, hqueue, rfl, .inl ⟨rfl, e, hdec⟩⟩
  · obtain ⟨level, hraised⟩ := h.step_wrline_miss hqueue hclear hdec hlen hmiss
    obtain rfl := Host.Outcome.next.inj (hraised.symm.trans hstep)
    exact ⟨r, rest, hqueue, rfl, .inr ⟨rfl, c, hdec, hmiss⟩⟩

/-- Settles O54: reaching the fault state is one way of being judged wrong, and that judgement stays
(`runVerdict_add_of_wrong`). -/
theorem runThatReachesTheFaultStateHasGoneWrong : Obligations.RunThatReachesTheFaultStateHasGoneWrong := by
  refine ⟨fun s t m n hrun hvalid => ?_, fun s m n hwrong => runVerdict_add_of_wrong hwrong n⟩
  have hwrong : runVerdict m s = .wrong := verdict_eq_wrong.2 (.inl ⟨t, hrun, hvalid⟩)
  exact ⟨hwrong, runVerdict_add_of_wrong hwrong n⟩

end Sys2Proof.Machine

/-! PROOFS. The reset state (spec/70_reset_and_hazards.md R200 to R202; spec/00_scope.md R9): loading a MEM0 that is in
canonical form leaves it as it is, and the construction of TC raises no fault. -/

namespace Sys2Proof.Machine

/-- A non-zero byte written below every listed index goes in front. -/
theorem Memory.write_eq_cons {m : List Host.Cell} {x : Nat} {b : Byte} (hbelow : ∀ c ∈ m, x < c.1)
    (hb : b ≠ Memory.unlisted) : Memory.write m x b = (x, b) :: m := by
  cases m with
  | nil => exact if_neg hb
  | cons c m =>
    have hx : x < c.1 := hbelow c List.mem_cons_self
    simp [Memory.write, hx, hb]

/-- MEM is MEM0 where MEM0 is in canonical form (R201, R202): each cell is written in front of those after it. -/
theorem Memory.load_eq_self {S : Nat} {m : List Host.Cell} (h : Memory.wf S m = true) : Memory.load S m = m := by
  induction m with
  | nil => rfl
  | cons c m ih =>
    obtain ⟨hrising, hcells⟩ := (Memory.wf_iff S _).1 h
    obtain ⟨hin, hbyte⟩ := hcells c List.mem_cons_self
    rw [Memory.load, if_pos hin, ih (Memory.wf_tail h)]
    exact Memory.write_eq_cons (List.pairwise_cons.1 hrising).1 hbyte

/-- The construction of the test configuration passes every check (R9, R100). -/
theorem reset_fault_clear : State.reset.fault = .clear := by decide

/-- The sizes of the test configuration are in the ranges of R7. -/
theorem tc_inRange : Params.tc.inRange = true := by decide

/-- Settles O14: PARAMS and DEVLOG are set by construction, REG and FAULT are those of a loop without a fault
(`construct_clear`), and MEM is the loaded MEM0. -/
theorem constructionLeavesTheResetState : Obligations.ConstructionLeavesTheResetState := by
  intro p mem0 hfault
  obtain ⟨-, -, hreg, hclear⟩ := construct_clear hfault
  exact ⟨rfl, hreg, Memory.load_eq_self, rfl, hclear⟩

/-- Settles O16: `State.reset` is a construction without a fault from parameters in the ranges of R7, hence well-formed
by O15. -/
theorem resetIsWellFormed : Obligations.ResetIsWellFormed := by
  have hvalid : State.reset.fault.valid = false := by rw [reset_fault_clear]; rfl
  exact legalConstructionIsWellFormed Params.tc [] tc_inRange hvalid

end Sys2Proof.Machine
